-- ==== Sys2Proof/Word.lean ====
section
/-! DEFINITION. Bytes, byte strings, byte offsets and fixed-size blocks (spec/00_scope.md R10, R11; spec/20_memory.md R60). -/

namespace Sys2Proof

/-- A byte: bits 7 down to 0, bit 0 of weight 1 (R10). -/
abbrev Byte := BitVec 8

/-- A byte string, the byte at the lowest offset first (R10). -/
abbrev Bytes := List Byte

/-- A byte offset into a code buffer, 16 bits wide (R8, R30). -/
abbrev Offset := BitVec 16

/-- A string of exactly 32 bytes, the unit of `CurBlock32` (spec/20_memory.md R70). It has no endianness (R63). -/
structure Block32 where
  bytes : Bytes
  len : bytes.length = 32
  deriving DecidableEq, Repr

/-- A library identifier: 32 bytes, compared as a byte string (R5 `LIBID_LEN`, R108). -/
abbrev LibId := Block32

/-- The width of a bit-field: 1 to 7 bits, "the width type admits no other value" (spec/20_memory.md R66). -/
structure FieldWidth where
  w : Nat
  pos : 1 ≤ w
  le : w ≤ 7
  deriving DecidableEq, Repr

end Sys2Proof
end

