-- ==== Sys2Proof/Config.lean ====
section
/-! DEFINITION. The constants of the hardware (spec/00_scope.md R5) and the launch parameters that are functions:
the cryptographic capabilities, which the engine "invokes by opcode" and does not implement (R4 (b), R9).

A capability is an opaque constant: it has no body, so nothing can be proved of its values and every theorem about
an instruction that invokes one holds whatever the capability computes (assumption 2). The launch parameters that
are data (`CODE`, `LAUNCH_LIB`, `LIBS`, the domain of `DIGEST`) stand in `Machine.State` (assumption 1). -/

namespace Sys2Proof

/-- `NSLOT`: slots per register bank (R5, R7). -/
abbrev Config.nslot : Nat := 32

/-- `CODE_MAX`: greatest length of a code buffer in bytes (R5). -/
abbrev Config.codeMax : Nat := 65536

/-- `POS_MAX`: greatest byte offset of the cursor (R5). -/
abbrev Config.posMax : Nat := 65535

/-- The bound of a slice's declared length: "the prefix cannot equal or exceed 65535" (R5 `SLICE_MAX` + 1, R80). -/
abbrev Config.sliceBound : Nat := 65535

/-- `VAR_MAX`: capacity in bytes of an `ap` or `s` register (R5). -/
abbrev Config.varMax : Nat := 65535

/-- `CY_MAX`: greatest value of the jump counter `cy0` (R5). -/
abbrev Config.cyMax : Nat := 65535

/-- `STACK_CAP`: capacity of the call stack in entries (R5). -/
abbrev Config.stackCap : Nat := 65536

/-- `H` of `DIGEST(alg) = (out_len, H)`: a total function from byte strings to strings of exactly `outLen` bytes
(spec/45_digest.md R250). Which `alg` are defined, and with what length, is `Machine.State.digest`. -/
opaque Config.digest (alg : Fin 32) (outLen : Nat) (x : Bytes) : Vector Byte outLen

/-- `SECP_GEN(k)`: refused (`none`) or a 64-byte point (spec/46_secp256k1.md R255). -/
opaque Config.secpGen (k : Bytes) : Option (Vector Byte 64)

/-- `SECP_MUL(k, P)` (R255). -/
opaque Config.secpMul (k p : Bytes) : Option (Vector Byte 64)

/-- `SECP_ADD(P, Q, ovf)` (R255): the overflow-tolerance flag is handed over unchanged (R258). -/
opaque Config.secpAdd (p q : Bytes) (ovf : Bool) : Option (Vector Byte 64)

/-- `SECP_NEG(P)` (R255). -/
opaque Config.secpNeg (p : Bytes) : Option (Vector Byte 64)

/-- `ED_GEN(k)` (spec/47_ed25519.md R265). -/
opaque Config.edGen (k : Bytes) : Option (Vector Byte 64)

/-- `ED_MUL(k, P)` (R265). -/
opaque Config.edMul (k p : Bytes) : Option (Vector Byte 64)

/-- `ED_ADD(P, Q, ovf)` (R265). -/
opaque Config.edAdd (p q : Bytes) (ovf : Bool) : Option (Vector Byte 64)

/-- `ED_NEG(P)` (R265). -/
opaque Config.edNeg (p : Bytes) : Option (Vector Byte 64)

end Sys2Proof
end

