-- ==== Sys2Proof/Syntax.lean ====
section
/-! DEFINITION. The instructions: one constructor of `Instr` per row of spec/opcode_table.json (spec/30_encoding.md
R110), its operands already turned into banks, slot indices and modes.

A slot index is the encoded field: index `i` names slot `i + 1` (R104). -/

namespace Sys2Proof

/-- The sixteen register banks (spec/00_scope.md R12), in the order of their selector `cls` (R105). -/
inductive Bank where
  | a8 | a16 | a32 | a64 | a128 | a256 | a512
  | ap
  | r128 | r256 | r512 | r1024 | r2048 | r4096 | r8192
  | s
  deriving DecidableEq, Repr

/-- The arithmetic banks, in the order of the selector `wa` (R106). -/
inductive ABank where
  | a8 | a16 | a32 | a64 | a128 | a256 | a512
  | ap
  deriving DecidableEq, Repr

/-- The byte-blob banks, in the order of the selector `wr` (R107). -/
inductive RBank where
  | r128 | r256 | r512 | r1024 | r2048 | r4096 | r8192
  deriving DecidableEq, Repr

/-- A register reference, "a (bank-class, index) pair" (R105). -/
structure RegRef where
  bank : Bank
  idx : Fin 32
  deriving DecidableEq, Repr

/-- The field `kind` of an arithmetic mode (R119). -/
inductive Kind where
  /-- `kind = 0`: integer checked -/
  | checked
  /-- `kind = 1`: integer unchecked (wrapping) -/
  | wrapping
  /-- `kind = 2`: integer arbitrary-precision -/
  | arbitrary
  /-- `kind = 3`: floating stub -/
  | float
  deriving DecidableEq, Repr

/-- An arithmetic mode: `kind` and the signedness flag `sg` (R119). -/
structure Mode where
  kind : Kind
  sg : Bool
  deriving DecidableEq, Repr

/-- The 51 instructions of R110. -/
inductive Instr where
  -- control flow (spec/40_control_flow.md)
  | fail
  | succ
  | jmp (off : Offset)
  | jif (off : Offset)
  | routine (off : Offset)
  | call (lib : LibId) (off : Offset)
  | exec (lib : LibId) (off : Offset)
  | ret
  -- register manipulation (spec/41_register_ops.md)
  | swp (r1 r2 : RegRef) (x1 x2 : Bool)
  | mov (src dst : RegRef) (x dup : Bool)
  | zeroa (b : ABank) (i : Fin 32)
  | zeror (b : RBank) (i : Fin 32)
  | zeros (i : Fin 32)
  | cleana (b : ABank) (i : Fin 32)
  | cleanr (b : RBank) (i : Fin 32)
  | cleans (i : Fin 32)
  | puta (b : ABank) (i : Fin 32) (lit : Bytes)
  | putr (b : RBank) (i : Fin 32) (lit : Bytes)
  | puts (i : Fin 32) (lit : Bytes)
  -- comparison and measurement (spec/42_comparison.md)
  | cmpa (b : ABank) (i1 i2 : Fin 32)
  | cmpr (b : RBank) (i1 i2 : Fin 32)
  | eqa (b : ABank) (i1 i2 : Fin 32)
  | eqr (b : RBank) (i1 i2 : Fin 32)
  | lena (b : ABank) (i1 i2 : Fin 32)
  | lenr (b : RBank) (i1 i2 : Fin 32)
  | cnta (b : ABank) (i1 i2 : Fin 32)
  | cntr (b : RBank) (i1 i2 : Fin 32)
  -- arithmetic (spec/43_arithmetic.md)
  | add (m : Mode) (b : ABank) (i1 i2 : Fin 32)
  | sub (m : Mode) (b : ABank) (i1 i2 : Fin 32)
  | mul (m : Mode) (b : ABank) (i1 i2 : Fin 32)
  | div (m : Mode) (b : ABank) (i1 i2 : Fin 32)
  | neg (m : Mode) (b : ABank) (i1 : Fin 32)
  | mod (m : Mode) (b : ABank) (i1 i2 : Fin 32)
  | abs (m : Mode) (b : ABank) (i1 i2 : Fin 32)
  -- bitwise (spec/44_bitwise.md)
  | and (b : ABank) (i1 i2 : Fin 32) (d : Fin 8)
  | or (b : ABank) (i1 i2 : Fin 32) (d : Fin 8)
  | xor (b : ABank) (i1 i2 : Fin 32) (d : Fin 8)
  | not (b : ABank) (i1 : Fin 32)
  | shl (b : ABank) (i1 i2 : Fin 32) (d : Fin 8)
  | shr (b : ABank) (i1 i2 : Fin 32) (d : Fin 8)
  | scl (b : ABank) (i1 i2 : Fin 32) (d : Fin 8)
  | scr (b : ABank) (i1 i2 : Fin 32) (d : Fin 8)
  -- digest (spec/45_digest.md)
  | dgst (alg : Fin 32) (src : Fin 32) (off : Offset) (b : RBank) (dst : Fin 32) (clr : Bool)
  -- elliptic curves (spec/46_secp256k1.md, spec/47_ed25519.md)
  | secpgen (i1 : Fin 32) (d : Fin 8)
  | secpmul (i1 i2 : Fin 32) (d : Fin 8)
  | secpadd (i1 i2 : Fin 32) (d : Fin 8) (ovf : Bool)
  | secpneg (i1 : Fin 32) (d : Fin 8)
  | edgen (i1 : Fin 32) (d : Fin 8)
  | edmul (i1 i2 : Fin 32) (d : Fin 8)
  | edadd (i1 i2 : Fin 32) (d : Fin 8) (ovf : Bool)
  | edneg (i1 : Fin 32) (d : Fin 8)
  deriving DecidableEq, Repr

end Sys2Proof
end

