-- ==== Sys2Proof/Machine/Banks.lean ====
section
/-! DEFINITION. What the bank selectors name: byte lengths (spec/00_scope.md R12), selector codes
(spec/30_encoding.md R105 to R107, R119) and the length of a value a bank's slot may hold (spec/10_state.md R21 to R24). -/

namespace Sys2Proof

/-- The bank a selector `wa` names: bank `cls = wa` (R106). -/
def ABank.toBank : ABank → Bank
  | .a8 => .a8 | .a16 => .a16 | .a32 => .a32 | .a64 => .a64 | .a128 => .a128 | .a256 => .a256 | .a512 => .a512
  | .ap => .ap

/-- The bank a selector `wr` names: bank `cls = 8 + wr` (R107). -/
def RBank.toBank : RBank → Bank
  | .r128 => .r128 | .r256 => .r256 | .r512 => .r512 | .r1024 => .r1024 | .r2048 => .r2048 | .r4096 => .r4096
  | .r8192 => .r8192

/-- `bytes(bank)`: the byte length of a fixed-width bank, `none` for `var` (R12). -/
def Bank.bytes : Bank → Option Nat
  | .a8 => some 1 | .a16 => some 2 | .a32 => some 4 | .a64 => some 8 | .a128 => some 16 | .a256 => some 32
  | .a512 => some 64
  | .ap => none
  | .r128 => some 16 | .r256 => some 32 | .r512 => some 64 | .r1024 => some 128 | .r2048 => some 256
  | .r4096 => some 512 | .r8192 => some 1024
  | .s => none

/-- `bytes` of an arithmetic bank. -/
def ABank.bytes (b : ABank) : Option Nat := b.toBank.bytes

/-- `bytes` of a byte-blob bank, all of which have a fixed width (R23). -/
def RBank.bytes : RBank → Nat
  | .r128 => 16 | .r256 => 32 | .r512 => 64 | .r1024 => 128 | .r2048 => 256 | .r4096 => 512 | .r8192 => 1024

/-- A byte string a slot of the bank may hold: exactly the bank's length, or at most `VAR_MAX` bytes for `ap` and
`s` (R21 to R24). -/
def Bank.fits (b : Bank) (x : Bytes) : Bool :=
  match b.bytes with
  | some m => x.length == m
  | none => decide (x.length ≤ Config.varMax)

/-- The selector `cls` (R105). -/
def Bank.code : Bank → Nat
  | .a8 => 0 | .a16 => 1 | .a32 => 2 | .a64 => 3 | .a128 => 4 | .a256 => 5 | .a512 => 6
  | .ap => 7
  | .r128 => 8 | .r256 => 9 | .r512 => 10 | .r1024 => 11 | .r2048 => 12 | .r4096 => 13 | .r8192 => 14
  | .s => 15

/-- The bank a 4-bit `cls` field names; all sixteen values are legal (R105). -/
def Bank.ofCode : Nat → Bank
  | 0 => .a8 | 1 => .a16 | 2 => .a32 | 3 => .a64 | 4 => .a128 | 5 => .a256 | 6 => .a512
  | 7 => .ap
  | 8 => .r128 | 9 => .r256 | 10 => .r512 | 11 => .r1024 | 12 => .r2048 | 13 => .r4096 | 14 => .r8192
  | _ => .s

/-- The selector `wa` (R106). -/
def ABank.code (b : ABank) : Nat := b.toBank.code

/-- The bank a 3-bit `wa` field names; all eight values name a bank (R106). -/
def ABank.ofCode : Nat → ABank
  | 0 => .a8 | 1 => .a16 | 2 => .a32 | 3 => .a64 | 4 => .a128 | 5 => .a256 | 6 => .a512
  | _ => .ap

/-- The selector `wr` (R107). -/
def RBank.code (b : RBank) : Nat := b.toBank.code - 8

/-- The bank a 3-bit `wr` field names; 7 is reserved (R107). -/
def RBank.ofCode : Nat → Option RBank
  | 0 => some .r128 | 1 => some .r256 | 2 => some .r512 | 3 => some .r1024 | 4 => some .r2048 | 5 => some .r4096
  | 6 => some .r8192
  | _ => none

/-- The field `kind` (R119). -/
def Kind.code : Kind → Nat
  | .checked => 0 | .wrapping => 1 | .arbitrary => 2 | .float => 3

/-- The mode kind a 2-bit `kind` field names (R119). -/
def Kind.ofCode : Nat → Kind
  | 0 => .checked | 1 => .wrapping | 2 => .arbitrary
  | _ => .float

/-- Mode and bank go together: `kind` 0 and 1 only with a fixed-width bank, `kind` 2 only with `ap`, `kind` 3 with any
(spec/43_arithmetic.md R202). -/
def Mode.agrees (m : Mode) (b : ABank) : Bool :=
  match m.kind with
  | .checked | .wrapping => b != .ap
  | .arbitrary => b == .ap
  | .float => true

end Sys2Proof
end

