-- ==== Sys2Proof/Machine/Errors.lean ====
section
/-! DEFINITION. The engine's errors (spec/60_exceptions.md R290), its contract violations (R297), and how a cursor
primitive stops. Errors are identified by name and payload; there is no numeric cause code (R290). -/

namespace Sys2Proof.Machine

/-- Every error the engine can raise (R290). -/
inductive EngineError where
  /-- a cursor read under `eof`, or at or past the buffer's length; a `ret` into the current library under `eof` -/
  | endOfBuffer
  /-- a multi-byte access past offset 65535; `p` is the attempted position -/
  | outOfBoundaries (p : Nat)
  /-- no row for the opcode byte, a reserved bit set, or an illegal field value -/
  | unknownOpcode
  /-- `cy0 = 65535` when a counted transfer would increment it -/
  | counterExhausted
  /-- a checked result out of range, a negative unsigned `ap` result, or an `ap` result beyond 65535 bytes -/
  | arithmeticOverflow
  /-- the divisor reads as 0 -/
  | divisionByZero
  /-- an arithmetic mode of kind 3 (floating) -/
  | unimplementedStub
  /-- `ret` with `cp0 = 0` -/
  | callStackUnderflow
  /-- a push with `cp0 = 65536` -/
  | callStackOverflow
  /-- a transfer to a library that has no buffer. From reset the payload is always an identifier; `none` can occur
  only in a state no run reaches (assumption 17) -/
  | libraryUnresolved (l : Option LibId)
  deriving DecidableEq, Repr

/-- The contract violations of R297. -/
inductive Violation where
  /-- a byte-level cursor access with `bit != 0` -/
  | misalignedAccess
  /-- a slot index outside 1..32 -/
  | indexOutOfRange
  /-- `CurPutRegValue` with a value longer than its register -/
  | valueTooLong
  deriving DecidableEq, Repr

/-- How a cursor primitive that does not succeed ends: a failure (an error to raise) or an abort (spec/20_memory.md
R65, R74). -/
inductive Stop where
  | fail (e : EngineError)
  | abort (v : Violation)
  deriving DecidableEq, Repr

end Sys2Proof.Machine
end

