-- ==== Sys2Proof/Machine/Memory.lean ====
section
/-! DEFINITION. A code buffer, the only memory of the hardware (spec/20_memory.md R60, R61): a byte string of at most
65536 bytes, held as its length and the canonical list of its nonzero bytes, so that equal buffers are equal data and a
full 65536-byte buffer can be written down (assumption 7). -/

namespace Sys2Proof.Machine

/-- One code buffer: offsets `0 .. len-1`. An offset below `len` that `cells` does not list holds 0; an offset at or
above `len` does not exist. -/
structure Memory where
  len : Nat
  cells : List Host.Cell
  deriving DecidableEq, Repr

/-- What an unlisted offset below `len` reads as. -/
def Memory.blank : Byte := 0

/-- The canonical form: at most `CODE_MAX` bytes (R60), offsets strictly rising and below the length, no listed byte
equal to what an unlisted offset reads as. -/
abbrev Memory.wf (m : Memory) : Prop :=
  m.len ≤ Config.codeMax ∧ m.cells.Pairwise (fun x y => x.1 < y.1) ∧
    ∀ x ∈ m.cells, x.1 < m.len ∧ x.2 ≠ Memory.blank

/-- The buffer of length 0. -/
def Memory.empty : Memory := ⟨0, []⟩

/-- The buffer of `n` zero bytes. -/
def Memory.zeros (n : Nat) : Memory := ⟨n, []⟩

/-- The byte a list of cells gives an offset. -/
def cellAt (a : Nat) : List Host.Cell → Byte
  | [] => Memory.blank
  | x :: rest => if x.1 = a then x.2 else cellAt a rest

/-- The byte at an offset; meaningful below `len` only (`Memory.read` checks). -/
def Memory.byte (m : Memory) (a : Nat) : Byte := cellAt a m.cells

/-- The byte at an offset of the buffer, `none` where the buffer has no such offset. -/
def Memory.byte? (m : Memory) (a : Nat) : Option Byte :=
  if a < m.len then some (m.byte a) else none

/-- `BUF[a .. a+n)`, whatever the length. -/
def Memory.slice (m : Memory) (a n : Nat) : Bytes := (List.range n).map fun k => m.byte (a + k)

/-- `MemRead(addr, n)`: defined only when `addr + n <= len(BUF)` (R61). -/
def Memory.read (m : Memory) (a n : Nat) : Option Bytes :=
  if a + n ≤ m.len then some (m.slice a n) else none

/-- Lists `v` at offset `a`, keeping the canonical form. -/
def putCell (a : Nat) (v : Byte) : List Host.Cell → List Host.Cell
  | [] => if v = Memory.blank then [] else [(a, v)]
  | x :: rest =>
    if a < x.1 then (if v = Memory.blank then x :: rest else (a, v) :: x :: rest)
    else if a = x.1 then (if v = Memory.blank then rest else (a, v) :: rest)
    else x :: putCell a v rest

/-- Replaces the byte at an offset of the buffer; an offset the buffer does not have is left alone. -/
def Memory.put (m : Memory) (a : Nat) (v : Byte) : Memory :=
  if a < m.len then ⟨m.len, putCell a v m.cells⟩ else m

/-- Replaces `BUF[a .. a+len(x))` by `x`, byte by byte. -/
def Memory.putBytes (m : Memory) (a : Nat) : Bytes → Memory
  | [] => m
  | v :: rest => (m.put a v).putBytes (a + 1) rest

/-- `MemWrite(addr, n, v)` with `n = len(v)`: defined only when `addr + n <= len(BUF)`; the length never changes
(R61). -/
def Memory.write (m : Memory) (a : Nat) (v : Bytes) : Option Memory :=
  if a + v.length ≤ m.len then some (m.putBytes a v) else none

/-- The buffer that holds a byte string from offset 0. -/
def Memory.ofBytes (x : Bytes) : Memory := (Memory.zeros x.length).putBytes 0 x

/-- The byte string a buffer holds. -/
def Memory.toBytes (m : Memory) : Bytes := m.slice 0 m.len

end Sys2Proof.Machine
end

