-- ==== Sys2Proof/Machine/Cursor.lean ====
section
/-! DEFINITION. The bytecode cursor (spec/20_memory.md sections 2 to 5): advancing, the access check, the read and
write primitives, repositioning and inspection. A primitive that does not succeed returns the cursor it was given
(R74). -/

namespace Sys2Proof.Machine

/-- The cursor: "underlying byte buffer, current byte offset, current bit offset, end-of-buffer flag"
(spec/10_state.md R31). -/
structure Cursor where
  buf : Memory
  pos : Offset
  bit : BitVec 3
  eof : Bool
  deriving DecidableEq, Repr

/-- What a cursor operation answers: a value and the cursor after it, or how it stopped and the cursor as it stands. -/
inductive CurOut (α : Type) where
  | ok (a : α) (c : Cursor)
  | stop (why : Stop) (c : Cursor)
  deriving DecidableEq, Repr

/-- One operation after another: the first stop met ends the sequence. -/
def CurOut.bind {α β : Type} (r : CurOut α) (f : α → Cursor → CurOut β) : CurOut β :=
  match r with
  | .ok a c => f a c
  | .stop why c => .stop why c

/-- A failure with error `e`; the cursor stands where it is. -/
def failAt {α : Type} (e : EngineError) (c : Cursor) : CurOut α := .stop (.fail e) c

/-- `Advance(n)` (R64): one byte from offset 65535 sets the sentinel instead of moving. -/
def Cursor.advance (c : Cursor) (n : Nat) : Cursor :=
  if n = 0 then c
  else if n = 1 ∧ c.pos.toNat = Config.posMax then { c with eof := true }
  else { c with pos := c.pos + BitVec.ofNat 16 n }

/-- `CheckBytes(n)` (R65): `none` when the access may go on. -/
def Cursor.checkBytes (c : Cursor) (n : Nat) : Option Stop :=
  if c.eof then some (.fail .endOfBuffer)
  else if n = 0 then none
  else if c.bit ≠ 0 then some (.abort .misalignedAccess)
  else if 2 ≤ n ∧ c.pos.toNat + n > Config.posMax then some (.fail (.outOfBoundaries (c.pos.toNat + n)))
  else if c.pos.toNat + n > c.buf.len then some (.fail .endOfBuffer)
  else none

/-- Reads `n` bytes at the cursor under `CheckBytes(n)` and advances past them. -/
def curBytes (n : Nat) (c : Cursor) : CurOut Bytes :=
  match c.checkBytes n with
  | some why => .stop why c
  | none => .ok (c.buf.slice c.pos.toNat n) (c.advance n)

/-- `bits` bits of `b` from bit `lo` upward. -/
def bitField (b : Byte) (lo bits : Nat) : Nat := b.toNat / 2 ^ lo % 2 ^ bits

/-- `CurBits(w)` (R66). -/
def curBits (fw : FieldWidth) (c : Cursor) : CurOut Nat :=
  let w := fw.w
  let bit := c.bit.toNat
  let pos := c.pos.toNat
  if c.eof then failAt .endOfBuffer c
  else if c.buf.len ≤ pos then failAt .endOfBuffer c
  else if bit + w ≤ 8 then
    let v := bitField (c.buf.byte pos) bit w
    if bit + w = 8 then .ok v ({ c with bit := 0 }.advance 1)
    else .ok v { c with bit := BitVec.ofNat 3 (bit + w) }
  else
    let lo := 8 - bit
    let hi := w - lo
    if pos = Config.posMax then failAt (.outOfBoundaries 65536) c
    else if c.buf.len ≤ pos + 1 then failAt .endOfBuffer c
    else
      .ok (bitField (c.buf.byte pos) bit lo + bitField (c.buf.byte (pos + 1)) 0 hi * 2 ^ lo)
        { c with pos := c.pos + 1, bit := BitVec.ofNat 3 hi }

/-- `CurU8()` (R67). -/
def curU8 (c : Cursor) : CurOut Byte :=
  match c.checkBytes 1 with
  | some why => .stop why c
  | none => .ok (c.buf.byte c.pos.toNat) (c.advance 1)

/-- `BUF[a] + 256 * BUF[a+1]` (R63, R68). -/
def le16 (m : Memory) (a : Nat) : Offset :=
  BitVec.ofNat 16 ((m.byte a).toNat + 256 * (m.byte (a + 1)).toNat)

/-- `CurU16()` (R68). -/
def curU16 (c : Cursor) : CurOut Offset :=
  match c.checkBytes 2 with
  | some why => .stop why c
  | none => .ok (le16 c.buf c.pos.toNat) (c.advance 2)

/-- `CurI16()`: as `CurU16()`, read in two's complement (R69). -/
def curI16 (c : Cursor) : CurOut Int :=
  (curU16 c).bind fun v c => .ok (if 32768 ≤ v.toNat then (v.toNat : Int) - 65536 else v.toNat) c

/-- The 32-byte block of the buffer at an offset. -/
def blockAt (m : Memory) (a : Nat) : Block32 := ⟨m.slice a 32, by simp [Memory.slice]⟩

/-- `CurBlock32()` (R70). -/
def curBlock32 (c : Cursor) : CurOut Block32 :=
  match c.checkBytes 32 with
  | some why => .stop why c
  | none => .ok (blockAt c.buf c.pos.toNat) (c.advance 32)

/-- `CurSlice()` (R71): all checks, those of the payload included, come before any move. -/
def curSlice (c : Cursor) : CurOut Bytes :=
  match c.checkBytes 2 with
  | some why => .stop why c
  | none =>
    let p := c.pos.toNat
    let l := (le16 c.buf p).toNat
    if 2 ≤ l ∧ p + 2 + l > Config.posMax then failAt (.outOfBoundaries (p + 2 + l)) c
    else if 1 ≤ l ∧ p + 2 + l > c.buf.len then failAt .endOfBuffer c
    else .ok (c.buf.slice (p + 2) l) ((c.advance 2).advance l)

/-- `CurRegValue(bank)` (R72). -/
def curRegValue (b : Bank) (c : Cursor) : CurOut Bytes :=
  match b.bytes with
  | some m => curBytes m c
  | none => curSlice c

/-- The byte `b` with `bits` bits from bit `lo` upward replaced by the low bits of `u`. -/
def setField (b : Byte) (lo bits u : Nat) : Byte :=
  BitVec.ofNat 8 (b.toNat % 2 ^ lo + u % 2 ^ bits * 2 ^ lo + b.toNat / 2 ^ (lo + bits) * 2 ^ (lo + bits))

/-- `CurPutBits(w, v)` (R75): only `v mod 2^w` is deposited, all other bits are kept. -/
def curPutBits (fw : FieldWidth) (v : Nat) (c : Cursor) : CurOut Unit :=
  let w := fw.w
  let bit := c.bit.toNat
  let pos := c.pos.toNat
  let u := v % 2 ^ w
  if c.eof then failAt .endOfBuffer c
  else if c.buf.len ≤ pos then failAt .endOfBuffer c
  else if bit + w ≤ 8 then
    let buf := c.buf.put pos (setField (c.buf.byte pos) bit w u)
    if bit + w = 8 then .ok () ({ c with buf := buf, bit := 0 }.advance 1)
    else .ok () { c with buf := buf, bit := BitVec.ofNat 3 (bit + w) }
  else
    let lo := 8 - bit
    let hi := w - lo
    if pos = Config.posMax then failAt (.outOfBoundaries 65536) c
    else if c.buf.len ≤ pos + 1 then failAt .endOfBuffer c
    else
      let buf := (c.buf.put pos (setField (c.buf.byte pos) bit lo u)).put (pos + 1)
        (setField (c.buf.byte (pos + 1)) 0 hi (u / 2 ^ lo))
      .ok () { c with buf := buf, pos := c.pos + 1, bit := BitVec.ofNat 3 hi }

/-- Writes bytes at the cursor under `CheckBytes` and advances past them. -/
def curPutBytes (x : Bytes) (c : Cursor) : CurOut Unit :=
  match c.checkBytes x.length with
  | some why => .stop why c
  | none => .ok () ({ c with buf := c.buf.putBytes c.pos.toNat x }.advance x.length)

/-- `CurPutU8(v)` (R76). -/
def curPutU8 (v : Byte) (c : Cursor) : CurOut Unit := curPutBytes [v] c

/-- The two bytes of a 16-bit value, least significant first (R63). -/
def bytes16 (v : Offset) : Bytes := [BitVec.ofNat 8 (v.toNat % 256), BitVec.ofNat 8 (v.toNat / 256)]

/-- `CurPutU16(v)` (R77). -/
def curPutU16 (v : Offset) (c : Cursor) : CurOut Unit := curPutBytes (bytes16 v) c

/-- `CurPutI16(v)`: `CurPutU16(v mod 65536)` (R78). -/
def curPutI16 (v : Int) (c : Cursor) : CurOut Unit := curPutU16 (BitVec.ofInt 16 v) c

/-- `CurPutBlock32(x)` (R79). -/
def curPutBlock32 (x : Block32) (c : Cursor) : CurOut Unit := curPutBytes x.bytes c

/-- `CurPutSlice(x)` (R80). -/
def curPutSlice (x : Bytes) (c : Cursor) : CurOut Unit :=
  let p := c.pos.toNat
  let l := x.length
  if c.eof then failAt .endOfBuffer c
  else if c.bit ≠ 0 then .stop (.abort .misalignedAccess) c
  else if Config.sliceBound ≤ l then failAt (.outOfBoundaries (p + 2 + l)) c
  else if p + 2 > Config.posMax then failAt (.outOfBoundaries (p + 2)) c
  else if 2 ≤ l ∧ p + 2 + l > Config.posMax then failAt (.outOfBoundaries (p + 2 + l)) c
  else if p + 2 + l > c.buf.len then failAt .endOfBuffer c
  else .ok () (({ c with buf := c.buf.putBytes p (bytes16 (BitVec.ofNat 16 l) ++ x) }.advance 2).advance l)

/-- The top bit of a byte string: bit 7 of its last byte, false for the empty string (R11, R81). -/
def topBit (x : Bytes) : Bool :=
  match x.getLast? with
  | some b => b.msb
  | none => false

/-- `x` extended to `m` bytes with bytes of 255 (a set top bit under the flag) or 0 (R81; spec/41_register_ops.md
R161). -/
def extend (x : Bytes) (m : Nat) (signed : Bool) : Bytes :=
  x ++ List.replicate (m - x.length) (if signed && topBit x then 255 else 0)

/-- `CurPutRegValue(bank, x, sg)` (R81): a value longer than a fixed-width register aborts. -/
def curPutRegValue (b : Bank) (x : Bytes) (sg : Bool) (c : Cursor) : CurOut Unit :=
  match b.bytes with
  | some m => if m < x.length then .stop (.abort .valueTooLong) c else curPutBytes (extend x m sg) c
  | none => curPutSlice x c

/-- `CurSeek(o)` (R83): fails under `eof`, otherwise clears `bit`. -/
def curSeek (o : Offset) (c : Cursor) : CurOut Unit :=
  if c.eof then failAt .endOfBuffer c else .ok () { c with pos := o, bit := 0 }

/-- `CurPos()` (R84). -/
def curPos (c : Cursor) : Offset := c.pos

/-- `CurIsEnd()` (R85). -/
def curIsEnd (c : Cursor) : Bool := decide (c.buf.len ≤ c.pos.toNat)

/-- `CurIsEof()` (R85). -/
def curIsEof (c : Cursor) : Bool := c.eof

end Sys2Proof.Machine
end

