-- ==== Sys2Proof/WellFormed.lean ====
section
/-! DEFINITION. Which terms of `Instr` are instructions of the encoding: the legality rules of
spec/30_encoding.md R113 that the types of the fields do not already enforce, and the room a literal has (R108).
Whether a `dgst` is legal depends on the launch parameter `DIGEST` (R113 (e)) and is `Instr.supported`. -/

namespace Sys2Proof

/-- The longest literal the cursor can carry in a `put*`: 65531 bytes (R108; spec/41_register_ops.md R168). -/
abbrev Config.litMax : Nat := 65531

/-- A literal that fits its destination (R113 (d)) and the instruction stream (R168). -/
def litOk (m : Option Nat) (lit : Bytes) : Bool :=
  decide (lit.length ≤ Config.litMax) && match m with
    | some n => decide (lit.length ≤ n)
    | none => true

/-- The well-formed instructions: bitwise operations not on `ap` (R113 (b)), arithmetic mode and bank in agreement
(R113 (c)), literals within bounds (R113 (d)). -/
def Instr.wf : Instr → Bool
  | .puta b _ lit => litOk b.bytes lit
  | .putr b _ lit => litOk (some b.bytes) lit
  | .puts _ lit => litOk none lit
  | .add m b _ _ | .sub m b _ _ | .mul m b _ _ | .div m b _ _ | .neg m b _ | .mod m b _ _ | .abs m b _ _ => m.agrees b
  | .and b _ _ _ | .or b _ _ _ | .xor b _ _ _ | .not b _ | .shl b _ _ _ | .shr b _ _ _ | .scl b _ _ _
  | .scr b _ _ _ => b != .ap
  | .fail | .succ | .jmp _ | .jif _ | .routine _ | .call _ _ | .exec _ _ | .ret => true
  | .swp _ _ _ _ | .mov _ _ _ _ => true
  | .zeroa _ _ | .zeror _ _ | .zeros _ | .cleana _ _ | .cleanr _ _ | .cleans _ => true
  | .cmpa _ _ _ | .cmpr _ _ _ | .eqa _ _ _ | .eqr _ _ _ | .lena _ _ _ | .lenr _ _ _ | .cnta _ _ _ | .cntr _ _ _ => true
  | .dgst _ _ _ _ _ _ => true
  | .secpgen _ _ | .secpmul _ _ _ | .secpadd _ _ _ _ | .secpneg _ _ => true
  | .edgen _ _ | .edmul _ _ _ | .edadd _ _ _ _ | .edneg _ _ => true

/-- The domain and output lengths of the launch parameter `DIGEST`: for each `alg` in 0..31 undefined, or the `R` bank
whose length `out_len` is (spec/45_digest.md R250). -/
abbrev DigestTable := Vector (Option RBank) 32

/-- A `dgst` is legal only where `DIGEST(alg)` is defined and exactly as wide as the destination
(spec/45_digest.md R251); every other instruction is legal under any `DIGEST`. -/
def Instr.supported (d : DigestTable) : Instr → Bool
  | .dgst alg _ _ b _ _ => d[alg] == some b
  | _ => true

end Sys2Proof
end

