-- ==== Sys2Proof/Machine/State.lean ====
section
/-! DEFINITION. The state of one execution (spec/10_state.md), its reset value (R45), and the reasons a step of the
model can end without a next state. Plain data throughout. -/

namespace Sys2Proof.Machine

/-- A slot of a bank: `Unset` (`none`) or `Val(x)` (`some x`), "a distinct third state, not zero" (R25). -/
abbrev Slot := Option Bytes

/-- The 32 slots of a bank; entry `i` is slot `i + 1` (R20, spec/30_encoding.md R104). -/
abbrev BankSlots := Vector Slot 32

/-- The sixteen register banks (R20 to R24). -/
structure Registers where
  a8 : BankSlots
  a16 : BankSlots
  a32 : BankSlots
  a64 : BankSlots
  a128 : BankSlots
  a256 : BankSlots
  a512 : BankSlots
  ap : BankSlots
  r128 : BankSlots
  r256 : BankSlots
  r512 : BankSlots
  r1024 : BankSlots
  r2048 : BankSlots
  r4096 : BankSlots
  r8192 : BankSlots
  s : BankSlots
  deriving DecidableEq, Repr

/-- The values of `cm0` (R33): no numeric code exists. -/
inductive CmFlag where
  | less
  | equal
  | greater
  deriving DecidableEq, Repr

/-- An entry of the call stack: on return, continue in `lib` at `off`; `lib = none` names the anonymous launch buffer
(R35). -/
structure StackEntry where
  lib : Option LibId
  off : Offset
  deriving DecidableEq, Repr

/-- The engine state `run` (R40, R41). -/
inductive Run where
  | running
  /-- `Halted(success)` (true, by `succ`) or `Halted(failure)` (false, by `fail`) -/
  | halted (success : Bool)
  | faulted (e : EngineError)
  | aborted (v : Violation)
  deriving DecidableEq, Repr

/-- The fault record `flt` (R42). -/
structure FaultRecord where
  err : EngineError
  lib : Option LibId
  pc : Offset
  pos : Offset
  deriving DecidableEq, Repr

/-- Everything the spec gives the machine, and the launch parameters that are data. -/
structure State where
  /-- the 512 slots (R20) -/
  regs : Registers
  /-- the status flag (R32) -/
  st0 : Bool
  /-- the ordering flag (R33) -/
  cm0 : CmFlag
  /-- the jump counter (R34) -/
  cy0 : BitVec 16
  /-- the live entries of the call stack, top first: `cs0[cp0 - 1]` is the head (R35, R36; assumption 4) -/
  cs0 : List StackEntry
  /-- the library-depth counter (R37) -/
  libdepth : BitVec 16
  /-- the current library (R38) -/
  curlib : Option LibId
  /-- the cursor's byte offset, the program counter (R30, R31) -/
  pos : Offset
  /-- the cursor's bit offset (R31) -/
  bit : BitVec 3
  /-- the end-of-buffer sentinel (R31, R47) -/
  eof : Bool
  /-- `pc` of R30: the offset of the opcode byte of the instruction being executed (assumption 3) -/
  ipc : Offset
  /-- the engine state (R40) -/
  run : Run
  /-- the fault record (R42) -/
  flt : Option FaultRecord
  /-- launch parameter `CODE` (spec/00_scope.md R9; assumption 1) -/
  code : Memory
  /-- launch parameter `LAUNCH_LIB` (R9) -/
  launchLib : Option LibId
  /-- launch parameter `LIBS`: the first entry of an identifier is its buffer (R9; assumption 1) -/
  libs : List (LibId × Memory)
  /-- the domain and lengths of the launch parameter `DIGEST` (R9; spec/45_digest.md R250) -/
  digest : DigestTable
  deriving DecidableEq, Repr

/-- Why a step has no next state although the machine is not at fault in the spec's sense (a spec fault is the next
state `Faulted`). -/
inductive Fault where
  /-- raised by `step` alone: the machine is `Halted`, `Faulted` or `Aborted`, and "no step is defined" from there
  (R40; spec/48_execution_engine.md R285). Safe: the machine has nothing left to do (assumption 6). -/
  | terminated (r : Run)
  deriving DecidableEq, Repr

/-- What the model refuses. -/
inductive Refusal where
  /-- an instruction without a meaning: none in this model. Safe. -/
  | notModelled (mnemonic : String)
  /-- raised by `step`: `curlib` names a library that has no buffer, so there is nothing to read. No run reaches such
  a state (spec/48_execution_engine.md R283). Safe (assumption 5). -/
  | noCurrentBuffer
  /-- raised by `launch`: a launch whose parameters break a condition "is refused: no machine is created"
  (spec/70_reset_and_hazards.md R323). Safe (assumption 14). -/
  | launchRefused
  deriving DecidableEq, Repr

/-- What a meaning answers. -/
abbrev Result := Host.Outcome State Fault Refusal

/-- A bank with every slot unset. -/
def BankSlots.unset : BankSlots := Vector.replicate 32 none

/-- Every slot of every bank unset (R45). -/
def Registers.unset : Registers where
  a8 := .unset
  a16 := .unset
  a32 := .unset
  a64 := .unset
  a128 := .unset
  a256 := .unset
  a512 := .unset
  ap := .unset
  r128 := .unset
  r256 := .unset
  r512 := .unset
  r1024 := .unset
  r2048 := .unset
  r4096 := .unset
  r8192 := .unset
  s := .unset

/-- The state after reset (R45), over launch parameters that name no program: `CODE` empty, `LAUNCH_LIB` `None` (the
spec's default), `LIBS` empty, `DIGEST` undefined everywhere (assumption 1). -/
def State.reset : State where
  regs := .unset
  st0 := true
  cm0 := .equal
  cy0 := 0
  cs0 := []
  libdepth := 0
  curlib := none
  pos := 0
  bit := 0
  eof := false
  ipc := 0
  run := .running
  flt := none
  code := .empty
  launchLib := none
  libs := []
  digest := Vector.replicate 32 none

end Sys2Proof.Machine
end

