-- ==== Sys2Proof/Machine/Ops.lean ====
section
/-! DEFINITION. The named operations over State: slots, buffers and the cursor; entering `Faulted`, `Aborted` and
`Halted`; the operation failure; control transfers and the call stack. There is no return from a fault
(spec/60_exceptions.md R301). -/

namespace Sys2Proof.Machine

/-! ### Slots (spec/10_state.md R20 to R27) -/

/-- The slots of a bank. -/
def Registers.bank (r : Registers) : Bank → BankSlots
  | .a8 => r.a8 | .a16 => r.a16 | .a32 => r.a32 | .a64 => r.a64 | .a128 => r.a128 | .a256 => r.a256 | .a512 => r.a512
  | .ap => r.ap
  | .r128 => r.r128 | .r256 => r.r256 | .r512 => r.r512 | .r1024 => r.r1024 | .r2048 => r.r2048 | .r4096 => r.r4096
  | .r8192 => r.r8192
  | .s => r.s

/-- The registers with one bank replaced. -/
def Registers.setBank (r : Registers) (b : Bank) (v : BankSlots) : Registers :=
  match b with
  | .a8 => { r with a8 := v }
  | .a16 => { r with a16 := v }
  | .a32 => { r with a32 := v }
  | .a64 => { r with a64 := v }
  | .a128 => { r with a128 := v }
  | .a256 => { r with a256 := v }
  | .a512 => { r with a512 := v }
  | .ap => { r with ap := v }
  | .r128 => { r with r128 := v }
  | .r256 => { r with r256 := v }
  | .r512 => { r with r512 := v }
  | .r1024 => { r with r1024 := v }
  | .r2048 => { r with r2048 := v }
  | .r4096 => { r with r4096 := v }
  | .r8192 => { r with r8192 := v }
  | .s => { r with s := v }

/-- `bank[i + 1]` (R12). -/
def State.slot (s : State) (b : Bank) (i : Fin 32) : Slot := (s.regs.bank b)[i]

/-- `bank[i + 1] <- v` (R12). -/
def State.setSlot (s : State) (b : Bank) (i : Fin 32) (v : Slot) : State :=
  { s with regs := s.regs.setBank b ((s.regs.bank b).set i.val v i.isLt) }

/-- Slot access by slot number, for a user with a wider index type than the decoder's: a number outside 1..32 aborts
(R27; spec/60_exceptions.md R297). -/
def State.slotNumber (s : State) (b : Bank) (n : Nat) : Except Violation Slot :=
  if h : 1 ≤ n ∧ n ≤ 32 then .ok (s.slot b ⟨n - 1, by omega⟩)
  else .error .indexOutOfRange

/-! ### Code buffers and the cursor -/

/-- The buffer the resolver gives an identifier: `LIBS(h)`. -/
def lookupLib (h : LibId) : List (LibId × Memory) → Option Memory
  | [] => none
  | e :: rest => if e.1 = h then some e.2 else lookupLib h rest

/-- `Buffer(l)` (spec/40_control_flow.md R141). -/
def State.buffer (s : State) (l : Option LibId) : Option Memory :=
  if l = s.launchLib then some s.code
  else match l with
    | some h => lookupLib h s.libs
    | none => none

/-- Byte `a` of the buffer of library `l`, `none` where there is no such byte. -/
def State.readByte (s : State) (l : Option LibId) (a : Nat) : Option Byte := (s.buffer l).bind fun m => m.byte? a

/-- The engine's cursor over the buffer `m` (spec/10_state.md R31). -/
def State.cursorOn (s : State) (m : Memory) : Cursor := ⟨m, s.pos, s.bit, s.eof⟩

/-- The state with the cursor's position taken over; the buffer is no part of it, the engine only reads
(spec/20_memory.md R62). -/
def State.withCursor (s : State) (c : Cursor) : State := { s with pos := c.pos, bit := c.bit, eof := c.eof }

/-- `cp0`: the number of live entries of `cs0` (R36). -/
def State.cp0 (s : State) : Nat := s.cs0.length

/-- `cs0[k]` for a live entry `k < cp0`, entry `cp0 - 1` being the top (R35). -/
def State.cs0At (s : State) (k : Nat) : Option StackEntry := s.cs0.reverse[k]?

/-! ### Faults, aborts, halts and operation failures -/

/-- `raise e`, the whole of trap entry (spec/60_exceptions.md R293): the record is written, the engine is `Faulted`,
nothing else changes. -/
def State.raise (s : State) (e : EngineError) : State :=
  { s with flt := some ⟨e, s.curlib, s.ipc, s.pos⟩, run := .faulted e }

/-- `abort v` (R297): the engine is `Aborted`, nothing else changes. -/
def State.abort (s : State) (v : Violation) : State := { s with run := .aborted v }

/-- What a cursor stop does to the engine (spec/00_scope.md R13). -/
def State.stopWith (s : State) : Stop → State
  | .fail e => s.raise e
  | .abort v => s.abort v

/-- `halt(success)` and `halt(failure)`, which also write `st0` (spec/40_control_flow.md R142, R143). -/
def State.halt (s : State) (success : Bool) : State := { s with st0 := success, run := .halted success }

/-- `OperandFail()` (spec/60_exceptions.md R296). -/
def State.operandFail (s : State) : State := { s with st0 := false }

/-- An instruction that raises. -/
def raised (e : EngineError) (s : State) : Result := .next (s.raise e)

/-- An instruction that ends by `OperandFail()`. -/
def operandFailed (s : State) : Result := .next s.operandFail

/-! ### Control transfers (spec/40_control_flow.md R141) -/

/-- `CountCheck()`. -/
def State.countCheck (s : State) : Option EngineError :=
  if s.cy0.toNat = Config.cyMax then some .counterExhausted else none

/-- `StackCheck()`. -/
def State.stackCheck (s : State) : Option EngineError :=
  if Config.stackCap ≤ s.cp0 then some .callStackOverflow else none

/-- The check inside `Goto(l, o)`: a seek fails under `eof`, another library must have a buffer. -/
def State.gotoCheck (s : State) (l : Option LibId) : Option EngineError :=
  if l = s.curlib then (if s.eof then some .endOfBuffer else none)
  else if (s.buffer l).isNone then some (.libraryUnresolved l) else none

/-- `Goto(l, o)` once its check has passed: a seek in the current library, a fresh cursor on another one. -/
def State.goto (s : State) (l : Option LibId) (o : Offset) : State :=
  { s with curlib := l, pos := o, bit := 0, eof := if l = s.curlib then s.eof else false }

/-- `cy0 <- cy0 + 1`. -/
def State.countTransfer (s : State) : State := { s with cy0 := s.cy0 + 1 }

/-- `cs0[cp0] <- (curlib, npc) ; cp0 <- cp0 + 1` (R146). -/
def State.pushReturn (s : State) : State := { s with cs0 := ⟨s.curlib, s.pos⟩ :: s.cs0 }

/-- Makes an instruction's checks, in order, before any of its writes (R141; spec/60_exceptions.md R294). -/
def afterChecks (checks : List (Option EngineError)) (s s' : State) : Result :=
  match checks with
  | [] => .next s'
  | some e :: _ => raised e s
  | none :: rest => afterChecks rest s s'

end Sys2Proof.Machine
end

