-- ==== Sys2Proof/Machine/Value.lean ====
section
/-! DEFINITION. Byte strings as integers (spec/00_scope.md R11): `U`, `S`, `LE_n`, `bitlen`, `popcount`. -/

namespace Sys2Proof.Machine

/-- `U(x)`: the unsigned reading, the byte at the lowest offset least significant. -/
def uval : Bytes → Nat
  | [] => 0
  | b :: rest => b.toNat + 256 * uval rest

/-- `S(x)`: the two's-complement reading at the length of `x`. -/
def sval (x : Bytes) : Int := if topBit x then (uval x : Int) - 256 ^ x.length else uval x

/-- The `n`-byte little-endian form of a natural number, modulo `256^n`. -/
def leNat : Nat → Nat → Bytes
  | 0, _ => []
  | n + 1, z => BitVec.ofNat 8 z :: leNat n (z / 256)

/-- `LE_n(z)`: the `n`-byte string with `U = z mod 256^n`, for an integer of either sign. -/
def leInt (n : Nat) (z : Int) : Bytes := leNat n (z % 256 ^ n).toNat

/-- `bitlen(z)`: 0 for 0, else the least `k` with `z < 2^k`. -/
def bitlen (z : Nat) : Nat := if z = 0 then 0 else Nat.log2 z + 1

/-- `popcount(z)`: the number of 1 bits in the binary form. -/
def popcount (z : Nat) : Nat := (List.range (bitlen z)).countP fun k => z.testBit k

end Sys2Proof.Machine
end

