-- ==== Sys2Proof/Machine/Operands.lean ====
section
/-! DEFINITION. The operand forms: reading one or two slots with the unset policy (spec/60_exceptions.md R296), the
restricted destination (spec/30_encoding.md R104), `Reshape` and literals (spec/41_register_ops.md R161, R168), the
reading of an arithmetic operand (spec/43_arithmetic.md R201). -/

namespace Sys2Proof.Machine

/-- Reads a slot as an operand: unset ends the instruction by `OperandFail()`. -/
def State.withSlot (s : State) (b : Bank) (i : Fin 32) (k : Bytes → Result) : Result :=
  match s.slot b i with
  | some v => k v
  | none => operandFailed s

/-- Reads two slots as operands: either unset ends the instruction by `OperandFail()`. -/
def State.withSlots (s : State) (b1 : Bank) (i1 : Fin 32) (b2 : Bank) (i2 : Fin 32) (k : Bytes → Bytes → Result) :
    Result :=
  s.withSlot b1 i1 fun v1 => s.withSlot b2 i2 fun v2 => k v1 v2

/-- The slot a 3-bit destination field names: one of the first eight of its bank. -/
def destSlot (d : Fin 8) : Fin 32 := ⟨d.val, by omega⟩

/-- `Reshape(x, m, f)` (R161): `none` when it fails, `m = none` for a variable-length destination. -/
def reshape (x : Bytes) (m : Option Nat) (f : Bool) : Option Bytes :=
  match m with
  | none => some x
  | some m =>
    if x.length ≤ m then some (extend x m f)
    else if f || (x.drop m).all (· == 0) then some (x.take m)
    else none

/-- The value a `put*` literal writes (R168): zero-extended to a fixed width, as it is for `ap` and `s`. -/
def literalValue (m : Option Nat) (lit : Bytes) : Bytes :=
  match m with
  | some n => extend lit n false
  | none => lit

/-- The zero value of a bank: all bytes 0 for a fixed width, the empty string for `ap` and `s` (R164 to R166). -/
def zeroValue (b : Bank) : Bytes :=
  match b.bytes with
  | some n => List.replicate n 0
  | none => []

/-- `Int(v, sg)` (R201). -/
def intOf (v : Bytes) (sg : Bool) : Int := if sg then sval v else uval v

end Sys2Proof.Machine
end

