-- ==== Sys2Proof/Machine/Arithmetic.lean ====
section
/-! DEFINITION. Arithmetic: `add sub mul div neg mod abs` (spec/43_arithmetic.md R200 to R214). Operands are read as
exact integers, the result is computed exactly, and is narrowed once at the end. -/

namespace Sys2Proof.Machine

/-- The range of a fixed-width result of `n` bytes (R204). -/
def inRange (n : Nat) (sg : Bool) (z : Int) : Bool :=
  if sg then decide (-(2 ^ (8 * n - 1) : Int) ≤ z ∧ z ≤ 2 ^ (8 * n - 1) - 1)
  else decide (0 ≤ z ∧ z ≤ (2 ^ (8 * n) : Int) - 1)

/-- `PutFixed(z, kind, sg)` for `n` bytes (R204): `none` is the overflow of checked mode. -/
def putFixed (z : Int) (m : Mode) (n : Nat) : Option Bytes :=
  if m.kind = .checked ∧ inRange n m.sg z = false then none else some (leInt n z)

/-- The least length that holds `z` under the signedness (R205). -/
def apLength (z : Int) (sg : Bool) : Nat :=
  if z = 0 then 0
  else if sg then bitlen (if 0 ≤ z then z.toNat else (-z - 1).toNat) / 8 + 1
  else (bitlen z.toNat + 7) / 8

/-- `PutAP(z, sg)` (R205): `none` for a negative unsigned result and for one beyond the capacity of a slot. -/
def putAP (z : Int) (sg : Bool) : Option Bytes :=
  if sg = false ∧ z < 0 then none
  else if Config.varMax < apLength z sg then none
  else some (leInt (apLength z sg) z)

/-- `PutFixed` or `PutAP`, by the bank (R206). -/
def putResult (z : Int) (m : Mode) (b : ABank) : Option Bytes :=
  match b.bytes with
  | some n => putFixed z m n
  | none => putAP z m.sg

/-- Writes an exact result to a slot of the bank, or raises `ArithmeticOverflow` (R214 steps 5 and 6). -/
def writeResult (z : Int) (m : Mode) (b : ABank) (i : Fin 32) (s : State) : Result :=
  match putResult z m b with
  | some v => .next (s.setSlot b.toBank i (some v))
  | none => raised .arithmeticOverflow s

/-- The check of R214 step 1, before any register is read: a floating mode raises `UnimplementedStub` (R203). A mode
that does not go with its bank is illegal at decode (R202) and raises `UnknownOpcode` here as well (assumption 9). -/
def withMode (m : Mode) (b : ABank) (s : State) (k : Result) : Result :=
  if m.agrees b = false then raised .unknownOpcode s
  else if m.kind = .float then raised .unimplementedStub s
  else k

/-- `r1 <- r1 op r2` for the operations that cannot divide by zero (R200, R214). -/
def binaryOp (op : Int → Int → Int) (m : Mode) (b : ABank) (i1 i2 : Fin 32) (s : State) : Result :=
  withMode m b s <| s.withSlots b.toBank i1 b.toBank i2 fun v1 v2 =>
    writeResult (op (intOf v1 m.sg) (intOf v2 m.sg)) m b i1 s

/-- `r1 <- r1 op r2` for `div` and `mod`: a divisor that reads as 0 raises `DivisionByZero` (R213, R214 step 3). -/
def divisionOp (op : Int → Int → Int) (m : Mode) (b : ABank) (i1 i2 : Fin 32) (s : State) : Result :=
  withMode m b s <| s.withSlots b.toBank i1 b.toBank i2 fun v1 v2 =>
    if intOf v2 m.sg = 0 then raised .divisionByZero s
    else writeResult (op (intOf v1 m.sg) (intOf v2 m.sg)) m b i1 s

/-- `dst <- op src` for `neg` and `abs`: only the source slot is read (R210, R212). -/
def unaryOp (op : Int → Int) (m : Mode) (b : ABank) (src dst : Fin 32) (s : State) : Result :=
  withMode m b s <| s.withSlot b.toBank src fun v => writeResult (op (intOf v m.sg)) m b dst s

/-- `add` (R206). -/
def execAdd (m : Mode) (b : ABank) (i1 i2 : Fin 32) (s : State) : Result := binaryOp (· + ·) m b i1 i2 s

/-- `sub` (R207). -/
def execSub (m : Mode) (b : ABank) (i1 i2 : Fin 32) (s : State) : Result := binaryOp (· - ·) m b i1 i2 s

/-- `mul` (R208). -/
def execMul (m : Mode) (b : ABank) (i1 i2 : Fin 32) (s : State) : Result := binaryOp (· * ·) m b i1 i2 s

/-- `div` (R209): the quotient rounded toward zero (R213). -/
def execDiv (m : Mode) (b : ABank) (i1 i2 : Fin 32) (s : State) : Result := divisionOp Int.tdiv m b i1 i2 s

/-- `neg` (R210). -/
def execNeg (m : Mode) (b : ABank) (i1 : Fin 32) (s : State) : Result := unaryOp (fun z => -z) m b i1 i1 s

/-- `mod` (R211): the remainder with the sign of the dividend (R213). -/
def execMod (m : Mode) (b : ABank) (i1 i2 : Fin 32) (s : State) : Result := divisionOp Int.tmod m b i1 i2 s

/-- `abs` (R212): `i1` the source, `i2` the destination. -/
def execAbs (m : Mode) (b : ABank) (i1 i2 : Fin 32) (s : State) : Result :=
  unaryOp (fun z => (z.natAbs : Int)) m b i1 i2 s

end Sys2Proof.Machine
end

