-- ==== Sys2Proof/Machine/Bitwise.lean ====
section
/-! DEFINITION. Bitwise operations: `and or xor not shl shr scl scr` (spec/44_bitwise.md R230 to R239), on unsigned
`N`-bit integers. -/

namespace Sys2Proof.Machine

/-- The width `N` in bits of a fixed-width bank, for the operation on it. The bank `ap` is illegal at decode (R230) and
raises `UnknownOpcode` here as well (assumption 9). -/
def withWidth (b : ABank) (s : State) (k : Nat → Result) : Result :=
  match b.bytes with
  | some m => k (8 * m)
  | none => raised .unknownOpcode s

/-- Writes an `N`-bit result (R231). -/
def writeBits (n z : Nat) (b : ABank) (i : Fin 32) (s : State) : Result :=
  .next (s.setSlot b.toBank i (some (leNat (n / 8) z)))

/-- Format `FB3`: two source slots, the result in one of the first eight slots (R230, R231). -/
def bitwiseOp (f : Nat → Nat → Nat → Nat) (b : ABank) (i1 i2 : Fin 32) (d : Fin 8) (s : State) : Result :=
  withWidth b s fun n => s.withSlots b.toBank i1 b.toBank i2 fun v1 v2 =>
    writeBits n (f n (uval v1) (uval v2)) b (destSlot d) s

/-- `(x * 2^k) mod 2^n` (R236), without forming `2^k` for an amount of the width or more. -/
def shiftLeft (n x k : Nat) : Nat := if n ≤ k then 0 else x * 2 ^ k % 2 ^ n

/-- `floor(x / 2^k)` for an `n`-bit `x` (R237), likewise. -/
def shiftRight (n x k : Nat) : Nat := if n ≤ k then 0 else x / 2 ^ k

/-- Rotation left by `k mod n` (R238). -/
def rotateLeft (n x k : Nat) : Nat := x * 2 ^ (k % n) % 2 ^ n + x / 2 ^ (n - k % n)

/-- Rotation right by `k mod n` (R239). -/
def rotateRight (n x k : Nat) : Nat :=
  if k % n = 0 then x else x / 2 ^ (k % n) + x % 2 ^ (k % n) * 2 ^ (n - k % n)

/-- `and` (R232). -/
def execAnd (b : ABank) (i1 i2 : Fin 32) (d : Fin 8) (s : State) : Result :=
  bitwiseOp (fun _ x y => x &&& y) b i1 i2 d s

/-- `or` (R233). -/
def execOr (b : ABank) (i1 i2 : Fin 32) (d : Fin 8) (s : State) : Result :=
  bitwiseOp (fun _ x y => x ||| y) b i1 i2 d s

/-- `xor` (R234). -/
def execXor (b : ABank) (i1 i2 : Fin 32) (d : Fin 8) (s : State) : Result :=
  bitwiseOp (fun _ x y => x ^^^ y) b i1 i2 d s

/-- `not` (R235): in place, in any of the 32 slots. -/
def execNot (b : ABank) (i1 : Fin 32) (s : State) : Result :=
  withWidth b s fun n => s.withSlot b.toBank i1 fun v => writeBits n (2 ^ n - 1 - uval v) b i1 s

/-- `shl` (R236). -/
def execShl (b : ABank) (i1 i2 : Fin 32) (d : Fin 8) (s : State) : Result := bitwiseOp shiftLeft b i1 i2 d s

/-- `shr` (R237). -/
def execShr (b : ABank) (i1 i2 : Fin 32) (d : Fin 8) (s : State) : Result := bitwiseOp shiftRight b i1 i2 d s

/-- `scl` (R238). -/
def execScl (b : ABank) (i1 i2 : Fin 32) (d : Fin 8) (s : State) : Result := bitwiseOp rotateLeft b i1 i2 d s

/-- `scr` (R239). -/
def execScr (b : ABank) (i1 i2 : Fin 32) (d : Fin 8) (s : State) : Result := bitwiseOp rotateRight b i1 i2 d s

end Sys2Proof.Machine
end

