-- ==== Sys2Proof/Machine/Flags.lean ====
section
/-! DEFINITION. The two flags an instruction computes: `cm0` by the comparisons (spec/42_comparison.md R181) and `st0`
by the equality instructions (R183). `st0` is otherwise written by `fail`, `succ` and `OperandFail()` only
(spec/10_state.md R32); no other flag exists. -/

namespace Sys2Proof.Machine

/-- The three-way comparison of two values as unsigned integers (R180, R181). -/
def threeWay (v1 v2 : Bytes) : CmFlag :=
  if uval v1 < uval v2 then .less else if uval v1 = uval v2 then .equal else .greater

/-- The equality of two values as unsigned integers (R183). -/
def equalValues (v1 v2 : Bytes) : Bool := uval v1 == uval v2

/-- `cm0 <- v`. -/
def State.setCm0 (s : State) (v : CmFlag) : State := { s with cm0 := v }

/-- `st0 <- v`. -/
def State.setSt0 (s : State) (v : Bool) : State := { s with st0 := v }

end Sys2Proof.Machine
end

