-- ==== Sys2Proof/Machine/Comparison.lean ====
section
/-! DEFINITION. Comparison and measurement: `cmpa cmpr eqa eqr lena lenr cnta cntr` (spec/42_comparison.md R181 to
R188). -/

namespace Sys2Proof.Machine

/-- `cm0` from two slots of a bank (R181). -/
def compareSlots (b : Bank) (i1 i2 : Fin 32) (s : State) : Result :=
  s.withSlots b i1 b i2 fun v1 v2 => .next (s.setCm0 (threeWay v1 v2))

/-- `cmpa` (R181). -/
def execCmpa (b : ABank) (i1 i2 : Fin 32) (s : State) : Result := compareSlots b.toBank i1 i2 s

/-- `cmpr` (R182). -/
def execCmpr (b : RBank) (i1 i2 : Fin 32) (s : State) : Result := compareSlots b.toBank i1 i2 s

/-- `st0` from the equality of two slots of a bank (R183). -/
def equateSlots (b : Bank) (i1 i2 : Fin 32) (s : State) : Result :=
  s.withSlots b i1 b i2 fun v1 v2 => .next (s.setSt0 (equalValues v1 v2))

/-- `eqa` (R183). -/
def execEqa (b : ABank) (i1 i2 : Fin 32) (s : State) : Result := equateSlots b.toBank i1 i2 s

/-- `eqr` (R184). -/
def execEqr (b : RBank) (i1 i2 : Fin 32) (s : State) : Result := equateSlots b.toBank i1 i2 s

/-- A measure of a slot's unsigned value, written to `a32[i2 + 1]` (R185, R187). -/
def measureSlot (f : Nat → Nat) (b : Bank) (i1 i2 : Fin 32) (s : State) : Result :=
  s.withSlot b i1 fun v => .next (s.setSlot .a32 i2 (some (leNat 4 (f (uval v)))))

/-- `lena` (R185). -/
def execLena (b : ABank) (i1 i2 : Fin 32) (s : State) : Result := measureSlot bitlen b.toBank i1 i2 s

/-- `lenr` (R186). -/
def execLenr (b : RBank) (i1 i2 : Fin 32) (s : State) : Result := measureSlot bitlen b.toBank i1 i2 s

/-- `cnta` (R187). -/
def execCnta (b : ABank) (i1 i2 : Fin 32) (s : State) : Result := measureSlot popcount b.toBank i1 i2 s

/-- `cntr` (R188). -/
def execCntr (b : RBank) (i1 i2 : Fin 32) (s : State) : Result := measureSlot popcount b.toBank i1 i2 s

end Sys2Proof.Machine
end

