-- ==== Sys2Proof/Machine/ControlFlow.lean ====
section
/-! DEFINITION. Control flow: `fail succ jmp jif routine call exec ret` (spec/40_control_flow.md R142 to R149). -/

namespace Sys2Proof.Machine

/-- `fail` (R142). -/
def execFail (s : State) : Result := .next (s.halt false)

/-- `succ` (R143). -/
def execSucc (s : State) : Result := .next (s.halt true)

/-- `pc <- off` counted in `cy0`: `jmp` and the taken `jif` (R144, R145). -/
def countedJump (off : Offset) (s : State) : Result :=
  afterChecks [s.countCheck, s.gotoCheck s.curlib] s (s.countTransfer.goto s.curlib off)

/-- `jmp off` (R144). -/
def execJmp (off : Offset) (s : State) : Result := countedJump off s

/-- `jif off` (R145): the `st0` test comes before the counter check. -/
def execJif (off : Offset) (s : State) : Result := if s.st0 then countedJump off s else .next s

/-- `routine off` (R146). -/
def execRoutine (off : Offset) (s : State) : Result :=
  afterChecks [s.countCheck, s.stackCheck, s.gotoCheck s.curlib] s (s.pushReturn.countTransfer.goto s.curlib off)

/-- `libdepth <- libdepth + 1` (R147). -/
def State.deepen (s : State) : State := { s with libdepth := s.libdepth + 1 }

/-- `call lib, off` (R147). -/
def execCall (lib : LibId) (off : Offset) (s : State) : Result :=
  afterChecks [s.countCheck, s.stackCheck, s.gotoCheck (some lib)] s
    (s.pushReturn.countTransfer.deepen.goto (some lib) off)

/-- `exec lib, off` (R148): neither counted nor pushed. -/
def execExec (lib : LibId) (off : Offset) (s : State) : Result :=
  afterChecks [s.gotoCheck (some lib)] s (s.goto (some lib) off)

/-- `ret` (R149): the failing seek is tested before the pop. -/
def execRet (s : State) : Result :=
  match s.cs0 with
  | [] => raised .callStackUnderflow s
  | e :: rest => afterChecks [s.gotoCheck e.lib] s (State.goto { s with cs0 := rest } e.lib e.off)

end Sys2Proof.Machine
end

