-- ==== Sys2Proof/Machine/Digest.lean ====
section
/-! DEFINITION. The digest instruction `dgst` (spec/45_digest.md R250 to R252). -/

namespace Sys2Proof.Machine

/-- `s[i + 1] <- Unset` when the flag asks for it: "cleared after use" (R252). -/
def clearSource (clr : Bool) (i : Fin 32) (s : State) : State := if clr then s.setSlot .s i none else s

/-- `dgst` (R252). A `dgst` that `DIGEST` does not define, or not with the destination's length, is an unknown opcode
at decode (R251) and raises `UnknownOpcode` here as well (assumption 9). -/
def execDgst (alg src : Fin 32) (off : Offset) (b : RBank) (dst : Fin 32) (clr : Bool) (s : State) : Result :=
  if s.digest[alg] = some b then
    s.withSlot .s src fun x =>
      if x.length < off.toNat then operandFailed s
      else .next (clearSource clr src
        (s.setSlot b.toBank dst (some (Config.digest alg b.bytes (x.drop off.toNat)).toList)))
  else raised .unknownOpcode s

end Sys2Proof.Machine
end

