-- ==== Sys2Proof/Machine/Curve.lean ====
section
/-! DEFINITION. What the two elliptic-curve families share: a capability's answer, written to a point register or
turned into an operation failure (spec/46_secp256k1.md R255; spec/47_ed25519.md R265). -/

namespace Sys2Proof.Machine

/-- `r512[d + 1] <- Val(q)`, or `OperandFail()` when the capability refuses. -/
def writePoint (q : Option (Vector Byte 64)) (d : Fin 8) (s : State) : Result :=
  match q with
  | some p => .next (s.setSlot .r512 (destSlot d) (some p.toList))
  | none => operandFailed s

end Sys2Proof.Machine
end

