-- ==== Sys2Proof/Machine/Ed25519.lean ====
section
/-! DEFINITION. Ed25519: `edgen edmul edadd edneg` (spec/47_ed25519.md R266 to R269). -/

namespace Sys2Proof.Machine

/-- `edgen` (R266). -/
def execEdgen (i1 : Fin 32) (d : Fin 8) (s : State) : Result :=
  s.withSlot .r256 i1 fun k => writePoint (Config.edGen k) d s

/-- `edmul` (R267). -/
def execEdmul (i1 i2 : Fin 32) (d : Fin 8) (s : State) : Result :=
  s.withSlots .r256 i1 .r512 i2 fun k p => writePoint (Config.edMul k p) d s

/-- `edadd` (R268). -/
def execEdadd (i1 i2 : Fin 32) (d : Fin 8) (ovf : Bool) (s : State) : Result :=
  s.withSlots .r512 i1 .r512 i2 fun p q => writePoint (Config.edAdd p q ovf) d s

/-- `edneg` (R269). -/
def execEdneg (i1 : Fin 32) (d : Fin 8) (s : State) : Result :=
  s.withSlot .r512 i1 fun p => writePoint (Config.edNeg p) d s

end Sys2Proof.Machine
end

