-- ==== Sys2Proof/Machine/RegisterOps.lean ====
section
/-! DEFINITION. Register manipulation: `swp mov zeroa zeror zeros cleana cleanr cleans puta putr puts`
(spec/41_register_ops.md R162 to R173). -/

namespace Sys2Proof.Machine

/-- `swp` (R162): both values reshaped before either slot is written, both slots written at once. -/
def execSwp (r1 r2 : RegRef) (x1 x2 : Bool) (s : State) : Result :=
  s.withSlots r1.bank r1.idx r2.bank r2.idx fun v1 v2 =>
    match reshape v1 r2.bank.bytes x1, reshape v2 r1.bank.bytes x2 with
    | some y2, some y1 => .next ((s.setSlot r1.bank r1.idx (some y1)).setSlot r2.bank r2.idx (some y2))
    | _, _ => operandFailed s

/-- `mov` (R163): a move clears its source unless source and destination are the same slot. -/
def execMov (src dst : RegRef) (x dup : Bool) (s : State) : Result :=
  s.withSlot src.bank src.idx fun v =>
    match reshape v dst.bank.bytes x with
    | some y =>
      let s' := s.setSlot dst.bank dst.idx (some y)
      .next (if !dup && src != dst then s'.setSlot src.bank src.idx none else s')
    | none => operandFailed s

/-- `bank[i + 1] <- Val(zero)` (R164 to R166). -/
def writeZero (b : Bank) (i : Fin 32) (s : State) : Result := .next (s.setSlot b i (some (zeroValue b)))

/-- `zeroa` (R164). -/
def execZeroa (b : ABank) (i : Fin 32) (s : State) : Result := writeZero b.toBank i s

/-- `zeror` (R165). -/
def execZeror (b : RBank) (i : Fin 32) (s : State) : Result := writeZero b.toBank i s

/-- `zeros` (R166). -/
def execZeros (i : Fin 32) (s : State) : Result := writeZero .s i s

/-- `cleana` (R167). -/
def execCleana (b : ABank) (i : Fin 32) (s : State) : Result := .next (s.setSlot b.toBank i none)

/-- `cleanr` (R169). -/
def execCleanr (b : RBank) (i : Fin 32) (s : State) : Result := .next (s.setSlot b.toBank i none)

/-- `cleans` (R170). -/
def execCleans (i : Fin 32) (s : State) : Result := .next (s.setSlot .s i none)

/-- Writes a `put*` literal (R168). A literal longer than its destination is illegal at decode and never gets here;
it raises `UnknownOpcode` here as well (assumption 9). -/
def writeLiteral (b : Bank) (i : Fin 32) (lit : Bytes) (s : State) : Result :=
  if b.fits (literalValue b.bytes lit) then .next (s.setSlot b i (some (literalValue b.bytes lit)))
  else raised .unknownOpcode s

/-- `puta` (R171). -/
def execPuta (b : ABank) (i : Fin 32) (lit : Bytes) (s : State) : Result := writeLiteral b.toBank i lit s

/-- `putr` (R172). -/
def execPutr (b : RBank) (i : Fin 32) (lit : Bytes) (s : State) : Result := writeLiteral b.toBank i lit s

/-- `puts` (R173). -/
def execPuts (i : Fin 32) (lit : Bytes) (s : State) : Result := writeLiteral .s i lit s

end Sys2Proof.Machine
end

