-- ==== Sys2Proof/Machine/Secp256k1.lean ====
section
/-! DEFINITION. Secp256k1: `secpgen secpmul secpadd secpneg` (spec/46_secp256k1.md R256 to R259). -/

namespace Sys2Proof.Machine

/-- `secpgen` (R256). -/
def execSecpgen (i1 : Fin 32) (d : Fin 8) (s : State) : Result :=
  s.withSlot .r256 i1 fun k => writePoint (Config.secpGen k) d s

/-- `secpmul` (R257). -/
def execSecpmul (i1 i2 : Fin 32) (d : Fin 8) (s : State) : Result :=
  s.withSlots .r256 i1 .r512 i2 fun k p => writePoint (Config.secpMul k p) d s

/-- `secpadd` (R258). -/
def execSecpadd (i1 i2 : Fin 32) (d : Fin 8) (ovf : Bool) (s : State) : Result :=
  s.withSlots .r512 i1 .r512 i2 fun p q => writePoint (Config.secpAdd p q ovf) d s

/-- `secpneg` (R259). -/
def execSecpneg (i1 : Fin 32) (d : Fin 8) (s : State) : Result :=
  s.withSlot .r512 i1 fun p => writePoint (Config.secpNeg p) d s

end Sys2Proof.Machine
end

