-- ==== Sys2Proof/Machine/Dispatch.lean ====
section
/-! DEFINITION. `Execute(ins)`: dispatch by exhaustive matching on the instruction alone (spec/48_execution_engine.md
R277). -/

namespace Sys2Proof.Machine

def exec (i : Instr) (s : State) : Host.Outcome State Fault Refusal :=
  match i with
  | .fail => Sys2Proof.Machine.execFail s
  | .succ => Sys2Proof.Machine.execSucc s
  | .jmp off => Sys2Proof.Machine.execJmp off s
  | .jif off => Sys2Proof.Machine.execJif off s
  | .routine off => Sys2Proof.Machine.execRoutine off s
  | .call lib off => Sys2Proof.Machine.execCall lib off s
  | .exec lib off => Sys2Proof.Machine.execExec lib off s
  | .ret => Sys2Proof.Machine.execRet s
  | .swp r1 r2 x1 x2 => Sys2Proof.Machine.execSwp r1 r2 x1 x2 s
  | .mov src dst x dup => Sys2Proof.Machine.execMov src dst x dup s
  | .zeroa b j => Sys2Proof.Machine.execZeroa b j s
  | .zeror b j => Sys2Proof.Machine.execZeror b j s
  | .zeros j => Sys2Proof.Machine.execZeros j s
  | .cleana b j => Sys2Proof.Machine.execCleana b j s
  | .cleanr b j => Sys2Proof.Machine.execCleanr b j s
  | .cleans j => Sys2Proof.Machine.execCleans j s
  | .puta b j lit => Sys2Proof.Machine.execPuta b j lit s
  | .putr b j lit => Sys2Proof.Machine.execPutr b j lit s
  | .puts j lit => Sys2Proof.Machine.execPuts j lit s
  | .cmpa b i1 i2 => Sys2Proof.Machine.execCmpa b i1 i2 s
  | .cmpr b i1 i2 => Sys2Proof.Machine.execCmpr b i1 i2 s
  | .eqa b i1 i2 => Sys2Proof.Machine.execEqa b i1 i2 s
  | .eqr b i1 i2 => Sys2Proof.Machine.execEqr b i1 i2 s
  | .lena b i1 i2 => Sys2Proof.Machine.execLena b i1 i2 s
  | .lenr b i1 i2 => Sys2Proof.Machine.execLenr b i1 i2 s
  | .cnta b i1 i2 => Sys2Proof.Machine.execCnta b i1 i2 s
  | .cntr b i1 i2 => Sys2Proof.Machine.execCntr b i1 i2 s
  | .add m b i1 i2 => Sys2Proof.Machine.execAdd m b i1 i2 s
  | .sub m b i1 i2 => Sys2Proof.Machine.execSub m b i1 i2 s
  | .mul m b i1 i2 => Sys2Proof.Machine.execMul m b i1 i2 s
  | .div m b i1 i2 => Sys2Proof.Machine.execDiv m b i1 i2 s
  | .neg m b i1 => Sys2Proof.Machine.execNeg m b i1 s
  | .mod m b i1 i2 => Sys2Proof.Machine.execMod m b i1 i2 s
  | .abs m b i1 i2 => Sys2Proof.Machine.execAbs m b i1 i2 s
  | .and b i1 i2 d => Sys2Proof.Machine.execAnd b i1 i2 d s
  | .or b i1 i2 d => Sys2Proof.Machine.execOr b i1 i2 d s
  | .xor b i1 i2 d => Sys2Proof.Machine.execXor b i1 i2 d s
  | .not b i1 => Sys2Proof.Machine.execNot b i1 s
  | .shl b i1 i2 d => Sys2Proof.Machine.execShl b i1 i2 d s
  | .shr b i1 i2 d => Sys2Proof.Machine.execShr b i1 i2 d s
  | .scl b i1 i2 d => Sys2Proof.Machine.execScl b i1 i2 d s
  | .scr b i1 i2 d => Sys2Proof.Machine.execScr b i1 i2 d s
  | .dgst alg src off b dst clr => Sys2Proof.Machine.execDgst alg src off b dst clr s
  | .secpgen i1 d => Sys2Proof.Machine.execSecpgen i1 d s
  | .secpmul i1 i2 d => Sys2Proof.Machine.execSecpmul i1 i2 d s
  | .secpadd i1 i2 d ovf => Sys2Proof.Machine.execSecpadd i1 i2 d ovf s
  | .secpneg i1 d => Sys2Proof.Machine.execSecpneg i1 d s
  | .edgen i1 d => Sys2Proof.Machine.execEdgen i1 d s
  | .edmul i1 i2 d => Sys2Proof.Machine.execEdmul i1 i2 d s
  | .edadd i1 i2 d ovf => Sys2Proof.Machine.execEdadd i1 i2 d ovf s
  | .edneg i1 d => Sys2Proof.Machine.execEdneg i1 d s

end Sys2Proof.Machine
end

