-- ==== Sys2Proof/Decode.lean ====
section
/-! DEFINITION. The decoder (spec/30_encoding.md R100 to R113), built on the cursor's primitives and total on any
bytes, and after it the encoder written from the same tables.

`decode` answers the instruction with the cursor at `npc`, or how it stopped with the cursor where the fault record
wants it: where the failing primitive started, past the opcode byte (stage 2), or at `npc` (stage 4) (R102;
spec/60_exceptions.md R292). -/

namespace Sys2Proof

open Sys2Proof.Machine

/-! ### Operand fields -/

/-- An operand byte. R109 reads it as a sequence of `CurBits` calls whose widths sum to 8, "equivalently, one
`CurU8()` followed by slicing"; this is the second form (assumption 10). -/
def operandByte (c : Cursor) : CurOut Byte := curU8 c

/-- A 5-bit index field starting at bit `lo` (R104). -/
def indexField (b : Byte) (lo : Nat) : Fin 32 := Fin.ofNat 32 (bitField b lo 5)

/-- A 3-bit destination field starting at bit `lo` (R104). -/
def destField (b : Byte) (lo : Nat) : Fin 8 := Fin.ofNat 8 (bitField b lo 3)

/-- A one-bit flag (R108). -/
def flagField (b : Byte) (lo : Nat) : Bool := bitField b lo 1 == 1

/-- The selector `cls` at bit `lo` (R105). -/
def clsField (b : Byte) (lo : Nat) : Bank := Bank.ofCode (bitField b lo 4)

/-- The selector `wa`, always in bits 2:0 (R106, R109). -/
def waField (b : Byte) : ABank := ABank.ofCode (bitField b 0 3)

/-- The selector `wr`, always in bits 2:0 (R107, R109); `none` for the reserved 7. -/
def wrField (b : Byte) : Option RBank := RBank.ofCode (bitField b 0 3)

/-- The mode of a mode byte: `kind` in bits 1:0, `sg` in bit 2 (R109, R119). -/
def modeField (b : Byte) : Mode := ⟨Kind.ofCode (bitField b 0 2), flagField b 2⟩

/-- The reserved bits `7:lo` of an operand byte are zero (R112). -/
def reservedZero (b : Byte) (lo : Nat) : Bool := bitField b lo (8 - lo) == 0

/-! ### Formats and rows -/

/-- A row of the opcode map: its format (R109) and the instruction its fields make. -/
inductive Row where
  | f0 (i : Instr)
  | fj (mk : Offset → Instr)
  | fl (mk : LibId → Offset → Instr)
  | fx (mk : RegRef → RegRef → Bool → Bool → Instr)
  /-- `apLegal` is false where `wa = 7` is illegal (R113 (b)) -/
  | fa (apLegal : Bool) (mk : ABank → Fin 32 → Instr)
  | fr (mk : RBank → Fin 32 → Instr)
  | fs (mk : Fin 32 → Instr)
  | fal (mk : ABank → Fin 32 → Bytes → Instr)
  | frl (mk : RBank → Fin 32 → Bytes → Instr)
  | fsl (mk : Fin 32 → Bytes → Instr)
  | fa2 (mk : ABank → Fin 32 → Fin 32 → Instr)
  | fr2 (mk : RBank → Fin 32 → Fin 32 → Instr)
  | fm2 (mk : Mode → ABank → Fin 32 → Fin 32 → Instr)
  | fm1 (mk : Mode → ABank → Fin 32 → Instr)
  | fb3 (mk : ABank → Fin 32 → Fin 32 → Fin 8 → Instr)
  | fd (alg : Fin 32)
  | fe2 (mk : Fin 32 → Fin 8 → Instr)
  /-- `fe3` without the flag `f1`, which is then reserved (R112) -/
  | fe3 (mk : Fin 32 → Fin 32 → Fin 8 → Instr)
  /-- `fe3` with the flag `f1` -/
  | fe3f (mk : Fin 32 → Fin 32 → Fin 8 → Bool → Instr)

/-- Category 0, control flow (R110). -/
def controlRow : Nat → Option Row
  | 0 => some (.f0 .fail)
  | 1 => some (.f0 .succ)
  | 2 => some (.fj .jmp)
  | 3 => some (.fj .jif)
  | 4 => some (.fj .routine)
  | 5 => some (.fl .call)
  | 6 => some (.fl .exec)
  | 7 => some (.f0 .ret)
  | _ => none

/-- Category 1, register operations (R110). -/
def registerRow : Nat → Option Row
  | 0 => some (.fx .swp)
  | 1 => some (.fx .mov)
  | 2 => some (.fa true .zeroa)
  | 3 => some (.fr .zeror)
  | 4 => some (.fs .zeros)
  | 5 => some (.fa true .cleana)
  | 6 => some (.fr .cleanr)
  | 7 => some (.fs .cleans)
  | 8 => some (.fal .puta)
  | 9 => some (.frl .putr)
  | 10 => some (.fsl .puts)
  | _ => none

/-- Category 2, comparison (R110). -/
def comparisonRow : Nat → Option Row
  | 0 => some (.fa2 .cmpa)
  | 1 => some (.fr2 .cmpr)
  | 2 => some (.fa2 .eqa)
  | 3 => some (.fr2 .eqr)
  | 4 => some (.fa2 .lena)
  | 5 => some (.fr2 .lenr)
  | 6 => some (.fa2 .cnta)
  | 7 => some (.fr2 .cntr)
  | _ => none

/-- Category 3, arithmetic (R110). -/
def arithmeticRow : Nat → Option Row
  | 0 => some (.fm2 .add)
  | 1 => some (.fm2 .sub)
  | 2 => some (.fm2 .mul)
  | 3 => some (.fm2 .div)
  | 4 => some (.fm1 .neg)
  | 5 => some (.fm2 .mod)
  | 6 => some (.fm2 .abs)
  | _ => none

/-- Category 4, bitwise (R110). -/
def bitwiseRow : Nat → Option Row
  | 0 => some (.fb3 .and)
  | 1 => some (.fb3 .or)
  | 2 => some (.fb3 .xor)
  | 3 => some (.fa false .not)
  | 4 => some (.fb3 .shl)
  | 5 => some (.fb3 .shr)
  | 6 => some (.fb3 .scl)
  | 7 => some (.fb3 .scr)
  | _ => none

/-- Category 5, digest: a row for every `alg` on which `DIGEST` is defined (R111; spec/45_digest.md R251). -/
def digestRow (d : DigestTable) (alg : Fin 32) : Option Row :=
  if d[alg].isSome then some (.fd alg) else none

/-- Category 6, Secp256k1 (R110). -/
def secpRow : Nat → Option Row
  | 0 => some (.fe2 .secpgen)
  | 1 => some (.fe3 .secpmul)
  | 2 => some (.fe3f .secpadd)
  | 3 => some (.fe2 .secpneg)
  | _ => none

/-- Category 7, Ed25519 (R110). -/
def edRow : Nat → Option Row
  | 0 => some (.fe2 .edgen)
  | 1 => some (.fe3 .edmul)
  | 2 => some (.fe3f .edadd)
  | 3 => some (.fe2 .edneg)
  | _ => none

/-- The row of an opcode byte: `cat = op[7:5]`, `sub = op[4:0]` (R101, R110). -/
def opcodeRow (d : DigestTable) (op : Byte) : Option Row :=
  let sub := bitField op 0 5
  match bitField op 5 3 with
  | 0 => controlRow sub
  | 1 => registerRow sub
  | 2 => comparisonRow sub
  | 3 => arithmeticRow sub
  | 4 => bitwiseRow sub
  | 5 => digestRow d (Fin.ofNat 32 sub)
  | 6 => secpRow sub
  | _ => edRow sub

/-! ### Decoding -/

/-- Stage 4 of `Decode()`: the instruction when the legality checks hold, `UnknownOpcode` at `npc` when not (R102). -/
def stage4 (legal : Bool) (i : Instr) (c : Cursor) : CurOut Instr :=
  if legal then .ok i c else failAt .unknownOpcode c

/-- Stage 4 for a format with a selector `wr`, of which 7 is illegal (R113 (a)). -/
def stage4R (rb : Option RBank) (legal : RBank → Bool) (mk : RBank → Instr) (c : Cursor) : CurOut Instr :=
  match rb with
  | some b => stage4 (legal b) (mk b) c
  | none => failAt .unknownOpcode c

/-- The literal is no longer than its destination (R113 (d)). -/
def litFits (m : Option Nat) (lit : Bytes) : Bool :=
  match m with
  | some n => decide (lit.length ≤ n)
  | none => true

/-- Reads a row's operand bytes in stream order and applies its legality checks (R102, R109, R112, R113). -/
def readRow (d : DigestTable) : Row → Cursor → CurOut Instr
  | .f0 i, c => .ok i c
  | .fj mk, c => (curU16 c).bind fun off c => .ok (mk off) c
  | .fl mk, c => (curBlock32 c).bind fun lib c => (curU16 c).bind fun off c => .ok (mk lib off) c
  | .fx mk, c =>
    (operandByte c).bind fun b1 c => (operandByte c).bind fun b2 c => (operandByte c).bind fun b3 c =>
      stage4 (reservedZero b2 7 && reservedZero b3 5)
        (mk ⟨clsField b1 0, indexField b2 0⟩ ⟨clsField b1 4, indexField b3 0⟩ (flagField b2 5) (flagField b2 6)) c
  | .fa apLegal mk, c =>
    (operandByte c).bind fun b1 c => stage4 (apLegal || waField b1 != .ap) (mk (waField b1) (indexField b1 3)) c
  | .fr mk, c =>
    (operandByte c).bind fun b1 c => stage4R (wrField b1) (fun _ => true) (fun b => mk b (indexField b1 3)) c
  | .fs mk, c => (operandByte c).bind fun b1 c => stage4 (reservedZero b1 5) (mk (indexField b1 0)) c
  | .fal mk, c =>
    (operandByte c).bind fun b1 c => (curSlice c).bind fun lit c =>
      stage4 (litFits (waField b1).bytes lit) (mk (waField b1) (indexField b1 3) lit) c
  | .frl mk, c =>
    (operandByte c).bind fun b1 c => (curSlice c).bind fun lit c =>
      stage4R (wrField b1) (fun b => litFits (some b.bytes) lit) (fun b => mk b (indexField b1 3) lit) c
  | .fsl mk, c =>
    (operandByte c).bind fun b1 c => (curSlice c).bind fun lit c =>
      stage4 (reservedZero b1 5) (mk (indexField b1 0) lit) c
  | .fa2 mk, c =>
    (operandByte c).bind fun b1 c => (operandByte c).bind fun b2 c =>
      stage4 (reservedZero b2 5) (mk (waField b1) (indexField b1 3) (indexField b2 0)) c
  | .fr2 mk, c =>
    (operandByte c).bind fun b1 c => (operandByte c).bind fun b2 c =>
      stage4R (wrField b1) (fun _ => reservedZero b2 5) (fun b => mk b (indexField b1 3) (indexField b2 0)) c
  | .fm2 mk, c =>
    (operandByte c).bind fun b1 c => (operandByte c).bind fun b2 c => (operandByte c).bind fun b3 c =>
      stage4 (reservedZero b1 3 && reservedZero b3 5 && (modeField b1).agrees (waField b2))
        (mk (modeField b1) (waField b2) (indexField b2 3) (indexField b3 0)) c
  | .fm1 mk, c =>
    (operandByte c).bind fun b1 c => (operandByte c).bind fun b2 c =>
      stage4 (reservedZero b1 3 && (modeField b1).agrees (waField b2))
        (mk (modeField b1) (waField b2) (indexField b2 3)) c
  | .fb3 mk, c =>
    (operandByte c).bind fun b1 c => (operandByte c).bind fun b2 c =>
      stage4 (waField b1 != .ap) (mk (waField b1) (indexField b1 3) (indexField b2 0) (destField b2 5)) c
  | .fd alg, c =>
    (operandByte c).bind fun b1 c => (operandByte c).bind fun b2 c => (curU16 c).bind fun off c =>
      stage4R (wrField b2) (fun b => reservedZero b1 6 && d[alg] == some b)
        (fun b => .dgst alg (indexField b1 0) off b (indexField b2 3) (flagField b1 5)) c
  | .fe2 mk, c => (operandByte c).bind fun b1 c => .ok (mk (indexField b1 0) (destField b1 5)) c
  | .fe3 mk, c =>
    (operandByte c).bind fun b1 c => (operandByte c).bind fun b2 c =>
      stage4 (reservedZero b2 5) (mk (indexField b1 0) (indexField b2 0) (destField b1 5)) c
  | .fe3f mk, c =>
    (operandByte c).bind fun b1 c => (operandByte c).bind fun b2 c =>
      stage4 (reservedZero b2 6) (mk (indexField b1 0) (indexField b2 0) (destField b1 5) (flagField b2 5)) c

/-- `Decode()` (R102), under the launch parameter `DIGEST`. -/
def decode (d : DigestTable) (c : Cursor) : CurOut Instr :=
  (curU8 c).bind fun op c =>
    match opcodeRow d op with
    | some row => readRow d row c
    | none => failAt .unknownOpcode c

/-! ### Encoding -/

/-- A byte from the number its fields make. -/
def byteOf (n : Nat) : Byte := BitVec.ofNat 8 n

/-- The opcode byte of category `cat` and sub-opcode `sub` (R101). -/
def opByte (cat sub : Nat) : Byte := byteOf (cat * 32 + sub)

def bitOf (f : Bool) : Nat := if f then 1 else 0

/-- Formats `FJ`, `FL`: `off16`, the low byte first (R108). -/
def encOff (off : Offset) : Bytes := bytes16 off

/-- Format `FX` (R109). -/
def encFX (op : Byte) (r1 r2 : RegRef) (f1 f2 : Bool) : Bytes :=
  [op, byteOf (r1.bank.code + 16 * r2.bank.code), byteOf (r1.idx.val + 32 * bitOf f1 + 64 * bitOf f2),
    byteOf r2.idx.val]

/-- A selector in bits 2:0 and an index in bits 7:3. -/
def selIdx (code : Nat) (i : Fin 32) : Byte := byteOf (code + 8 * i.val)

/-- An index in bits 4:0 and a destination in bits 7:5. -/
def idxDest (i : Fin 32) (d : Fin 8) : Byte := byteOf (i.val + 32 * d.val)

/-- An index alone in bits 4:0. -/
def idxByte (i : Fin 32) : Byte := byteOf i.val

/-- A mode byte: `kind` in bits 1:0, `sg` in bit 2. -/
def modeByte (m : Mode) : Byte := byteOf (m.kind.code + 4 * bitOf m.sg)

/-- A literal: a 16-bit length and the bytes (R108). -/
def encLit (lit : Bytes) : Bytes := bytes16 (BitVec.ofNat 16 lit.length) ++ lit

/-- Format `FM2`. -/
def encFM2 (op : Byte) (m : Mode) (b : ABank) (i1 i2 : Fin 32) : Bytes :=
  [op, modeByte m, selIdx b.code i1, idxByte i2]

/-- Format `FB3`. -/
def encFB3 (op : Byte) (b : ABank) (i1 i2 : Fin 32) (d : Fin 8) : Bytes := [op, selIdx b.code i1, idxDest i2 d]

/-- Format `FE3`. -/
def encFE3 (op : Byte) (i1 i2 : Fin 32) (d : Fin 8) (f1 : Bool) : Bytes :=
  [op, idxDest i1 d, byteOf (i2.val + 32 * bitOf f1)]

/-- The bytes of an instruction (R109, R110). -/
def encode : Instr → Bytes
  | .fail => [opByte 0 0]
  | .succ => [opByte 0 1]
  | .jmp off => opByte 0 2 :: encOff off
  | .jif off => opByte 0 3 :: encOff off
  | .routine off => opByte 0 4 :: encOff off
  | .call lib off => opByte 0 5 :: (lib.bytes ++ encOff off)
  | .exec lib off => opByte 0 6 :: (lib.bytes ++ encOff off)
  | .ret => [opByte 0 7]
  | .swp r1 r2 x1 x2 => encFX (opByte 1 0) r1 r2 x1 x2
  | .mov src dst x dup => encFX (opByte 1 1) src dst x dup
  | .zeroa b i => [opByte 1 2, selIdx b.code i]
  | .zeror b i => [opByte 1 3, selIdx b.code i]
  | .zeros i => [opByte 1 4, idxByte i]
  | .cleana b i => [opByte 1 5, selIdx b.code i]
  | .cleanr b i => [opByte 1 6, selIdx b.code i]
  | .cleans i => [opByte 1 7, idxByte i]
  | .puta b i lit => opByte 1 8 :: selIdx b.code i :: encLit lit
  | .putr b i lit => opByte 1 9 :: selIdx b.code i :: encLit lit
  | .puts i lit => opByte 1 10 :: idxByte i :: encLit lit
  | .cmpa b i1 i2 => [opByte 2 0, selIdx b.code i1, idxByte i2]
  | .cmpr b i1 i2 => [opByte 2 1, selIdx b.code i1, idxByte i2]
  | .eqa b i1 i2 => [opByte 2 2, selIdx b.code i1, idxByte i2]
  | .eqr b i1 i2 => [opByte 2 3, selIdx b.code i1, idxByte i2]
  | .lena b i1 i2 => [opByte 2 4, selIdx b.code i1, idxByte i2]
  | .lenr b i1 i2 => [opByte 2 5, selIdx b.code i1, idxByte i2]
  | .cnta b i1 i2 => [opByte 2 6, selIdx b.code i1, idxByte i2]
  | .cntr b i1 i2 => [opByte 2 7, selIdx b.code i1, idxByte i2]
  | .add m b i1 i2 => encFM2 (opByte 3 0) m b i1 i2
  | .sub m b i1 i2 => encFM2 (opByte 3 1) m b i1 i2
  | .mul m b i1 i2 => encFM2 (opByte 3 2) m b i1 i2
  | .div m b i1 i2 => encFM2 (opByte 3 3) m b i1 i2
  | .neg m b i1 => [opByte 3 4, modeByte m, selIdx b.code i1]
  | .mod m b i1 i2 => encFM2 (opByte 3 5) m b i1 i2
  | .abs m b i1 i2 => encFM2 (opByte 3 6) m b i1 i2
  | .and b i1 i2 d => encFB3 (opByte 4 0) b i1 i2 d
  | .or b i1 i2 d => encFB3 (opByte 4 1) b i1 i2 d
  | .xor b i1 i2 d => encFB3 (opByte 4 2) b i1 i2 d
  | .not b i1 => [opByte 4 3, selIdx b.code i1]
  | .shl b i1 i2 d => encFB3 (opByte 4 4) b i1 i2 d
  | .shr b i1 i2 d => encFB3 (opByte 4 5) b i1 i2 d
  | .scl b i1 i2 d => encFB3 (opByte 4 6) b i1 i2 d
  | .scr b i1 i2 d => encFB3 (opByte 4 7) b i1 i2 d
  | .dgst alg src off b dst clr =>
    opByte 5 alg.val :: byteOf (src.val + 32 * bitOf clr) :: selIdx b.code dst :: encOff off
  | .secpgen i1 d => [opByte 6 0, idxDest i1 d]
  | .secpmul i1 i2 d => encFE3 (opByte 6 1) i1 i2 d false
  | .secpadd i1 i2 d ovf => encFE3 (opByte 6 2) i1 i2 d ovf
  | .secpneg i1 d => [opByte 6 3, idxDest i1 d]
  | .edgen i1 d => [opByte 7 0, idxDest i1 d]
  | .edmul i1 i2 d => encFE3 (opByte 7 1) i1 i2 d false
  | .edadd i1 i2 d ovf => encFE3 (opByte 7 2) i1 i2 d ovf
  | .edneg i1 d => [opByte 7 3, idxDest i1 d]

/-! ### Words of the opcode table -/

/-- The low `8 * n` bits of `w` as `n` bytes, bit 0 of `w` being bit 0 of the byte at the lowest offset. -/
def wordBytes (n w : Nat) : Bytes := (List.range n).map fun k => byteOf (w / 256 ^ k)

/-- The `DIGEST` under which the word `w` can be a `dgst`: defined on the word's own `alg`, with the length of the bank
its `wr` names (assumption 16). For a word that is no `dgst` it plays no part. -/
def wordDigest (d : DigestTable) (w : Nat) : DigestTable :=
  if w / 32 % 8 = 5 then
    match RBank.ofCode (w / 65536 % 8) with
    | some b => d.set (w % 32) (some b) (Nat.mod_lt _ (by decide))
    | none => d
  else d

/-- No digest defined. -/
def noDigest : DigestTable := Vector.replicate 32 none

/-- A full buffer of zero bytes but for the word's bytes at offset 0. -/
def wordBuffer (nbits w : Nat) : Memory :=
  (Memory.zeros Config.codeMax).putBytes 0 (wordBytes ((nbits + 7) / 8) (w % 2 ^ nbits))

/-- The instruction the decoder reads from an instruction whose bits are `w`: bit 0 is bit 0 of the opcode byte, a
later byte's bits count on from it, and every bit from `nbits` up is 0. -/
def decodeTableWord (nbits w : Nat) : Option Instr :=
  match decode (wordDigest noDigest (w % 2 ^ nbits)) ⟨wordBuffer nbits w, 0, 0, false⟩ with
  | .ok i _ => some i
  | .stop _ _ => none

end Sys2Proof
end

