-- ==== Sys2Proof/Machine/Fetch.lean ====
section
/-! DEFINITION. The fetch half of `Step()` (spec/48_execution_engine.md R276), and placing an instruction where the
next fetch reads it. -/

namespace Sys2Proof.Machine

/-- What a fetch comes to: the instruction with the state whose cursor is at `npc`, the terminal state a stopped
decode enters, or no buffer to read (assumption 5). -/
inductive Fetched where
  | instr (i : Instr) (s : State)
  | ended (s : State)
  | noBuffer
  deriving DecidableEq, Repr

/-- The state after `Decode()` moved the cursor to `c`: `pc` is where the fetch began (spec/30_encoding.md R102). -/
def State.fetched (s : State) (c : Cursor) : State := { s.withCursor c with ipc := s.pos }

/-- `Decode()` at the engine's cursor; a failure raises and an abort aborts with the cursor where it stands (R276). -/
def fetch (s : State) : Fetched :=
  match s.buffer s.curlib with
  | none => .noBuffer
  | some m =>
    match decode s.digest (s.cursorOn m) with
    | .ok i c => .instr i (s.fetched c)
    | .stop why c => .ended ((s.fetched c).stopWith why)

/-- The buffer with everything from offset `a` on replaced: `n` bytes of the word `w`, then zero bytes up to
`CODE_MAX`. -/
def overlayWord (m : Memory) (a n w : Nat) : Memory :=
  Memory.putBytes ⟨Config.codeMax, m.cells.filter fun x => x.1 < a⟩ a (wordBytes n w)

/-- The resolver with the buffer of one identifier replaced. -/
def replaceLib (h : LibId) (m : Memory) : List (LibId × Memory) → List (LibId × Memory)
  | [] => []
  | e :: rest => if e.1 = h then (h, m) :: rest else e :: replaceLib h m rest

/-- Replaces the buffer the engine is reading. -/
def State.setBuffer (s : State) (m : Memory) : State :=
  if s.curlib = s.launchLib then { s with code := m }
  else match s.curlib with
    | some h => { s with libs := replaceLib h m s.libs }
    | none => s

/-- The low `nbits` bits of `w` at the cursor of a running engine, zero bytes after them, under a `DIGEST` for which a
`dgst` word is legal (assumption 16). -/
def State.placeWord (s : State) (nbits w : Nat) : State :=
  { s.setBuffer (overlayWord ((s.buffer s.curlib).getD .empty) s.pos.toNat ((nbits + 7) / 8) (w % 2 ^ nbits)) with
    bit := 0, eof := false, run := .running, digest := wordDigest s.digest (w % 2 ^ nbits) }

end Sys2Proof.Machine
end

