-- ==== Sys2Proof/Machine/Step.lean ====
section
/-! DEFINITION. `Step()` (spec/48_execution_engine.md R276), defined on `Running` states only (R275). -/

namespace Sys2Proof.Machine

/-- One instruction, decoded and applied to completion. -/
def step (s : State) : Host.Outcome State Fault Refusal :=
  match s.run with
  | .running =>
    match fetch s with
    | .instr i s' => exec i s'
    | .ended s' => .next s'
    | .noBuffer => .refused .noCurrentBuffer
  | .halted b => .fault (.terminated (.halted b))
  | .faulted e => .fault (.terminated (.faulted e))
  | .aborted v => .fault (.terminated (.aborted v))

/-- `s` with the instruction whose bits are `w` where the next step fetches (assumption 16). It stands for the launch
of a program that begins so (assumption 1). -/
def State.withFetchWord (s : State) (nbits w : Nat) : State := s.placeWord nbits w

end Sys2Proof.Machine
end

