-- ==== Sys2Proof/Machine/Run.lean ====
section
/-! DEFINITION. What the host can do: launch, run with a step budget, read the report (spec/70_reset_and_hazards.md
R323; spec/48_execution_engine.md R280; spec/60_exceptions.md R298). -/

namespace Sys2Proof.Machine

/-- The launch parameters that are data (spec/00_scope.md R9); the capabilities are constants of `Config`. -/
structure LaunchParams where
  code : Memory
  launchLib : Option LibId
  libs : List (LibId × Memory)
  digest : DigestTable
  deriving DecidableEq, Repr

/-- The conditions of R323: no buffer longer than 65536 bytes (and in canonical form), `LIBS` a function. -/
def LaunchParams.ok (p : LaunchParams) : Bool :=
  decide (p.code.wf ∧ (∀ e ∈ p.libs, e.2.wf) ∧ (p.libs.map Prod.fst).Nodup)

/-- `Launch(...)` (R320, R323): the reset state over the parameters, refused when they break a condition. -/
def launch (p : LaunchParams) : Result :=
  if p.ok then
    .next { State.reset with
      code := p.code, launchLib := p.launchLib, libs := p.libs, digest := p.digest, curlib := p.launchLib }
  else .refused .launchRefused

/-- `RunFor(n)`: at most `n` steps, stopping early at a terminal state (R280). -/
def runFor : Nat → State → Result
  | 0, s => .next s
  | n + 1, s =>
    if s.run = .running then
      match step s with
      | .next s' => runFor n s'
      | .fault r => .fault r
      | .refused r => .refused r
    else .next s

/-- The report of R298. -/
structure Report where
  run : Run
  st0 : Bool
  flt : Option FaultRecord
  regs : Registers
  cm0 : CmFlag
  cy0 : BitVec 16
  cp0 : Nat
  cs0 : List StackEntry
  libdepth : BitVec 16
  curlib : Option LibId
  deriving DecidableEq, Repr

/-- What the host reads when a run ends; nothing while the engine is `Running` (R298, R324). -/
def report (s : State) : Option Report :=
  if s.run = .running then none
  else some ⟨s.run, s.st0, s.flt, s.regs, s.cm0, s.cy0, s.cp0, s.cs0, s.libdepth, s.curlib⟩

end Sys2Proof.Machine
end

