-- ==== Sys2Proof/Safety.lean ====
section
/-! DEFINITION. The terms the statements use: what an instruction leaves unchanged, the invariant of a run
(spec/48_execution_engine.md R283), and the classes of instructions the whole-machine rules speak of. -/

namespace Sys2Proof.Machine

/-! ### Frames -/

/-- Every slot but the listed ones reads as before. -/
def SlotsKeptBut (w : List (Bank × Fin 32)) (s t : State) : Prop :=
  ∀ b i, (b, i) ∉ w → t.slot b i = s.slot b i

/-- `st0` and `cm0` are unchanged. -/
def FlagsKept (s t : State) : Prop := t.st0 = s.st0 ∧ t.cm0 = s.cm0

/-- `cy0`, the call stack, `libdepth` and `curlib` are unchanged. -/
def ControlKept (s t : State) : Prop :=
  t.cy0 = s.cy0 ∧ t.cs0 = s.cs0 ∧ t.libdepth = s.libdepth ∧ t.curlib = s.curlib

/-- The cursor stands where it stood (at `npc`, for the state an instruction executes in). -/
def CursorKept (s t : State) : Prop := t.pos = s.pos ∧ t.bit = s.bit ∧ t.eof = s.eof ∧ t.ipc = s.ipc

/-- The engine state and the fault record are unchanged. -/
def EngineKept (s t : State) : Prop := t.run = s.run ∧ t.flt = s.flt

/-- Every byte of every code buffer, and every other launch parameter, is unchanged. -/
def MemoryKept (s t : State) : Prop :=
  (∀ l a, t.readByte l a = s.readByte l a) ∧ t.launchLib = s.launchLib ∧ t.digest = s.digest

/-- Nothing but the listed slots changes. -/
def OnlySlots (w : List (Bank × Fin 32)) (s t : State) : Prop :=
  SlotsKeptBut w s t ∧ FlagsKept s t ∧ ControlKept s t ∧ CursorKept s t ∧ EngineKept s t ∧ MemoryKept s t

/-- Nothing but `st0` and `cm0` changes. -/
def OnlyFlags (s t : State) : Prop :=
  SlotsKeptBut [] s t ∧ ControlKept s t ∧ CursorKept s t ∧ EngineKept s t ∧ MemoryKept s t

/-- `t` is `s` ended by `OperandFail()`: `st0` is false and nothing else differs (spec/60_exceptions.md R296). -/
def FailsOperand (s t : State) : Prop := t.st0 = false ∧ t.cm0 = s.cm0 ∧ OnlyFlags s t

/-- `t` is `s` after `raise e`: the record is written, the engine is `Faulted(e)`, nothing else differs
(spec/60_exceptions.md R292, R293). -/
def Raises (e : EngineError) (s t : State) : Prop :=
  t.run = .faulted e ∧ t.flt = some ⟨e, s.curlib, s.ipc, s.pos⟩ ∧
    SlotsKeptBut [] s t ∧ FlagsKept s t ∧ ControlKept s t ∧ CursorKept s t ∧ MemoryKept s t

/-- What an instruction does with the answer of a curve capability: a point goes to slot `d + 1` of `r512` and nothing
else changes; a refusal fails the operation (spec/46_secp256k1.md R255; spec/47_ed25519.md R265). -/
def PointOrFailure (q : Option (Vector Byte 64)) (d : Fin 8) (s t : State) : Prop :=
  match q with
  | some p => ∀ j : Fin 32, j.val = d.val → t.slot .r512 j = some p.toList ∧ OnlySlots [(.r512, j)] s t
  | none => FailsOperand s t

/-! ### The invariant of a run -/

/-- `flt` holds the error of a `Faulted` engine and is none otherwise (spec/10_state.md R42). -/
def FaultRecorded (s : State) : Prop :=
  match s.run with
  | .faulted e => ∃ r, s.flt = some r ∧ r.err = e
  | _ => s.flt = none

/-- What holds at every instruction boundary of a run from launch (spec/48_execution_engine.md R283). -/
structure Inv (s : State) : Prop where
  /-- an instruction boundary is a byte boundary (spec/30_encoding.md R100) -/
  aligned : s.bit = 0
  /-- the sentinel is set only with the cursor at offset 65535 (spec/20_memory.md R64) -/
  eofAtEnd : s.eof = true → s.pos.toNat = Config.posMax
  /-- `curlib` names a buffer (R283) -/
  current : (s.buffer s.curlib).isSome = true
  /-- every live stack entry names a buffer (R283) -/
  stacked : ∀ e ∈ s.cs0, (s.buffer e.lib).isSome = true
  /-- `cp0 <= cy0` (spec/10_state.md R36) -/
  depth : s.cp0 ≤ s.cy0.toNat
  /-- `libdepth <= cy0` (R37) -/
  libdepth : s.libdepth.toNat ≤ s.cy0.toNat
  /-- every slot holds a value of its bank or nothing (R21 to R24) -/
  slots : ∀ b i v, s.slot b i = some v → b.fits v = true
  /-- the buffers keep their canonical form -/
  code : s.code.wf
  libs : ∀ e ∈ s.libs, e.2.wf
  /-- the fault record goes with the engine state -/
  fault : FaultRecorded s

/-! ### Classes of instructions -/

/-- The control-flow instructions that transfer control (spec/40_control_flow.md). -/
def isTransfer : Instr → Bool
  | .jmp _ | .jif _ | .routine _ | .call _ _ | .exec _ _ | .ret => true
  | _ => false

/-- The two instructions that end a run. -/
def isHalt : Instr → Bool
  | .fail | .succ => true
  | _ => false

/-- How much an instruction that completes adds to `cy0` (spec/10_state.md R34). -/
def cyTick (s : State) : Instr → Nat
  | .jmp _ | .routine _ | .call _ _ => 1
  | .jif _ => if s.st0 then 1 else 0
  | _ => 0

/-- How many entries it pushes (R36). -/
def pushes : Instr → Nat
  | .routine _ | .call _ _ => 1
  | _ => 0

/-- How many entries it pops (R36). -/
def pops : Instr → Nat
  | .ret => 1
  | _ => 0

/-- How much it adds to `libdepth` (R37). -/
def deepens : Instr → Nat
  | .call _ _ => 1
  | _ => 0

/-- The slots an instruction reads as operands (spec/10_state.md R26 and the instruction rules): one that is unset ends
the instruction by `OperandFail()` (spec/60_exceptions.md R296). -/
def operandSlots : Instr → List (Bank × Fin 32)
  | .swp r1 r2 _ _ => [(r1.bank, r1.idx), (r2.bank, r2.idx)]
  | .mov src _ _ _ => [(src.bank, src.idx)]
  | .cmpa b i1 i2 | .eqa b i1 i2 => [(b.toBank, i1), (b.toBank, i2)]
  | .cmpr b i1 i2 | .eqr b i1 i2 => [(b.toBank, i1), (b.toBank, i2)]
  | .lena b i1 _ | .cnta b i1 _ => [(b.toBank, i1)]
  | .lenr b i1 _ | .cntr b i1 _ => [(b.toBank, i1)]
  | .add _ b i1 i2 | .sub _ b i1 i2 | .mul _ b i1 i2 | .div _ b i1 i2 | .mod _ b i1 i2 => [(b.toBank, i1), (b.toBank, i2)]
  | .neg _ b i1 | .abs _ b i1 _ => [(b.toBank, i1)]
  | .and b i1 i2 _ | .or b i1 i2 _ | .xor b i1 i2 _ => [(b.toBank, i1), (b.toBank, i2)]
  | .shl b i1 i2 _ | .shr b i1 i2 _ | .scl b i1 i2 _ | .scr b i1 i2 _ => [(b.toBank, i1), (b.toBank, i2)]
  | .not b i1 => [(b.toBank, i1)]
  | .dgst _ src _ _ _ _ => [(.s, src)]
  | .secpgen i1 _ | .edgen i1 _ => [(.r256, i1)]
  | .secpmul i1 i2 _ | .edmul i1 i2 _ => [(.r256, i1), (.r512, i2)]
  | .secpadd i1 i2 _ _ | .edadd i1 i2 _ _ => [(.r512, i1), (.r512, i2)]
  | .secpneg i1 _ | .edneg i1 _ => [(.r512, i1)]
  | .fail | .succ | .jmp _ | .jif _ | .routine _ | .call _ _ | .exec _ _ | .ret => []
  | .zeroa _ _ | .zeror _ _ | .zeros _ | .cleana _ _ | .cleanr _ _ | .cleans _ => []
  | .puta _ _ _ | .putr _ _ _ | .puts _ _ => []

/-- The arithmetic mode an instruction carries, if it carries one (R119). -/
def modeOf : Instr → Option Mode
  | .add m _ _ _ | .sub m _ _ _ | .mul m _ _ _ | .div m _ _ _ | .neg m _ _ | .mod m _ _ _ | .abs m _ _ _ => some m
  | _ => none

/-- The budget of spec/48_execution_engine.md R284: what the transfers still possible without `exec`, and the bytes
still ahead of the cursor, allow. -/
def stepsLeft (s : State) : Nat :=
  (2 * (Config.cyMax - s.cy0.toNat) + s.cp0) * 65537 + (Config.codeMax - s.pos.toNat) + (if s.eof then 0 else 1)

/-! ### Reading an operand byte field by field -/

/-- A sequence of `CurBits` calls (spec/30_encoding.md R109). -/
def readFields : List FieldWidth → Cursor → CurOut (List Nat)
  | [], c => .ok [] c
  | fw :: rest, c => (curBits fw c).bind fun v c => (readFields rest c).bind fun vs c => .ok (v :: vs) c

/-- The same fields cut out of one byte, from bit `lo` upward. -/
def sliceFields (b : Byte) : List FieldWidth → Nat → List Nat
  | [], _ => []
  | fw :: rest, lo => bitField b lo fw.w :: sliceFields b rest (lo + fw.w)

/-- The cursor that has read `n` bytes of which the last was read alone when it is byte 65535. -/
def Cursor.past (c : Cursor) (n : Nat) : Cursor :=
  if c.pos.toNat + n = Config.codeMax then { c with pos := BitVec.ofNat 16 Config.posMax, eof := true }
  else { c with pos := c.pos + BitVec.ofNat 16 n }

/-- The decoder reads the instruction's last byte by itself, so that it may be byte 65535 of a buffer: a bit-field byte,
the opcode byte, or a literal's payload of one byte (spec/70_reset_and_hazards.md R327 (a), (b)). -/
def endsOnByte : Instr → Bool
  | .jmp _ | .jif _ | .routine _ | .call _ _ | .exec _ _ | .dgst _ _ _ _ _ _ => false
  | .puta _ _ lit | .putr _ _ lit | .puts _ lit => lit.length == 1
  | .fail | .succ | .ret => true
  | .swp _ _ _ _ | .mov _ _ _ _ => true
  | .zeroa _ _ | .zeror _ _ | .zeros _ | .cleana _ _ | .cleanr _ _ | .cleans _ => true
  | .cmpa _ _ _ | .cmpr _ _ _ | .eqa _ _ _ | .eqr _ _ _ | .lena _ _ _ | .lenr _ _ _ | .cnta _ _ _ | .cntr _ _ _ => true
  | .add _ _ _ _ | .sub _ _ _ _ | .mul _ _ _ _ | .div _ _ _ _ | .neg _ _ _ | .mod _ _ _ _ | .abs _ _ _ _ => true
  | .and _ _ _ _ | .or _ _ _ _ | .xor _ _ _ _ | .not _ _ | .shl _ _ _ _ | .shr _ _ _ _ | .scl _ _ _ _
  | .scr _ _ _ _ => true
  | .secpgen _ _ | .secpmul _ _ _ | .secpadd _ _ _ _ | .secpneg _ _ => true
  | .edgen _ _ | .edmul _ _ _ | .edadd _ _ _ _ | .edneg _ _ => true

end Sys2Proof.Machine
end

