-- ==== Sys2Proof/Certificates/Slice0/Obligations.lean ====
section
/-! DEFINITION. The statements for the provers. Each says in its docstring which rule of spec/ it comes from.

"exec … = .next t" is the state after the instruction, for an instruction whose bytes have been read: the state given
to `exec` has its cursor at `npc` and `pc` in `ipc`. -/

open Sys2Proof Sys2Proof.Machine

/-! ### Encoding -/

/-- Decode and encode agree: the bytes of any legal instruction, anywhere in a buffer where the cursor can carry them,
decode to that instruction and leave the cursor right after them (spec/30_encoding.md sections 1 to 4). They end at
offset 65534 or before, or on byte 65535 if the last byte is read by itself (R327 (b), which the spec derives); the
cursor then stands at the sentinel. -/
def Obligations.DecodeInvertsEncode : Prop :=
  ∀ (d : DigestTable) (c : Cursor) (i : Instr),
    i.wf = true → i.supported d = true → c.bit = 0 → c.eof = false →
    (c.pos.toNat + (encode i).length ≤ Config.posMax ∨
      (endsOnByte i = true ∧ c.pos.toNat + (encode i).length = Config.codeMax)) →
    c.buf.read c.pos.toNat (encode i).length = some (encode i) →
    decode d c = .ok i (c.past (encode i).length)

/-- The encoding is canonical (R112): what decodes to an instruction is exactly that instruction's bytes, so two
different byte strings never decode to the same instruction. -/
def Obligations.DecodedBytesAreTheEncoding : Prop :=
  ∀ (d : DigestTable) (c c' : Cursor) (i : Instr),
    decode d c = .ok i c' → c.buf.read c.pos.toNat (encode i).length = some (encode i)

/-- A decoded instruction has passed every legality check of R113, and the cursor stands after its bytes, with the
sentinel set exactly when byte 65535 was the last of them (R102, R103, spec/20_memory.md R64). -/
def Obligations.DecodedInstructionsAreLegal : Prop :=
  ∀ (d : DigestTable) (c c' : Cursor) (i : Instr),
    decode d c = .ok i c' → i.wf = true ∧ i.supported d = true ∧ c' = c.past (encode i).length

/-- R111: a step that meets an opcode byte without a row raises `UnknownOpcode` at stage 2 with no operand read: only
the opcode byte has been consumed. For `op = 0xA0 + alg` that is every `alg` on which `DIGEST` is undefined. -/
def Obligations.ReservedOpcodesAreUnknown : Prop :=
  ∀ (s : State) (m : Memory) (op : Nat),
    s.run = .running → s.bit = 0 → s.eof = false → s.buffer s.curlib = some m → s.pos.toNat < m.len →
    (m.byte s.pos.toNat).toNat = op →
    ((0x08 ≤ op ∧ op ≤ 0x1F) ∨ (0x2B ≤ op ∧ op ≤ 0x3F) ∨ (0x48 ≤ op ∧ op ≤ 0x5F) ∨ (0x67 ≤ op ∧ op ≤ 0x7F) ∨
      (0x88 ≤ op ∧ op ≤ 0x9F) ∨ (0xC4 ≤ op ∧ op ≤ 0xDF) ∨ (0xE4 ≤ op ∧ op ≤ 0xFF) ∨
      (∃ alg : Fin 32, op = 0xA0 + alg.val ∧ s.digest[alg] = none)) →
    ∃ t, step s = .next t ∧ Raises .unknownOpcode { s.withCursor ((s.cursorOn m).advance 1) with ipc := s.pos } t

/-- How a decode that begins on a byte boundary can stop (spec/60_exceptions.md R290, R291, R297): with one of the
three decode errors, never with an abort, the buffer and the bit offset untouched, and no offset before the opcode
byte. The attempted position of `OutOfBoundaries` is in 65536..131070. -/
def Obligations.DecodeStopsAreDecodeErrors : Prop :=
  ∀ (d : DigestTable) (c c' : Cursor) (why : Stop),
    c.bit = 0 → decode d c = .stop why c' →
    (why = .fail .endOfBuffer ∨ why = .fail .unknownOpcode ∨
      ∃ p, why = .fail (.outOfBoundaries p) ∧ 65536 ≤ p ∧ p ≤ 131070) ∧
      c'.buf = c.buf ∧ c'.bit = 0 ∧ c.pos.toNat ≤ c'.pos.toNat

/-- Words written out from the tables of R109 and R110 decode to the instructions they stand for. -/
def Obligations.KnownWordsDecode : Prop :=
  decodeTableWord 32 0x01200221 = some (.mov ⟨.a32, 0⟩ ⟨.a8, 1⟩ true false) ∧
  decodeTableWord 24 0x010040 = some (.cmpa .a8 0 1) ∧
  decodeTableWord 32 0x03110463 = some (.div ⟨.checked, true⟩ .a16 2 3) ∧
  decodeTableWord 24 0x410080 = some (.and .a8 0 1 2) ∧
  decodeTableWord 24 0x1FFFE1 = some (.edmul 31 31 7) ∧
  decodeTableWord 24 0x001003 = some (.jif 0x0010)

/-- R109: reading an operand byte as a sequence of `CurBits` calls whose widths sum to 8 is one `CurU8()` followed by
slicing: the same value, the same cursor movement, the same failures. -/
def Obligations.OperandBytesAreBitFields : Prop :=
  ∀ (ws : List FieldWidth) (c : Cursor), (ws.map FieldWidth.w).sum = 8 → c.bit = 0 →
    readFields ws c = (curU8 c).bind fun b c' => .ok (sliceFields b ws 0) c'

/-! ### The cursor -/

/-- R74: a cursor primitive that fails or aborts changes none of `pos`, `bit`, `eof`, `BUF`. -/
def Obligations.CursorFailureIsAtomic : Prop :=
  ∀ (c c' : Cursor) (why : Stop) (fw : FieldWidth) (n : Nat) (z : Int) (v : Byte) (u : Offset) (k : Block32) (x : Bytes)
    (b : Bank) (sg : Bool),
    (curBits fw c = .stop why c' ∨ curU8 c = .stop why c' ∨ curU16 c = .stop why c' ∨ curI16 c = .stop why c' ∨
      curBlock32 c = .stop why c' ∨ curSlice c = .stop why c' ∨ curRegValue b c = .stop why c' ∨
      curPutBits fw n c = .stop why c' ∨ curPutU8 v c = .stop why c' ∨ curPutU16 u c = .stop why c' ∨
      curPutI16 z c = .stop why c' ∨ curPutBlock32 k c = .stop why c' ∨ curPutSlice x c = .stop why c' ∨
      curPutRegValue b x sg c = .stop why c' ∨ curSeek u c = .stop why c') →
    c' = c

/-- R64, R65: `CurU8` at offset 65535 reads byte 65535 and sets the sentinel without moving, a two-byte read at 65534
is out of boundaries, and under the sentinel every operation but the inspections fails with `EndOfBuffer`, but that
`CurPutRegValue` of a value longer than its register aborts before it looks at the sentinel (R81). -/
def Obligations.SentinelEndsTheBuffer : Prop :=
  (∀ c : Cursor, c.bit = 0 → c.eof = false → c.pos = 65535 → c.buf.len = 65536 →
    curU8 c = .ok (c.buf.byte 65535) { c with eof := true }) ∧
  (∀ c : Cursor, c.bit = 0 → c.eof = false → c.pos = 65534 → curU16 c = .stop (.fail (.outOfBoundaries 65536)) c) ∧
  (∀ (c : Cursor) (fw : FieldWidth) (n : Nat) (z : Int) (v : Byte) (u : Offset) (k : Block32) (x : Bytes) (b : Bank)
      (sg : Bool), c.eof = true →
    curBits fw c = .stop (.fail .endOfBuffer) c ∧ curU8 c = .stop (.fail .endOfBuffer) c ∧
    curU16 c = .stop (.fail .endOfBuffer) c ∧ curI16 c = .stop (.fail .endOfBuffer) c ∧
    curBlock32 c = .stop (.fail .endOfBuffer) c ∧ curSlice c = .stop (.fail .endOfBuffer) c ∧
    curRegValue b c = .stop (.fail .endOfBuffer) c ∧
    curPutBits fw n c = .stop (.fail .endOfBuffer) c ∧ curPutU8 v c = .stop (.fail .endOfBuffer) c ∧
    curPutU16 u c = .stop (.fail .endOfBuffer) c ∧ curPutI16 z c = .stop (.fail .endOfBuffer) c ∧
    curPutBlock32 k c = .stop (.fail .endOfBuffer) c ∧ curPutSlice x c = .stop (.fail .endOfBuffer) c ∧
    curSeek u c = .stop (.fail .endOfBuffer) c ∧
    ((∀ m, b.bytes = some m → x.length ≤ m) → curPutRegValue b x sg c = .stop (.fail .endOfBuffer) c) ∧
    (∀ m, b.bytes = some m → m < x.length → curPutRegValue b x sg c = .stop (.abort .valueTooLong) c))

/-- R82, the round-trip laws, which the spec derives from R66 to R81. (a) A bit-field written and read again at the
same place gives the value back, with the cursor where the write left it; (b) so do 16-bit values and 32-byte blocks;
(c) so does a slice, which takes two bytes more than its length, and whose write succeeds only if it ends at offset
65535 or before, or is at most one byte long and ends on byte 65535. Each is stated for writes that leave the sentinel
clear. -/
def Obligations.WritesReadBack : Prop :=
  (∀ (fw : FieldWidth) (v : Nat) (c c' : Cursor), c.buf.wf → v < 2 ^ fw.w →
    curPutBits fw v c = .ok () c' → c'.eof = false →
    curBits fw { c' with pos := c.pos, bit := c.bit } = .ok v c') ∧
  (∀ (u : Offset) (c c' : Cursor), c.buf.wf → curPutU16 u c = .ok () c' → c'.eof = false →
    curU16 { c' with pos := c.pos } = .ok u c') ∧
  (∀ (z : Int) (c c' : Cursor), c.buf.wf → -32768 ≤ z → z < 32768 → curPutI16 z c = .ok () c' → c'.eof = false →
    curI16 { c' with pos := c.pos } = .ok z c') ∧
  (∀ (k : Block32) (c c' : Cursor), c.buf.wf → curPutBlock32 k c = .ok () c' → c'.eof = false →
    curBlock32 { c' with pos := c.pos } = .ok k c') ∧
  (∀ (x : Bytes) (c c' : Cursor), c.buf.wf → curPutSlice x c = .ok () c' →
    (c.pos.toNat + 2 + x.length ≤ 65535 ∨ (x.length ≤ 1 ∧ c.pos.toNat + 2 + x.length = 65536)) ∧
    (c'.eof = false →
      curSlice { c' with pos := c.pos } = .ok x c' ∧ c'.pos.toNat = c.pos.toNat + 2 + x.length))

/-! ### The step and the run -/

/-- R276: where the bytes at the program counter decode to `i`, a step is `exec` of `i` in the state whose cursor
stands after the instruction's bytes and whose `ipc` is the offset of its opcode byte (`ipc` is the model's field for
`pc`, assumption 3). -/
def Obligations.StepRunsTheDecodedInstruction : Prop :=
  ∀ (s : State) (m : Memory) (i : Instr) (c : Cursor),
    s.run = .running → s.buffer s.curlib = some m → decode s.digest ⟨m, s.pos, s.bit, s.eof⟩ = .ok i c →
    step s = exec i { s with pos := c.pos, bit := c.bit, eof := c.eof, ipc := s.pos }

/-- R45: the state after reset. -/
def Obligations.ResetState : Prop :=
  (∀ b i, State.reset.slot b i = none) ∧ State.reset.st0 = true ∧ State.reset.cm0 = .equal ∧ State.reset.cy0 = 0 ∧
    State.reset.cp0 = 0 ∧ State.reset.libdepth = 0 ∧ State.reset.curlib = State.reset.launchLib ∧
    State.reset.launchLib = none ∧ State.reset.buffer State.reset.curlib = some State.reset.code ∧
    State.reset.pos = 0 ∧ State.reset.bit = 0 ∧ State.reset.eof = false ∧ State.reset.run = .running ∧
    State.reset.flt = none

/-- R283, which the spec derives, holds of the state after reset, and so does the canonical form of the buffers
(assumption 7). -/
def Obligations.ResetMeetsTheInvariant : Prop := Inv State.reset

/-- A launch with parameters in range, as assumption 14 reads them, gives the reset state over exactly those parameters,
with the launch library as the current one (R320, R323), and R283, which the spec derives, holds of it. -/
def Obligations.LaunchMeetsTheInvariant : Prop :=
  ∀ (p : LaunchParams) (s : State), p.ok = true →
    s = { State.reset with
      code := p.code, launchLib := p.launchLib, libs := p.libs, digest := p.digest, curlib := p.launchLib } →
    launch p = .next s ∧ Inv s

/-- R283, which the spec derives: every step keeps the invariant of a run (and the canonical form, assumption 7). -/
def Obligations.StepKeepsTheInvariant : Prop := ∀ s t : State, Inv s → step s = .next t → Inv t

/-- R279, which the spec derives: from a `Running` state of a run, a step has exactly one outcome: `Running`; `Halted`
by `succ` or `fail`; `Faulted(e)` with the fault record written. The engine is never stuck, refused or aborted. -/
def Obligations.StepOutcomesAreExhaustive : Prop :=
  ∀ s : State, Inv s → s.run = .running →
    ∃ t, step s = .next t ∧
      (t.run = .running ∨
        (t.run = .halted true ∧ t.st0 = true ∧ ∃ s', fetch s = .instr .succ s') ∨
        (t.run = .halted false ∧ t.st0 = false ∧ ∃ s', fetch s = .instr .fail s') ∨
        ∃ e, t.run = .faulted e ∧ t.flt = some ⟨e, s.curlib, s.pos, t.pos⟩)

/-- No step is defined from a terminal state (R40, R285); that the model then answers a fault is its own reading
(assumption 6). -/
def Obligations.TerminalStatesHaveNoStep : Prop :=
  ∀ s : State, s.run ≠ .running → step s = .fault (.terminated s.run)

/-- R297, which the spec derives: a step that starts on a byte boundary ends on one and never aborts; a step that
starts inside a byte aborts with `MisalignedAccess`. -/
def Obligations.OnlyMisalignmentAborts : Prop :=
  (∀ s t : State, s.bit = 0 → step s = .next t → t.bit = 0 ∧ ∀ v, t.run ≠ .aborted v) ∧
  (∀ s : State, s.run = .running → s.bit ≠ 0 → s.eof = false → (s.buffer s.curlib).isSome = true →
    ∃ t, step s = .next t ∧ t.run = .aborted .misalignedAccess)

/-- R62, which the spec derives: the engine only reads: no step changes a byte of any buffer, the launch library or
the digest table. -/
def Obligations.StepNeverWritesMemory : Prop :=
  ∀ s t : State, step s = .next t → t.code = s.code ∧ t.libs = s.libs ∧ MemoryKept s t

/-- R294, which the spec derives: faults are precise. A step that faults has written no slot, flag, counter, stack
entry or `curlib`; the record holds the error, the library, the opcode's offset and the cursor's, which has not moved
back. -/
def Obligations.FaultsArePrecise : Prop :=
  ∀ (s t : State) (e : EngineError), s.bit = 0 → step s = .next t → t.run = .faulted e →
    SlotsKeptBut [] s t ∧ FlagsKept s t ∧ ControlKept s t ∧ MemoryKept s t ∧ t.bit = 0 ∧
      s.pos.toNat ≤ t.pos.toNat ∧ t.flt = some ⟨e, s.curlib, s.pos, t.pos⟩

/-- R282: a step that begins at or past the end of the buffer, or under `eof`, enters `Faulted(EndOfBuffer)` with
`flt.pc = flt.pos = pos` and changes nothing else. -/
def Obligations.FetchPastTheEndFaults : Prop :=
  (∀ (s : State) (m : Memory), s.run = .running → s.bit = 0 → s.buffer s.curlib = some m →
    (m.len ≤ s.pos.toNat ∨ s.eof = true) →
    step s = .next { s with ipc := s.pos, run := .faulted .endOfBuffer,
                            flt := some ⟨.endOfBuffer, s.curlib, s.pos, s.pos⟩ }) ∧
  (∀ s : State, s = { State.reset with code := Memory.ofBytes [] } →
    step s = .next { s with run := .faulted .endOfBuffer, flt := some ⟨.endOfBuffer, none, 0, 0⟩ })

/-- No instruction is refused, stuck or without a next state, in any state and with any operands. Of an instruction that
bytes decode to, in a `Running` state of a run, R279 says so, which the spec derives; that a term no bytes decode to
raises `UnknownOpcode` (assumption 9), and that `exec` answers in every other state too, is the model's choice. -/
def Obligations.EveryInstructionHasANextState : Prop := ∀ (i : Instr) (s : State), ∃ t, exec i s = .next t

/-- R278: an instruction that is not a control transfer leaves the cursor at `npc` and touches no counter, stack entry
or library; that includes one that ends by `OperandFail()`. -/
def Obligations.OnlyTransfersMoveTheCursor : Prop :=
  ∀ (i : Instr) (s t : State), isTransfer i = false → exec i s = .next t → CursorKept s t ∧ ControlKept s t

/-- R32: who writes `st0`: `fail`, `succ`, `eqa`, `eqr`, and an operation failure, which writes nothing else. -/
def Obligations.StatusFlagWriters : Prop :=
  ∀ (i : Instr) (s t : State), exec i s = .next t → t.st0 ≠ s.st0 →
    isHalt i = true ∨ (∃ b i1 i2, i = .eqa b i1 i2) ∨ (∃ b i1 i2, i = .eqr b i1 i2) ∨ FailsOperand s t

/-- R33: only `cmpa` and `cmpr` write `cm0`, and then nothing else changes. -/
def Obligations.OrderingFlagWriters : Prop :=
  ∀ (i : Instr) (s t : State), exec i s = .next t → t.cm0 ≠ s.cm0 →
    ((∃ b i1 i2, i = .cmpa b i1 i2) ∨ ∃ b i1 i2, i = .cmpr b i1 i2) ∧ t.st0 = s.st0 ∧ OnlyFlags s t

/-- R34, R36, R37, and R150, which the spec derives: what one instruction does to the counters: it raises and changes
none of them, or it counts as its kind says. -/
def Obligations.CountersCountTransfers : Prop :=
  ∀ (i : Instr) (s t : State), exec i s = .next t →
    (∃ e, Raises e s t) ∨
      (t.cy0 = s.cy0 + BitVec.ofNat 16 (cyTick s i) ∧ t.cp0 + pops i = s.cp0 + pushes i ∧
        t.libdepth = s.libdepth + BitVec.ofNat 16 (deepens i))

/-- R284 (a) to (c), which the spec derives: every step that completes without executing `exec` uses up the budget of
spec/48_execution_engine.md section 3: a transfer its count of transfers and returns, any other instruction the bytes
left in the buffer. -/
def Obligations.StepsWithoutExecUseTheBudget : Prop :=
  ∀ s t : State, s.bit = 0 → step s = .next t → t.run = .running →
    (∀ lib off s', fetch s ≠ .instr (.exec lib off) s') → stepsLeft t < stepsLeft s

/-- R284 (c) for `k = 0`, which the spec derives: a run in which no step executes `exec` ends, within as many steps as
its budget says, which at a launch is `131071 * 65537`. What stands at the cursor of the state it ends in is never
fetched, so it may be an `exec`. -/
def Obligations.RunsWithoutExecEnd : Prop :=
  (∀ s : State, Inv s →
    (∀ n u, runFor n s = .next u → u.run = .running → ∀ lib off u', fetch u ≠ .instr (.exec lib off) u') →
    ∃ n t, n ≤ stepsLeft s ∧ runFor n s = .next t ∧ t.run ≠ .running) ∧
  (∀ (p : LaunchParams) (s : State), launch p = .next s → stepsLeft s = 131071 * 65537)

/-! ### Slots -/

/-- R296: an instruction that reads an unset slot as an operand ends by `OperandFail()`: `st0` becomes false, nothing
else is written, the run goes on. (A floating mode raises before any slot is read, R214.) -/
def Obligations.UnsetOperandsFailTheOperation : Prop :=
  ∀ (i : Instr) (s : State), i.wf = true → i.supported s.digest = true →
    (∀ m, modeOf i = some m → m.kind ≠ .float) → (∃ p ∈ operandSlots i, s.slot p.1 p.2 = none) →
    ∃ t, exec i s = .next t ∧ FailsOperand s t

/-! ### Control flow -/

/-- `fail` and `succ` halt, writing `st0` false and true (spec/40_control_flow.md R142, R143). -/
def Obligations.FailAndSuccHalt : Prop :=
  ∀ s : State, exec .fail s = .next { s with st0 := false, run := .halted false } ∧
    exec .succ s = .next { s with st0 := true, run := .halted true }

/-- `jmp` counts and transfers, or raises `CounterExhausted` at the bound (R144). Under the sentinel, where no `jmp`
decodes, its seek would fail, and R141 makes that check before any write (assumption 8). -/
def Obligations.JmpCountsAndTransfers : Prop :=
  ∀ (off : Offset) (s : State),
    (s.eof = false → s.cy0 ≠ 65535 →
      exec (.jmp off) s = .next { s with cy0 := s.cy0 + 1, pos := off, bit := 0 }) ∧
    (s.cy0 = 65535 → ∃ t, exec (.jmp off) s = .next t ∧ Raises .counterExhausted s t) ∧
    (s.cy0 ≠ 65535 → s.eof = true → ∃ t, exec (.jmp off) s = .next t ∧ Raises .endOfBuffer s t)

/-- `jif` does the same when `st0` is true and nothing when it is false, whatever `cy0` is (R145; under the sentinel
as `jmp`, assumption 8). -/
def Obligations.JifFollowsTheStatusFlag : Prop :=
  ∀ (off : Offset) (s : State),
    (s.st0 = false → exec (.jif off) s = .next s) ∧
    (s.st0 = true → s.eof = false → s.cy0 ≠ 65535 →
      exec (.jif off) s = .next { s with cy0 := s.cy0 + 1, pos := off, bit := 0 }) ∧
    (s.st0 = true → s.cy0 = 65535 → ∃ t, exec (.jif off) s = .next t ∧ Raises .counterExhausted s t) ∧
    (s.st0 = true → s.cy0 ≠ 65535 → s.eof = true → ∃ t, exec (.jif off) s = .next t ∧ Raises .endOfBuffer s t)

/-- `routine` pushes the current library and `npc`, counts, and transfers (R146); its checks come first, in order
(under the sentinel as `jmp`, assumption 8). -/
def Obligations.RoutinePushesAndTransfers : Prop :=
  ∀ (off : Offset) (s : State),
    (s.eof = false → s.cy0 ≠ 65535 → s.cp0 < 65536 →
      exec (.routine off) s =
        .next { s with cs0 := ⟨s.curlib, s.pos⟩ :: s.cs0, cy0 := s.cy0 + 1, pos := off, bit := 0 }) ∧
    (s.cy0 = 65535 → ∃ t, exec (.routine off) s = .next t ∧ Raises .counterExhausted s t) ∧
    (s.cy0 ≠ 65535 → 65536 ≤ s.cp0 → ∃ t, exec (.routine off) s = .next t ∧ Raises .callStackOverflow s t) ∧
    (s.cy0 ≠ 65535 → s.cp0 < 65536 → s.eof = true → ∃ t, exec (.routine off) s = .next t ∧ Raises .endOfBuffer s t)

/-- `call` pushes, counts, deepens and transfers to the library, over a fresh cursor when it is another one, also
under the sentinel (R147, R141); its errors come in the order of the rule (into its own library under the sentinel as
`jmp`, assumption 8). -/
def Obligations.CallPushesAndEntersTheLibrary : Prop :=
  ∀ (lib : LibId) (off : Offset) (s : State),
    (s.cy0 ≠ 65535 → s.cp0 < 65536 →
        ((s.curlib = some lib ∧ s.eof = false) ∨ (s.curlib ≠ some lib ∧ (s.buffer (some lib)).isSome = true)) →
      exec (.call lib off) s =
        .next { s with cs0 := ⟨s.curlib, s.pos⟩ :: s.cs0, cy0 := s.cy0 + 1, libdepth := s.libdepth + 1,
                       curlib := some lib, pos := off, bit := 0, eof := false }) ∧
    (s.cy0 = 65535 → ∃ t, exec (.call lib off) s = .next t ∧ Raises .counterExhausted s t) ∧
    (s.cy0 ≠ 65535 → 65536 ≤ s.cp0 → ∃ t, exec (.call lib off) s = .next t ∧ Raises .callStackOverflow s t) ∧
    (s.cy0 ≠ 65535 → s.cp0 < 65536 → s.curlib ≠ some lib → s.buffer (some lib) = none →
      ∃ t, exec (.call lib off) s = .next t ∧ Raises (.libraryUnresolved (some lib)) s t) ∧
    (s.cy0 ≠ 65535 → s.cp0 < 65536 → s.curlib = some lib → s.eof = true →
      ∃ t, exec (.call lib off) s = .next t ∧ Raises .endOfBuffer s t)

/-- `exec` transfers without pushing, counting or deepening (R148), whatever `cy0` is (into its own library under the
sentinel as `jmp`, assumption 8). -/
def Obligations.ExecTransfersUncounted : Prop :=
  ∀ (lib : LibId) (off : Offset) (s : State),
    (((s.curlib = some lib ∧ s.eof = false) ∨ (s.curlib ≠ some lib ∧ (s.buffer (some lib)).isSome = true)) →
      exec (.exec lib off) s = .next { s with curlib := some lib, pos := off, bit := 0, eof := false }) ∧
    (s.curlib ≠ some lib → s.buffer (some lib) = none →
      ∃ t, exec (.exec lib off) s = .next t ∧ Raises (.libraryUnresolved (some lib)) s t) ∧
    (s.curlib = some lib → s.eof = true → ∃ t, exec (.exec lib off) s = .next t ∧ Raises .endOfBuffer s t)

/-- `ret` pops and resumes at the popped place, counting nothing (R149); an empty stack and a seek under the sentinel
raise with the stack unchanged, and so does an entry without a buffer, which no run has (assumption 17). -/
def Obligations.RetPopsAndResumes : Prop :=
  ∀ (s : State) (e : StackEntry) (rest : List StackEntry),
    (s.cs0 = e :: rest → ((e.lib = s.curlib ∧ s.eof = false) ∨
        (e.lib ≠ s.curlib ∧ (s.buffer e.lib).isSome = true)) →
      exec .ret s = .next { s with cs0 := rest, curlib := e.lib, pos := e.off, bit := 0, eof := false }) ∧
    (s.cs0 = [] → ∃ t, exec .ret s = .next t ∧ Raises .callStackUnderflow s t) ∧
    (s.cs0 = e :: rest → e.lib = s.curlib → s.eof = true → ∃ t, exec .ret s = .next t ∧ Raises .endOfBuffer s t) ∧
    (s.cs0 = e :: rest → e.lib ≠ s.curlib → s.buffer e.lib = none →
      ∃ t, exec .ret s = .next t ∧ Raises (.libraryUnresolved e.lib) s t)

/-- A subroutine returns to the instruction after its call (R146, R147, R149): from any later state with the stack and
the launch parameters the call left, `ret` completes, restores the caller's library and `npc`, and the stack is the
caller's again. -/
def Obligations.ReturnsGoBackToTheCaller : Prop :=
  ∀ (i : Instr) (s t u : State), ((∃ off, i = .routine off) ∨ ∃ lib off, i = .call lib off) → Inv s →
    s.run = .running → exec i s = .next t → t.run = .running →
    u.cs0 = t.cs0 → u.code = t.code → u.launchLib = t.launchLib → u.libs = t.libs → u.eof = false →
    ∃ r, exec .ret u = .next r ∧ r.curlib = s.curlib ∧ r.pos = s.pos ∧ r.cs0 = s.cs0 ∧ r.cy0 = u.cy0 ∧
      r.libdepth = u.libdepth

/-! ### Register manipulation -/

/-- The contract of `Reshape` (spec/41_register_ops.md R161): flag 1 sign-extends when widening and truncates when
narrowing, flag 0 zero-extends when widening and refuses to lose nonzero bytes when narrowing. -/
def Obligations.ReshapeContract : Prop :=
  ∀ (x : Bytes) (m : Nat),
    (∀ f, reshape x none f = some x) ∧
    (x.length = m → ∀ f, reshape x (some m) f = some x) ∧
    (x.length < m → ∃ y, reshape x (some m) false = some y ∧ y.length = m ∧ uval y = uval x) ∧
    (x.length < m → ∃ y, reshape x (some m) true = some y ∧ y.length = m ∧ sval y = sval x) ∧
    (m < x.length → ∃ y, reshape x (some m) true = some y ∧ y.length = m ∧ uval y = uval x % 256 ^ m) ∧
    (m < x.length → uval x < 256 ^ m → ∃ y, reshape x (some m) false = some y ∧ y.length = m ∧ uval y = uval x) ∧
    (m < x.length → 256 ^ m ≤ uval x → reshape x (some m) false = none)

/-- `swp` writes each value, reshaped by its own flag, to the other slot, both at once, or fails and writes neither
(R162). With both references the same slot nothing changes. -/
def Obligations.SwpExchangesReshapedValues : Prop :=
  ∀ (r1 r2 : RegRef) (x1 x2 : Bool) (s : State) (v1 v2 : Bytes),
    s.slot r1.bank r1.idx = some v1 → s.slot r2.bank r2.idx = some v2 →
    (∀ y1 y2, r1 ≠ r2 → reshape v1 r2.bank.bytes x1 = some y2 → reshape v2 r1.bank.bytes x2 = some y1 →
      ∃ t, exec (.swp r1 r2 x1 x2) s = .next t ∧ t.slot r1.bank r1.idx = some y1 ∧ t.slot r2.bank r2.idx = some y2 ∧
        OnlySlots [(r1.bank, r1.idx), (r2.bank, r2.idx)] s t) ∧
    (r1 = r2 → r1.bank.fits v1 = true → ∃ t, exec (.swp r1 r2 x1 x2) s = .next t ∧ OnlySlots [] s t) ∧
    ((reshape v1 r2.bank.bytes x1 = none ∨ reshape v2 r1.bank.bytes x2 = none) →
      ∃ t, exec (.swp r1 r2 x1 x2) s = .next t ∧ FailsOperand s t)

/-- `mov` writes the reshaped value; with `dup` the source is kept, without it the source becomes unset unless it is
the destination itself; a failing reshape writes nothing but `st0` (R163). -/
def Obligations.MovCopiesOrMoves : Prop :=
  ∀ (src dst : RegRef) (x dup : Bool) (s : State) (v : Bytes), s.slot src.bank src.idx = some v →
    (∀ y, reshape v dst.bank.bytes x = some y → (dup = true ∨ src = dst) →
      ∃ t, exec (.mov src dst x dup) s = .next t ∧ t.slot dst.bank dst.idx = some y ∧
        OnlySlots [(dst.bank, dst.idx)] s t) ∧
    (∀ y, reshape v dst.bank.bytes x = some y → dup = false → src ≠ dst →
      ∃ t, exec (.mov src dst x dup) s = .next t ∧ t.slot dst.bank dst.idx = some y ∧
        t.slot src.bank src.idx = none ∧ OnlySlots [(dst.bank, dst.idx), (src.bank, src.idx)] s t) ∧
    (reshape v dst.bank.bytes x = none → ∃ t, exec (.mov src dst x dup) s = .next t ∧ FailsOperand s t)

/-- `zeroa zeror zeros` write the zero value of their bank (R164 to R166), `cleana cleanr cleans` make the slot unset
(R167, R169, R170), whatever the slot held. -/
def Obligations.ZeroAndCleanIgnoreTheOldValue : Prop :=
  ∀ (i : Instr) (b : Bank) (j : Fin 32) (s : State),
    (((∃ a : ABank, i = .zeroa a j ∧ b = a.toBank) ∨ (∃ r : RBank, i = .zeror r j ∧ b = r.toBank) ∨
        (i = .zeros j ∧ b = .s)) →
      ∃ t v, exec i s = .next t ∧ t.slot b j = some v ∧ (∀ n, b.bytes = some n → v.length = n) ∧
        (b.bytes = none → v = []) ∧ uval v = 0 ∧ OnlySlots [(b, j)] s t) ∧
    (((∃ a : ABank, i = .cleana a j ∧ b = a.toBank) ∨ (∃ r : RBank, i = .cleanr r j ∧ b = r.toBank) ∨
        (i = .cleans j ∧ b = .s)) →
      ∃ t, exec i s = .next t ∧ t.slot b j = none ∧ OnlySlots [(b, j)] s t)

/-- `puta putr puts` write the literal: zero-extended to a fixed width, as it is in `ap` and `s` (R168, R171 to
R173). -/
def Obligations.PutWritesTheLiteral : Prop :=
  ∀ (i : Instr) (b : Bank) (j : Fin 32) (lit : Bytes) (s : State), i.wf = true →
    ((∃ a : ABank, i = .puta a j lit ∧ b = a.toBank) ∨ (∃ r : RBank, i = .putr r j lit ∧ b = r.toBank) ∨
      (i = .puts j lit ∧ b = .s)) →
    ∃ t v, exec i s = .next t ∧ t.slot b j = some v ∧
      (∀ n, b.bytes = some n → v.length = n ∧ v.take lit.length = lit ∧ uval v = uval lit) ∧
      (b.bytes = none → v = lit) ∧ OnlySlots [(b, j)] s t

/-! ### Comparison and measurement -/

/-- `cmpa` and `cmpr` set `cm0` to the unsigned order of the two values and change nothing else (R181, R182). -/
def Obligations.CompareSetsTheOrder : Prop :=
  ∀ (i : Instr) (b : Bank) (i1 i2 : Fin 32) (s : State) (v1 v2 : Bytes),
    ((∃ a : ABank, i = .cmpa a i1 i2 ∧ b = a.toBank) ∨ ∃ r : RBank, i = .cmpr r i1 i2 ∧ b = r.toBank) →
    s.slot b i1 = some v1 → s.slot b i2 = some v2 →
    ∃ t, exec i s = .next t ∧ (t.cm0 = .less ↔ uval v1 < uval v2) ∧ (t.cm0 = .equal ↔ uval v1 = uval v2) ∧
      (t.cm0 = .greater ↔ uval v2 < uval v1) ∧ t.st0 = s.st0 ∧ OnlyFlags s t

/-- `eqa` and `eqr` set `st0` to the equality of the two unsigned values and change nothing else (R183); for two byte
strings of one length, as in an `R` bank, that is equality of the strings (R184). -/
def Obligations.EqualSetsTheStatus : Prop :=
  ∀ (i : Instr) (b : Bank) (i1 i2 : Fin 32) (s : State) (v1 v2 : Bytes),
    ((∃ a : ABank, i = .eqa a i1 i2 ∧ b = a.toBank) ∨ ∃ r : RBank, i = .eqr r i1 i2 ∧ b = r.toBank) →
    s.slot b i1 = some v1 → s.slot b i2 = some v2 →
    ∃ t, exec i s = .next t ∧ (t.st0 = true ↔ uval v1 = uval v2) ∧
      (v1.length = v2.length → (t.st0 = true ↔ v1 = v2)) ∧ t.cm0 = s.cm0 ∧ OnlyFlags s t

/-- `lena` and `lenr` write to `a32` the least number of bits that holds the value (R185, R186). -/
def Obligations.MeasureBitLength : Prop :=
  ∀ (i : Instr) (b : Bank) (i1 i2 : Fin 32) (s : State) (v : Bytes),
    ((∃ a : ABank, i = .lena a i1 i2 ∧ b = a.toBank) ∨ ∃ r : RBank, i = .lenr r i1 i2 ∧ b = r.toBank) →
    s.slot b i1 = some v → v.length ≤ 65535 →
    ∃ t w, exec i s = .next t ∧ t.slot .a32 i2 = some w ∧ w.length = 4 ∧ uval v < 2 ^ uval w ∧
      (∀ k, uval v < 2 ^ k → uval w ≤ k) ∧ OnlySlots [(.a32, i2)] s t

/-- `cnta` and `cntr` write to `a32` the number of set bits of the value (R187, R188). -/
def Obligations.MeasurePopulation : Prop :=
  ∀ (i : Instr) (b : Bank) (i1 i2 : Fin 32) (s : State) (v : Bytes),
    ((∃ a : ABank, i = .cnta a i1 i2 ∧ b = a.toBank) ∨ ∃ r : RBank, i = .cntr r i1 i2 ∧ b = r.toBank) →
    s.slot b i1 = some v → v.length ≤ 65535 →
    ∃ t w, exec i s = .next t ∧ t.slot .a32 i2 = some w ∧ w.length = 4 ∧
      uval w = ((List.range (8 * v.length)).filter fun k => (uval v).testBit k).length ∧ OnlySlots [(.a32, i2)] s t

/-! ### Arithmetic -/

/-- `add sub mul neg abs` on a fixed-width bank (R204, R206 to R208, R210, R212): unchecked mode writes the exact
result modulo `2^N`, checked mode writes it when it is in range and raises `ArithmeticOverflow` when it is not; in
range both write the exact result. -/
def Obligations.FixedWidthArithmetic : Prop :=
  ∀ (i : Instr) (k : Kind) (sg : Bool) (b : ABank) (n : Nat) (i1 i2 dst : Fin 32) (s : State) (v1 v2 : Bytes) (z lo hi : Int),
    (k = .checked ∨ k = .wrapping) → b.bytes = some n →
    s.slot b.toBank i1 = some v1 → s.slot b.toBank i2 = some v2 →
    (lo = if sg then -2 ^ (8 * n - 1) else 0) → (hi = if sg then 2 ^ (8 * n - 1) - 1 else 2 ^ (8 * n) - 1) →
    ((i = .add ⟨k, sg⟩ b i1 i2 ∧ dst = i1 ∧ z = intOf v1 sg + intOf v2 sg) ∨
      (i = .sub ⟨k, sg⟩ b i1 i2 ∧ dst = i1 ∧ z = intOf v1 sg - intOf v2 sg) ∨
      (i = .mul ⟨k, sg⟩ b i1 i2 ∧ dst = i1 ∧ z = intOf v1 sg * intOf v2 sg) ∨
      (i = .neg ⟨k, sg⟩ b i1 ∧ dst = i1 ∧ z = -intOf v1 sg) ∨
      (i = .abs ⟨k, sg⟩ b i1 dst ∧ z = |intOf v1 sg|)) →
    ((k = .wrapping ∨ (lo ≤ z ∧ z ≤ hi)) →
      ∃ t v, exec i s = .next t ∧ t.slot b.toBank dst = some v ∧ v.length = n ∧
        (uval v : Int) = z % 2 ^ (8 * n) ∧ (lo ≤ z ∧ z ≤ hi → intOf v sg = z) ∧
        OnlySlots [(b.toBank, dst)] s t) ∧
    (k = .checked → (z < lo ∨ hi < z) → ∃ t, exec i s = .next t ∧ Raises .arithmeticOverflow s t)

/-- `div` and `mod` on a fixed-width bank (R209, R211, R213): the quotient is rounded toward zero and the remainder
has the sign of the dividend. A quotient out of range (only the most negative value by -1) faults in checked mode and
wraps in unchecked mode; a remainder is always in range. -/
def Obligations.FixedWidthDivision : Prop :=
  ∀ (k : Kind) (sg : Bool) (b : ABank) (n : Nat) (i1 i2 : Fin 32) (s : State) (v1 v2 : Bytes) (q r lo hi : Int),
    (k = .checked ∨ k = .wrapping) → b.bytes = some n →
    s.slot b.toBank i1 = some v1 → s.slot b.toBank i2 = some v2 → v1.length = n → v2.length = n →
    intOf v2 sg ≠ 0 → intOf v1 sg = intOf v2 sg * q + r → |r| < |intOf v2 sg| →
    (0 ≤ intOf v1 sg → 0 ≤ r) → (intOf v1 sg ≤ 0 → r ≤ 0) →
    (lo = if sg then -2 ^ (8 * n - 1) else 0) → (hi = if sg then 2 ^ (8 * n - 1) - 1 else 2 ^ (8 * n) - 1) →
    ((k = .wrapping ∨ (lo ≤ q ∧ q ≤ hi)) →
      ∃ t v, exec (.div ⟨k, sg⟩ b i1 i2) s = .next t ∧ t.slot b.toBank i1 = some v ∧ v.length = n ∧
        (uval v : Int) = q % 2 ^ (8 * n) ∧ (lo ≤ q ∧ q ≤ hi → intOf v sg = q) ∧ OnlySlots [(b.toBank, i1)] s t) ∧
    (k = .checked → (q < lo ∨ hi < q) →
      ∃ t, exec (.div ⟨k, sg⟩ b i1 i2) s = .next t ∧ Raises .arithmeticOverflow s t) ∧
    (∃ t v, exec (.mod ⟨k, sg⟩ b i1 i2) s = .next t ∧ t.slot b.toBank i1 = some v ∧ v.length = n ∧
      intOf v sg = r ∧ OnlySlots [(b.toBank, i1)] s t)

/-- A divisor that reads as 0 raises `DivisionByZero` in every mode, fixed-width and arbitrary-precision (R213, R214).
-/
def Obligations.DivisionByZeroFaults : Prop :=
  ∀ (m : Mode) (b : ABank) (i1 i2 : Fin 32) (s : State) (v1 v2 : Bytes), m.agrees b = true → m.kind ≠ .float →
    s.slot b.toBank i1 = some v1 → s.slot b.toBank i2 = some v2 → uval v2 = 0 →
    (∃ t, exec (.div m b i1 i2) s = .next t ∧ Raises .divisionByZero s t) ∧
    (∃ t, exec (.mod m b i1 i2) s = .next t ∧ Raises .divisionByZero s t)

/-- Arbitrary-precision arithmetic on `ap` (R205 to R212): the result is exact and has the least length that holds it
under the chosen signedness; it faults exactly when no slot can hold it. -/
def Obligations.ArbitraryPrecisionIsExact : Prop :=
  ∀ (i : Instr) (sg : Bool) (i1 i2 dst : Fin 32) (s : State) (v1 v2 : Bytes) (z : Int),
    s.slot .ap i1 = some v1 → s.slot .ap i2 = some v2 →
    ((i = .add ⟨.arbitrary, sg⟩ .ap i1 i2 ∧ dst = i1 ∧ z = intOf v1 sg + intOf v2 sg) ∨
      (i = .sub ⟨.arbitrary, sg⟩ .ap i1 i2 ∧ dst = i1 ∧ z = intOf v1 sg - intOf v2 sg) ∨
      (i = .mul ⟨.arbitrary, sg⟩ .ap i1 i2 ∧ dst = i1 ∧ z = intOf v1 sg * intOf v2 sg) ∨
      (i = .div ⟨.arbitrary, sg⟩ .ap i1 i2 ∧ dst = i1 ∧ intOf v2 sg ≠ 0 ∧ z = (intOf v1 sg).tdiv (intOf v2 sg)) ∨
      (i = .mod ⟨.arbitrary, sg⟩ .ap i1 i2 ∧ dst = i1 ∧ intOf v2 sg ≠ 0 ∧ z = (intOf v1 sg).tmod (intOf v2 sg)) ∨
      (i = .neg ⟨.arbitrary, sg⟩ .ap i1 ∧ dst = i1 ∧ z = -intOf v1 sg) ∨
      (i = .abs ⟨.arbitrary, sg⟩ .ap i1 dst ∧ z = |intOf v1 sg|)) →
    ((∃ w : Bytes, w.length ≤ 65535 ∧ intOf w sg = z) →
      ∃ t v, exec i s = .next t ∧ t.slot .ap dst = some v ∧ intOf v sg = z ∧
        (∀ w : Bytes, intOf w sg = z → v.length ≤ w.length) ∧ OnlySlots [(.ap, dst)] s t) ∧
    ((¬ ∃ w : Bytes, w.length ≤ 65535 ∧ intOf w sg = z) →
      ∃ t, exec i s = .next t ∧ Raises .arithmeticOverflow s t)

/-- A floating mode is a stub (R203): it raises `UnimplementedStub` before any register is read, on set and unset
operands alike. -/
def Obligations.FloatingStubsFault : Prop :=
  ∀ (sg : Bool) (b : ABank) (i1 i2 : Fin 32) (s : State) (i : Instr),
    i ∈ [Instr.add ⟨.float, sg⟩ b i1 i2, .sub ⟨.float, sg⟩ b i1 i2, .mul ⟨.float, sg⟩ b i1 i2, .div ⟨.float, sg⟩ b i1 i2,
      .neg ⟨.float, sg⟩ b i1, .mod ⟨.float, sg⟩ b i1 i2, .abs ⟨.float, sg⟩ b i1 i2] →
    ∃ t, exec i s = .next t ∧ Raises .unimplementedStub s t

/-! ### Bitwise -/

/-- `and or xor` combine the two values bit by bit into slot `d + 1` (R231 to R234). -/
def Obligations.BitwiseCombinesBits : Prop :=
  ∀ (i : Instr) (f : Bool → Bool → Bool) (b : ABank) (n : Nat) (i1 i2 j : Fin 32) (d : Fin 8) (s : State) (v1 v2 : Bytes),
    b.bytes = some n → s.slot b.toBank i1 = some v1 → s.slot b.toBank i2 = some v2 → v1.length = n → v2.length = n →
    j.val = d.val →
    ((i = .and b i1 i2 d ∧ f = Bool.and) ∨ (i = .or b i1 i2 d ∧ f = Bool.or) ∨ (i = .xor b i1 i2 d ∧ f = Bool.xor)) →
    ∃ t v, exec i s = .next t ∧ t.slot b.toBank j = some v ∧ v.length = n ∧
      (∀ k, k < 8 * n → (uval v).testBit k = f ((uval v1).testBit k) ((uval v2).testBit k)) ∧
      OnlySlots [(b.toBank, j)] s t

/-- `not` complements in place (R235). -/
def Obligations.NotComplementsInPlace : Prop :=
  ∀ (b : ABank) (n : Nat) (i1 : Fin 32) (s : State) (v1 : Bytes),
    b.bytes = some n → s.slot b.toBank i1 = some v1 → v1.length = n →
    ∃ t v, exec (.not b i1) s = .next t ∧ t.slot b.toBank i1 = some v ∧ v.length = n ∧
      uval v + uval v1 = 2 ^ (8 * n) - 1 ∧ OnlySlots [(b.toBank, i1)] s t

/-- `shl` and `shr` are multiplication and division by `2^s` for every amount `s`, the whole value of the register
(R236, R237). -/
def Obligations.ShiftsAreLogical : Prop :=
  ∀ (b : ABank) (n : Nat) (i1 i2 j : Fin 32) (d : Fin 8) (s : State) (v1 v2 : Bytes),
    b.bytes = some n → s.slot b.toBank i1 = some v1 → s.slot b.toBank i2 = some v2 → v1.length = n → v2.length = n →
    j.val = d.val →
    (∃ t v, exec (.shl b i1 i2 d) s = .next t ∧ t.slot b.toBank j = some v ∧ v.length = n ∧
      uval v = uval v1 * 2 ^ uval v2 % 2 ^ (8 * n) ∧ OnlySlots [(b.toBank, j)] s t) ∧
    (∃ t v, exec (.shr b i1 i2 d) s = .next t ∧ t.slot b.toBank j = some v ∧ v.length = n ∧
      uval v = uval v1 / 2 ^ uval v2 ∧ OnlySlots [(b.toBank, j)] s t)

/-- `scl` and `scr` move every bit by the amount, modulo the width (R238, R239). -/
def Obligations.RotatesMoveEveryBit : Prop :=
  ∀ (b : ABank) (n : Nat) (i1 i2 j : Fin 32) (d : Fin 8) (s : State) (v1 v2 : Bytes),
    b.bytes = some n → s.slot b.toBank i1 = some v1 → s.slot b.toBank i2 = some v2 → v1.length = n → v2.length = n →
    j.val = d.val →
    (∃ t v, exec (.scl b i1 i2 d) s = .next t ∧ t.slot b.toBank j = some v ∧ v.length = n ∧
      (∀ k, k < 8 * n → (uval v).testBit ((k + uval v2) % (8 * n)) = (uval v1).testBit k) ∧
      OnlySlots [(b.toBank, j)] s t) ∧
    (∃ t v, exec (.scr b i1 i2 d) s = .next t ∧ t.slot b.toBank j = some v ∧ v.length = n ∧
      (∀ k, k < 8 * n → (uval v).testBit k = (uval v1).testBit ((k + uval v2) % (8 * n))) ∧
      OnlySlots [(b.toBank, j)] s t)

/-! ### Digest and elliptic curves -/

/-- `dgst` hashes the string from the start offset to its end into the destination, and unsets the source when `clr`
asks for it; a start beyond the end of the string fails the operation and clears nothing (R252). -/
def Obligations.DigestHashesTheSuffix : Prop :=
  ∀ (alg src : Fin 32) (off : Offset) (b : RBank) (dst : Fin 32) (clr : Bool) (s : State) (x : Bytes),
    s.digest[alg] = some b → s.slot .s src = some x →
    (off.toNat ≤ x.length → ∃ t, exec (.dgst alg src off b dst clr) s = .next t ∧
      t.slot b.toBank dst = some (Config.digest alg b.bytes (x.drop off.toNat)).toList ∧
      (clr = false → OnlySlots [(b.toBank, dst)] s t) ∧
      (clr = true → t.slot .s src = none ∧ OnlySlots [(b.toBank, dst), (.s, src)] s t)) ∧
    (x.length < off.toNat → ∃ t, exec (.dgst alg src off b dst clr) s = .next t ∧ FailsOperand s t)

/-- `secpgen secpmul secpadd secpneg` hand their operands' bytes to the capability, `ovf` unchanged, and do with its
answer what R255 says (R256 to R259). -/
def Obligations.SecpInvokesTheCapability : Prop :=
  ∀ (i1 i2 : Fin 32) (d : Fin 8) (ovf : Bool) (s : State),
    (∀ k, s.slot .r256 i1 = some k →
      ∃ t, exec (.secpgen i1 d) s = .next t ∧ PointOrFailure (Config.secpGen k) d s t) ∧
    (∀ k q, s.slot .r256 i1 = some k → s.slot .r512 i2 = some q →
      ∃ t, exec (.secpmul i1 i2 d) s = .next t ∧ PointOrFailure (Config.secpMul k q) d s t) ∧
    (∀ p q, s.slot .r512 i1 = some p → s.slot .r512 i2 = some q →
      ∃ t, exec (.secpadd i1 i2 d ovf) s = .next t ∧ PointOrFailure (Config.secpAdd p q ovf) d s t) ∧
    (∀ p, s.slot .r512 i1 = some p →
      ∃ t, exec (.secpneg i1 d) s = .next t ∧ PointOrFailure (Config.secpNeg p) d s t)

/-- `edgen edmul edadd edneg`, likewise (R266 to R269). -/
def Obligations.EdInvokesTheCapability : Prop :=
  ∀ (i1 i2 : Fin 32) (d : Fin 8) (ovf : Bool) (s : State),
    (∀ k, s.slot .r256 i1 = some k →
      ∃ t, exec (.edgen i1 d) s = .next t ∧ PointOrFailure (Config.edGen k) d s t) ∧
    (∀ k q, s.slot .r256 i1 = some k → s.slot .r512 i2 = some q →
      ∃ t, exec (.edmul i1 i2 d) s = .next t ∧ PointOrFailure (Config.edMul k q) d s t) ∧
    (∀ p q, s.slot .r512 i1 = some p → s.slot .r512 i2 = some q →
      ∃ t, exec (.edadd i1 i2 d ovf) s = .next t ∧ PointOrFailure (Config.edAdd p q ovf) d s t) ∧
    (∀ p, s.slot .r512 i1 = some p →
      ∃ t, exec (.edneg i1 d) s = .next t ∧ PointOrFailure (Config.edNeg p) d s t)

/-! ### Byte 65535 -/

/-- R327 (a), which the spec derives from R65 and R109: an instruction whose last bytes are an `off16`, a literal's
length or a payload of two bytes or more cannot end on byte 65535. Its bytes may stand there, but the read that would
take byte 65535 fails with `OutOfBoundaries(65536)`. -/
def Obligations.WideReadsStopShortOfTheLastByte : Prop :=
  ∀ (d : DigestTable) (c : Cursor) (i : Instr),
    i.wf = true → i.supported d = true → c.bit = 0 → c.eof = false → endsOnByte i = false →
    c.pos.toNat + (encode i).length = Config.codeMax →
    c.buf.read c.pos.toNat (encode i).length = some (encode i) →
    ∃ c', decode d c = .stop (.fail (.outOfBoundaries 65536)) c'
end

