-- ==== Sys2Proof/Laws/Cursor.lean ====
section
/-! SUPPORT. The cursor: what it takes for a primitive to succeed, and what it then answers. -/

namespace Sys2Proof.Machine

@[simp] theorem CurOut.bind_ok {α β : Type} (a : α) (c : Cursor) (f : α → Cursor → CurOut β) :
    (CurOut.ok a c).bind f = f a c := rfl

@[simp] theorem CurOut.bind_stop {α β : Type} (why : Stop) (c : Cursor) (f : α → Cursor → CurOut β) :
    (CurOut.stop why c : CurOut α).bind f = .stop why c := rfl

/-- A sequence succeeds when both parts do. -/
theorem CurOut.bind_eq_ok {α β : Type} {r : CurOut α} {f : α → Cursor → CurOut β} {b : β} {c' : Cursor} :
    r.bind f = .ok b c' ↔ ∃ a c, r = .ok a c ∧ f a c = .ok b c' := by
  cases r <;> simp

/-- A sequence stops where its first part stops, or where its second part stops after the first succeeded. -/
theorem CurOut.bind_eq_stop {α β : Type} {r : CurOut α} {f : α → Cursor → CurOut β} {why : Stop} {c' : Cursor} :
    r.bind f = .stop why c' ↔ r = .stop why c' ∨ ∃ a c, r = .ok a c ∧ f a c = .stop why c' := by
  cases r <;> simp

@[simp] theorem Cursor.advance_buf (c : Cursor) (n : Nat) : (c.advance n).buf = c.buf := by
  unfold Cursor.advance; split
  · rfl
  · split <;> rfl

@[simp] theorem Cursor.advance_bit (c : Cursor) (n : Nat) : (c.advance n).bit = c.bit := by
  unfold Cursor.advance; split
  · rfl
  · split <;> rfl

@[simp] theorem Cursor.advance_zero (c : Cursor) : c.advance 0 = c := rfl

/-- An advance that stays in the offset range moves `pos` and nothing else. -/
theorem Cursor.advance_inside {c : Cursor} {n : Nat} (h : c.pos.toNat + n ≤ Config.posMax) :
    c.advance n = { c with pos := c.pos + BitVec.ofNat 16 n } := by
  unfold Cursor.advance
  simp only [Config.posMax] at *
  split
  · subst n; simp
  · rw [if_neg (by omega)]

/-- The offset after an advance that stays in range. -/
theorem Cursor.advance_pos_toNat {c : Cursor} {n : Nat} (h : c.pos.toNat + n ≤ Config.posMax) :
    (c.advance n).pos.toNat = c.pos.toNat + n := by
  rw [Cursor.advance_inside h]
  simp only [Config.posMax, BitVec.toNat_add, BitVec.toNat_ofNat] at *
  omega

/-- A one-byte advance from offset 65535 sets the sentinel and leaves the offset (R64). -/
theorem Cursor.advance_sentinel {c : Cursor} (h : c.pos.toNat = Config.posMax) :
    c.advance 1 = { c with eof := true } := by simp [Cursor.advance, h]

/-- When the access check of `n >= 1` bytes passes (R65). -/
theorem Cursor.checkBytes_eq_none {c : Cursor} {n : Nat} (hn : 1 ≤ n) :
    c.checkBytes n = none ↔
      c.eof = false ∧ c.bit = 0 ∧ (2 ≤ n → c.pos.toNat + n ≤ Config.posMax) ∧ c.pos.toNat + n ≤ c.buf.len := by
  unfold Cursor.checkBytes
  simp only [Config.posMax]
  rcases c with ⟨m, p, b, e⟩
  cases e
  · by_cases hb : b = 0
    · simp only [hb, Bool.false_eq_true, if_false, show ¬ n = 0 by omega, ne_eq, not_true, if_false]
      split
      · simp; omega
      · split
        · simp; omega
        · simp; omega
    · have hb' : ¬ b = 0#3 := hb
      simp [hb', show ¬ n = 0 by omega]
  · simp

/-- When `CurU8()` succeeds, and what it answers (R67). -/
theorem curU8_eq_ok {c c' : Cursor} {v : Byte} :
    curU8 c = .ok v c' ↔
      c.eof = false ∧ c.bit = 0 ∧ c.pos.toNat + 1 ≤ c.buf.len ∧ v = c.buf.byte c.pos.toNat ∧ c' = c.advance 1 := by
  unfold curU8
  have h := Cursor.checkBytes_eq_none (c := c) (n := 1) (by omega)
  split
  next hs =>
    rw [hs] at h
    simp only [reduceCtorEq, false_iff] at h ⊢
    rintro ⟨h1, h2, h3⟩
    exact h ⟨h1, h2, by omega⟩
  next hs =>
    rw [hs] at h
    simp only [true_iff] at h
    simp only [CurOut.ok.injEq, h, true_and, eq_comm]

/-- When `CurU16()` succeeds, and what it answers (R68). -/
theorem curU16_eq_ok {c c' : Cursor} {v : Offset} :
    curU16 c = .ok v c' ↔
      c.eof = false ∧ c.bit = 0 ∧ c.pos.toNat + 2 ≤ Config.posMax ∧ c.pos.toNat + 2 ≤ c.buf.len ∧
        v = le16 c.buf c.pos.toNat ∧ c' = c.advance 2 := by
  unfold curU16
  have h := Cursor.checkBytes_eq_none (c := c) (n := 2) (by omega)
  split
  next hs =>
    rw [hs] at h
    simp only [reduceCtorEq, false_iff] at h ⊢
    rintro ⟨h1, h2, h3⟩
    exact h ⟨h1, h2, by omega⟩
  next hs =>
    rw [hs] at h
    simp only [true_iff] at h
    simp only [CurOut.ok.injEq, h, h.2.2.1 (by omega), true_and, eq_comm]

/-- When `CurBlock32()` succeeds, and what it answers (R70). -/
theorem curBlock32_eq_ok {c c' : Cursor} {x : Block32} :
    curBlock32 c = .ok x c' ↔
      c.eof = false ∧ c.bit = 0 ∧ c.pos.toNat + 32 ≤ Config.posMax ∧ c.pos.toNat + 32 ≤ c.buf.len ∧
        x = blockAt c.buf c.pos.toNat ∧ c' = c.advance 32 := by
  unfold curBlock32
  have h := Cursor.checkBytes_eq_none (c := c) (n := 32) (by omega)
  split
  next hs =>
    rw [hs] at h
    simp only [reduceCtorEq, false_iff] at h ⊢
    rintro ⟨h1, h2, h3⟩
    exact h ⟨h1, h2, by omega⟩
  next hs =>
    rw [hs] at h
    simp only [true_iff] at h
    simp only [CurOut.ok.injEq, h, h.2.2.1 (by omega), true_and, eq_comm]

/-- When `CurSlice()` succeeds, and what it answers (R71). -/
theorem curSlice_eq_ok {c c' : Cursor} {x : Bytes} :
    curSlice c = .ok x c' ↔
      c.eof = false ∧ c.bit = 0 ∧ c.pos.toNat + 2 ≤ Config.posMax ∧ c.pos.toNat + 2 ≤ c.buf.len ∧
        ∃ l, l = (le16 c.buf c.pos.toNat).toNat ∧ (2 ≤ l → c.pos.toNat + 2 + l ≤ Config.posMax) ∧
          c.pos.toNat + 2 + l ≤ c.buf.len ∧ x = c.buf.slice (c.pos.toNat + 2) l ∧
          c' = (c.advance 2).advance l := by
  unfold curSlice
  have h := Cursor.checkBytes_eq_none (c := c) (n := 2) (by omega)
  split
  next hs =>
    rw [hs] at h
    simp only [reduceCtorEq, false_iff] at h ⊢
    rintro ⟨h1, h2, h3, h4, -⟩
    exact h ⟨h1, h2, fun _ => h3, h4⟩
  next hs =>
    rw [hs] at h
    simp only [true_iff, le_refl, forall_true_left] at h
    obtain ⟨he, hb, hp, hl⟩ := h
    simp only [failAt, he, hb, hp, hl, true_and, exists_eq_left]
    split
    · simp; omega
    · split
      · simp; omega
      · simp only [CurOut.ok.injEq]
        constructor
        · rintro ⟨rfl, rfl⟩; exact ⟨by omega, by omega, rfl, rfl⟩
        · rintro ⟨-, -, rfl, rfl⟩; exact ⟨rfl, rfl⟩

/-- The reads of the decoder that succeed never touch the buffer and leave the bit offset alone. -/
structure SameBuf (c c' : Cursor) : Prop where
  buf : c'.buf = c.buf
  bit : c'.bit = c.bit

theorem SameBuf.refl (c : Cursor) : SameBuf c c := ⟨rfl, rfl⟩

theorem SameBuf.trans {a b c : Cursor} (h : SameBuf a b) (h' : SameBuf b c) : SameBuf a c :=
  ⟨h'.buf.trans h.buf, h'.bit.trans h.bit⟩

theorem SameBuf.advance (c : Cursor) (n : Nat) : SameBuf c (c.advance n) := ⟨by simp, by simp⟩

end Sys2Proof.Machine
end

