-- ==== Sys2Proof/Laws/Memory.lean ====
section
/-! SUPPORT. Code buffers: read after write, the frame of a write, and every operation keeps the canonical form. -/

namespace Sys2Proof.Machine

/-- The list half of `Memory.wf`: offsets strictly rising, no listed blank. -/
abbrev cellsWf (l : List Host.Cell) : Prop :=
  l.Pairwise (fun x y => x.1 < y.1) ∧ ∀ x ∈ l, x.2 ≠ Memory.blank

theorem cellAt_eq_blank (a : Nat) (l : List Host.Cell) (h : ∀ x ∈ l, x.1 ≠ a) : cellAt a l = Memory.blank := by
  induction l with
  | nil => rfl
  | cons x rest ih =>
    have h1 := h x (by simp)
    simp only [cellAt, if_neg h1]
    exact ih fun y hy => h y (by simp [hy])

theorem mem_putCell {a : Nat} {v : Byte} {l : List Host.Cell} {x : Host.Cell} (h : x ∈ putCell a v l) :
    x ∈ l ∨ (x = (a, v) ∧ v ≠ Memory.blank) := by
  induction l with
  | nil =>
    by_cases hv : v = Memory.blank
    · simp [putCell, hv] at h
    · simp only [putCell, if_neg hv, List.mem_singleton] at h
      exact .inr ⟨h, hv⟩
  | cons y rest ih =>
    unfold putCell at h
    split at h
    · split at h
      · exact .inl h
      · rcases List.mem_cons.1 h with rfl | h
        · exact .inr ⟨rfl, ‹_›⟩
        · exact .inl h
    · split at h
      · split at h
        · exact .inl (List.mem_cons_of_mem _ h)
        · rcases List.mem_cons.1 h with rfl | h
          · exact .inr ⟨rfl, ‹_›⟩
          · exact .inl (List.mem_cons_of_mem _ h)
      · rcases List.mem_cons.1 h with rfl | h
        · exact .inl (List.mem_cons_self ..)
        · exact (ih h).imp_left (List.mem_cons_of_mem _)

theorem putCell_wf {a : Nat} {v : Byte} {l : List Host.Cell} (h : cellsWf l) : cellsWf (putCell a v l) := by
  refine ⟨?_, fun x hx => ?_⟩
  · obtain ⟨hp, hb⟩ := h
    clear hb
    induction l with
    | nil => by_cases hv : v = Memory.blank <;> simp [putCell, hv]
    | cons y rest ih =>
      rw [List.pairwise_cons] at hp
      have ih := ih hp.2
      unfold putCell
      split
      · split
        · exact List.pairwise_cons.2 hp
        · refine List.pairwise_cons.2 ⟨fun z hz => ?_, List.pairwise_cons.2 hp⟩
          rcases List.mem_cons.1 hz with rfl | hz
          · assumption
          · exact Nat.lt_trans ‹_› (hp.1 z hz)
      · split
        · split
          · exact hp.2
          · refine List.pairwise_cons.2 ⟨fun z hz => ?_, hp.2⟩
            have := hp.1 z hz
            simp only at *; omega
        · refine List.pairwise_cons.2 ⟨fun z hz => ?_, ih⟩
          rcases mem_putCell hz with hz | ⟨rfl, -⟩
          · exact hp.1 z hz
          · simp only at *; omega
  · rcases mem_putCell hx with hx | ⟨rfl, hv⟩
    · exact h.2 x hx
    · exact hv

/-- Read after write at the same offset, and every other offset is left alone. -/
theorem cellAt_putCell {a a' : Nat} {v : Byte} {l : List Host.Cell} (h : cellsWf l) :
    cellAt a' (putCell a v l) = if a' = a then v else cellAt a' l := by
  induction l with
  | nil =>
    by_cases hv : v = Memory.blank
    · simp [putCell, hv, cellAt]
    · by_cases ha : a' = a
      · simp [putCell, hv, cellAt, ha]
      · simp [putCell, hv, cellAt, ha, Ne.symm ha]
  | cons y rest ih =>
    obtain ⟨hp, hb⟩ := h
    rw [List.pairwise_cons] at hp
    have ih := ih ⟨hp.2, fun x hx => hb x (by simp [hx])⟩
    have hrest : ∀ c, c ≤ y.1 → cellAt c rest = Memory.blank := fun c hc =>
      cellAt_eq_blank c rest fun x hx => by have := hp.1 x hx; omega
    unfold putCell
    split
    next h1 =>
      split
      next hv =>
        by_cases ha : a' = a
        · subst ha
          rw [if_pos rfl, cellAt, if_neg (by omega), hrest a' (by omega), hv]
        · rw [if_neg ha]
      next =>
        by_cases ha : a' = a
        · subst ha; simp [cellAt]
        · simp [cellAt, ha, Ne.symm ha]
    next h1 =>
      split
      next h2 =>
        split
        next hv =>
          by_cases ha : a' = a
          · rw [if_pos ha, hrest a' (by omega), hv]
          · rw [if_neg ha, cellAt, if_neg (by omega)]
        next =>
          by_cases ha : a' = a
          · subst ha; simp [cellAt]
          · simp [cellAt, ha, Ne.symm ha, ← h2]
      next h2 =>
        by_cases ha : a' = a
        · subst ha
          rw [cellAt, if_neg (by omega), ih]; simp
        · by_cases hy : y.1 = a'
          · simp [cellAt, hy, ha]
          · rw [cellAt, if_neg hy, ih, cellAt, if_neg hy]

theorem Memory.wf.cells {m : Memory} (h : m.wf) : cellsWf m.cells := ⟨h.2.1, fun x hx => (h.2.2 x hx).2⟩

@[simp] theorem Memory.put_len (m : Memory) (a : Nat) (v : Byte) : (m.put a v).len = m.len := by
  unfold Memory.put; split <;> rfl

@[simp] theorem Memory.putBytes_len (x : Bytes) : ∀ (m : Memory) (a : Nat), (m.putBytes a x).len = m.len := by
  induction x with
  | nil => intro m a; rfl
  | cons v rest ih => intro m a; simp [Memory.putBytes, ih]

/-- A one-byte write keeps the canonical form. -/
theorem Memory.put_wf {m : Memory} (h : m.wf) (a : Nat) (v : Byte) : (m.put a v).wf := by
  unfold Memory.put
  split
  next ha =>
    have hc := putCell_wf (a := a) (v := v) h.cells
    refine ⟨h.1, hc.1, fun x hx => ⟨?_, hc.2 x hx⟩⟩
    rcases mem_putCell hx with hx | ⟨rfl, -⟩
    · exact (h.2.2 x hx).1
    · exact ha
  next => exact h

/-- A write of any length keeps the canonical form. -/
theorem Memory.putBytes_wf (x : Bytes) : ∀ {m : Memory} (_ : m.wf) (a : Nat), (m.putBytes a x).wf := by
  induction x with
  | nil => intro m h a; exact h
  | cons v rest ih => intro m h a; exact ih (Memory.put_wf h a v) (a + 1)

/-- `MemWrite` keeps the canonical form and the length. -/
theorem Memory.write_wf {m m' : Memory} {a : Nat} {x : Bytes} (h : m.wf) (hw : m.write a x = some m') :
    m'.wf ∧ m'.len = m.len := by
  unfold Memory.write at hw
  split at hw
  · cases hw; exact ⟨Memory.putBytes_wf x h a, by simp⟩
  · cases hw

theorem Memory.zeros_wf {n : Nat} (h : n ≤ Config.codeMax) : (Memory.zeros n).wf := by
  refine ⟨h, List.Pairwise.nil, fun x hx => by cases hx⟩

theorem Memory.empty_wf : Memory.empty.wf := Memory.zeros_wf (by decide)

/-- A buffer made from a byte string of at most `CODE_MAX` bytes is canonical. -/
theorem Memory.ofBytes_wf {x : Bytes} (h : x.length ≤ Config.codeMax) : (Memory.ofBytes x).wf :=
  Memory.putBytes_wf x (Memory.zeros_wf h) 0

/-- Placing a word for the next fetch keeps the form. -/
theorem overlayWord_wf {m : Memory} (h : m.wf) (a n w : Nat) : (overlayWord m a n w).wf := by
  refine Memory.putBytes_wf _ ⟨le_rfl, h.2.1.filter _, fun x hx => ?_⟩ a
  obtain ⟨h1, h2⟩ := h.2.2 x (List.mem_filter.1 hx).1
  exact ⟨Nat.lt_of_lt_of_le h1 h.1, h2⟩

/-- The memory of the reset state has the canonical form. -/
theorem State.reset_code_wf : State.reset.code.wf := Memory.empty_wf

/-- One byte after a one-byte write. -/
theorem Memory.byte_put {m : Memory} (h : m.wf) {a : Nat} (ha : a < m.len) (v : Byte) (a' : Nat) :
    (m.put a v).byte a' = if a' = a then v else m.byte a' := by
  simp only [Memory.put, if_pos ha, Memory.byte]
  exact cellAt_putCell h.cells

/-- One byte after a write: the written byte inside the written range, the old byte outside it. -/
theorem Memory.byte_putBytes (x : Bytes) : ∀ {m : Memory} (_ : m.wf) {a : Nat} (_ : a + x.length ≤ m.len) (a' : Nat),
    (m.putBytes a x).byte a' = if h : a ≤ a' ∧ a' - a < x.length then x[a' - a]'h.2 else m.byte a' := by
  induction x with
  | nil => intro m _ a _ a'; simp [Memory.putBytes]
  | cons v rest ih =>
    intro m h a ha a'
    simp only [List.length_cons] at ha ⊢
    rw [Memory.putBytes, ih (Memory.put_wf h a v) (by simp; omega), Memory.byte_put h (by omega)]
    by_cases h1 : a + 1 ≤ a' ∧ a' - (a + 1) < rest.length
    · have h2 : a' - a = a' - (a + 1) + 1 := by omega
      simp [h1, show a ≤ a' ∧ a' - a < rest.length + 1 by omega, h2]
    · rw [dif_neg h1]
      by_cases h3 : a' = a
      · subst h3; simp
      · rw [if_neg h3, dif_neg (by omega)]

@[simp] theorem Memory.slice_length (m : Memory) (a n : Nat) : (m.slice a n).length = n := by simp [Memory.slice]

theorem Memory.slice_getElem (m : Memory) (a n k : Nat) (h : k < n) :
    (m.slice a n)[k]'(by simpa using h) = m.byte (a + k) := by simp [Memory.slice]

theorem Memory.slice_append (m : Memory) (a n k : Nat) : m.slice a (n + k) = m.slice a n ++ m.slice (a + n) k := by
  simp [Memory.slice, List.range_add, Function.comp_def, Nat.add_assoc]

/-- A read is defined exactly inside the buffer, and then gives the bytes there. -/
theorem Memory.read_eq_some {m : Memory} {a n : Nat} {x : Bytes} :
    m.read a n = some x ↔ a + n ≤ m.len ∧ x = m.slice a n := by
  unfold Memory.read
  split <;> simp_all [eq_comm]

/-- What was written is what is read back. -/
theorem Memory.slice_putBytes {m : Memory} (h : m.wf) {a : Nat} {x : Bytes} (ha : a + x.length ≤ m.len) :
    (m.putBytes a x).slice a x.length = x := by
  apply List.ext_getElem
  · simp
  · intro k h1 h2
    rw [Memory.slice_getElem _ _ _ _ h2, Memory.byte_putBytes x h ha]
    simp [h2]

end Sys2Proof.Machine
end

