-- ==== Sys2Proof/Laws/Decode.lean ====
section
/-! SUPPORT. The decoder format by format (spec/30_encoding.md R109): each operand byte is the byte its fields make, a
format reads exactly the bytes the encoder writes for it, and what it reads is the instruction of those bytes. -/

namespace Sys2Proof.Machine

/-! #### Bytes and fields -/

theorem waField_selIdx : ∀ (b : ABank) (i : Fin 32), waField (selIdx b.code i) = b ∧ indexField (selIdx b.code i) 3 = i := by
  intro b; cases b <;> decide

theorem wrField_selIdx : ∀ (b : RBank) (i : Fin 32),
    wrField (selIdx b.code i) = some b ∧ indexField (selIdx b.code i) 3 = i := by
  intro b; cases b <;> decide

theorem clsField_byteOf : ∀ b1 b2 : Bank,
    clsField (byteOf (b1.code + 16 * b2.code)) 0 = b1 ∧ clsField (byteOf (b1.code + 16 * b2.code)) 4 = b2 := by
  intro b1; cases b1 <;> (intro b2; cases b2 <;> decide)

theorem idxByte_fields : ∀ i : Fin 32, indexField (idxByte i) 0 = i ∧ reservedZero (idxByte i) 5 = true := by decide

theorem flagsByte_fields : ∀ (i : Fin 32) (f1 f2 : Bool),
    indexField (byteOf (i.val + 32 * bitOf f1 + 64 * bitOf f2)) 0 = i ∧
      flagField (byteOf (i.val + 32 * bitOf f1 + 64 * bitOf f2)) 5 = f1 ∧
      flagField (byteOf (i.val + 32 * bitOf f1 + 64 * bitOf f2)) 6 = f2 ∧
      reservedZero (byteOf (i.val + 32 * bitOf f1 + 64 * bitOf f2)) 7 = true := by decide

theorem flagByte_fields : ∀ (i : Fin 32) (f : Bool), indexField (byteOf (i.val + 32 * bitOf f)) 0 = i ∧
    flagField (byteOf (i.val + 32 * bitOf f)) 5 = f ∧ reservedZero (byteOf (i.val + 32 * bitOf f)) 6 = true := by decide

theorem idxDest_fields : ∀ (i : Fin 32) (d : Fin 8), indexField (idxDest i d) 0 = i ∧ destField (idxDest i d) 5 = d := by
  decide

theorem modeByte_fields (m : Mode) : modeField (modeByte m) = m ∧ reservedZero (modeByte m) 3 = true := by
  rcases m with ⟨k, sg⟩
  cases k <;> cases sg <;> decide

/-- Every byte is its selector and its index. -/
theorem selIdx_waField : ∀ b : Byte, selIdx (waField b).code (indexField b 3) = b := by decide

theorem selIdx_wrField : ∀ b : Byte, ∀ r : RBank, wrField b = some r → selIdx r.code (indexField b 3) = b := by
  intro b r h
  have key : ∀ b : Byte, (match wrField b with | some r => selIdx r.code (indexField b 3) == b | none => true) = true := by
    decide
  have := key b
  rw [h] at this
  simpa using this

theorem byteOf_clsField : ∀ b : Byte, byteOf ((clsField b 0).code + 16 * (clsField b 4).code) = b := by decide

theorem idxByte_indexField : ∀ b : Byte, reservedZero b 5 = true → idxByte (indexField b 0) = b := by decide

theorem byteOf_flags : ∀ b : Byte, reservedZero b 7 = true →
    byteOf ((indexField b 0).val + 32 * bitOf (flagField b 5) + 64 * bitOf (flagField b 6)) = b := by decide

theorem byteOf_flag : ∀ b : Byte, reservedZero b 6 = true →
    byteOf ((indexField b 0).val + 32 * bitOf (flagField b 5)) = b := by decide

theorem idxDest_destField : ∀ b : Byte, idxDest (indexField b 0) (destField b 5) = b := by decide

theorem modeByte_modeField : ∀ b : Byte, reservedZero b 3 = true → modeByte (modeField b) = b := by decide

/-! #### Encoded bytes at the cursor -/

@[simp] theorem Cursor.past_zero (c : Cursor) : c.past 0 = c := by
  have := c.pos.isLt
  unfold Cursor.past
  rw [if_neg (by simp only [Config.codeMax]; omega)]
  simp

@[simp] theorem Cursor.past_buf (c : Cursor) (n : Nat) : (c.past n).buf = c.buf := by
  unfold Cursor.past; split <;> rfl

@[simp] theorem Cursor.past_bit (c : Cursor) (n : Nat) : (c.past n).bit = c.bit := by
  unfold Cursor.past; split <;> rfl

/-- Short of the end, `past` moves the offset and leaves the sentinel clear. -/
theorem Cursor.past_toNat {c : Cursor} {n : Nat} (h : c.pos.toNat + n ≤ Config.posMax) :
    (c.past n).pos.toNat = c.pos.toNat + n ∧ (c.past n).eof = c.eof := by
  simp only [Config.posMax] at h
  unfold Cursor.past
  rw [if_neg (by simp only [Config.codeMax]; omega)]
  refine ⟨?_, rfl⟩
  simp only [BitVec.toNat_add, BitVec.toNat_ofNat]
  omega

/-- An advance of which only a single byte may be byte 65535. -/
theorem advance_eq_past {c : Cursor} {n : Nat} (hn : n ≠ 0) (h : 2 ≤ n → c.pos.toNat + n ≤ Config.posMax) :
    c.advance n = c.past n := by
  unfold Cursor.advance Cursor.past
  simp only [Config.posMax, Config.codeMax] at *
  rw [if_neg hn]
  by_cases h1 : n = 1 ∧ c.pos.toNat = 65535
  · rw [if_pos h1, if_pos (by omega)]
    have : c.pos = BitVec.ofNat 16 65535 := BitVec.eq_of_toNat_eq (by simpa using h1.2)
    rw [← this]
  · rw [if_neg h1, if_neg (by omega)]

/-- One such movement after another, the first short of the end. -/
theorem Cursor.past_past {c : Cursor} {k n : Nat} (hk : c.pos.toNat + k ≤ Config.posMax) :
    (c.past k).past n = c.past (k + n) := by
  have hp := (Cursor.past_toNat hk).1
  have hc : c.past k = { c with pos := c.pos + BitVec.ofNat 16 k } := by
    simp only [Config.posMax] at hk
    rw [Cursor.past, if_neg (by simp only [Config.codeMax]; omega)]
  have hcond : ((c.past k).pos.toNat + n = Config.codeMax) = (c.pos.toNat + (k + n) = Config.codeMax) := by
    rw [hp, Nat.add_assoc]
  generalize hg : c.past k = g at *
  subst hc
  simp only [Cursor.past, hcond, BitVec.add_assoc, BitVec.ofNat_add]

theorem Cursor.advance_past {c : Cursor} {k n : Nat} (hk : c.pos.toNat + k ≤ Config.posMax)
    (h : 2 ≤ n → c.pos.toNat + k + n ≤ Config.posMax) : (c.past k).advance n = c.past (k + n) := by
  by_cases hn : n = 0
  · subst n; simp
  · rw [advance_eq_past hn (by rw [(Cursor.past_toNat hk).1]; exact h), Cursor.past_past hk]

/-- The bytes `x` stand `k` bytes after the cursor, the last of them at byte 65535 or before. -/
structure At (c : Cursor) (k : Nat) (x : Bytes) : Prop where
  bit : c.bit = 0
  eof : c.eof = false
  start : c.pos.toNat + k ≤ Config.posMax
  room : c.pos.toNat + k + x.length ≤ Config.codeMax
  inside : c.pos.toNat + k + x.length ≤ c.buf.len
  bytes : c.buf.slice (c.pos.toNat + k) x.length = x

/-- What follows the first bytes, where something does. -/
theorem At.tail {c : Cursor} {k : Nat} {x y : Bytes} (h : At c k (x ++ y)) (hy : y ≠ []) : At c (k + x.length) y := by
  have hr := h.room
  have hi := h.inside
  have hb := h.bytes
  have hl := List.length_pos_iff.2 hy
  rw [List.length_append] at hr hi hb
  rw [Memory.slice_append] at hb
  refine ⟨h.bit, h.eof, ?_, by omega, by omega, ?_⟩
  · simp only [Config.codeMax, Config.posMax] at *; omega
  · rw [← Nat.add_assoc]; exact (List.append_inj hb (by simp)).2

theorem At.head {c : Cursor} {k : Nat} {x y : Bytes} (h : At c k (x ++ y)) : At c k x := by
  have hr := h.room
  have hi := h.inside
  have hb := h.bytes
  rw [List.length_append] at hr hi hb
  rw [Memory.slice_append] at hb
  exact ⟨h.bit, h.eof, h.start, by omega, by omega, (List.append_inj hb (by simp)).1⟩

/-- The cursor at the bytes. -/
theorem At.cursor {c : Cursor} {k : Nat} {x : Bytes} (h : At c k x) : (c.past k).pos.toNat = c.pos.toNat + k ∧
    (c.past k).eof = false ∧ (c.past k).bit = 0 ∧ (c.past k).buf = c.buf :=
  ⟨(Cursor.past_toNat h.start).1, (Cursor.past_toNat h.start).2.trans h.eof, by simp [h.bit], by simp⟩

/-- What follows the first byte, where something does. -/
theorem At.next {c : Cursor} {k : Nat} {b y : Byte} {x : Bytes} (h : At c k (b :: y :: x)) : At c (k + 1) (y :: x) :=
  At.tail (x := [b]) h (by simp)

/-- A byte at the cursor is what `CurU8()` reads, on byte 65535 as well. -/
theorem At.curU8 {c : Cursor} {k : Nat} {b : Byte} {x : Bytes} (h : At c k (b :: x)) :
    curU8 (c.past k) = .ok b (c.past (k + 1)) := by
  have h1 := At.head (x := [b]) h
  obtain ⟨hp, he, hb, hm⟩ := h1.cursor
  refine curU8_eq_ok.2 ⟨he, hb, by rw [hp, hm]; exact h1.inside, ?_, (Cursor.advance_past h1.start (by omega)).symm⟩
  have := h1.bytes
  rw [hp, hm]
  simpa [Memory.slice] using this.symm

theorem le16_bytes16 (m : Memory) (a : Nat) (v : Offset) (h : m.slice a 2 = bytes16 v) : le16 m a = v := by
  simp only [Memory.slice, bytes16, List.range_succ, List.range_zero, List.nil_append, List.map_cons,
    List.map_nil, Nat.add_zero, List.cons_append, List.cons.injEq, and_true] at h
  obtain ⟨h1, h2⟩ := h
  have hv := v.isLt
  rw [le16, h1, h2]
  apply BitVec.eq_of_toNat_eq
  simp only [BitVec.toNat_ofNat]
  omega

/-- A 16-bit value at the cursor, short of byte 65535, is what `CurU16()` reads. -/
theorem At.curU16 {c : Cursor} {k : Nat} {v : Offset} {x : Bytes} (h : At c k (bytes16 v ++ x))
    (hp : c.pos.toNat + k + 2 ≤ Config.posMax) : curU16 (c.past k) = .ok v (c.past (k + 2)) := by
  have h1 := At.head h
  obtain ⟨e1, e2, e3, e4⟩ := h1.cursor
  refine curU16_eq_ok.2 ⟨e2, e3, by rw [e1]; exact hp, by rw [e1, e4]; exact h1.inside, ?_,
    (Cursor.advance_past h1.start fun _ => hp).symm⟩
  rw [e1, e4]
  exact (le16_bytes16 _ _ _ h1.bytes).symm

/-- A 32-byte block at the cursor, short of byte 65535, is what `CurBlock32()` reads. -/
theorem At.curBlock32 {c : Cursor} {k : Nat} {b : Block32} {x : Bytes} (h : At c k (b.bytes ++ x))
    (hp : c.pos.toNat + k + 32 ≤ Config.posMax) : curBlock32 (c.past k) = .ok b (c.past (k + 32)) := by
  have h1 := At.head h
  obtain ⟨e1, e2, e3, e4⟩ := h1.cursor
  rcases b with ⟨b, hl⟩
  have hi := h1.inside
  have hb := h1.bytes
  simp only [hl] at hi hb
  refine curBlock32_eq_ok.2 ⟨e2, e3, by rw [e1]; exact hp, by rw [e1, e4]; exact hi, ?_,
    (Cursor.advance_past h1.start fun _ => hp).symm⟩
  simp only [blockAt, e1, e4, hb]

/-- A literal at the cursor is what `CurSlice()` reads: it ends short of byte 65535, or is one byte long. -/
theorem At.curSlice {c : Cursor} {k : Nat} {lit x : Bytes} (hl : lit.length < 65536) (h : At c k (encLit lit ++ x))
    (hp : c.pos.toNat + k + 2 + lit.length ≤ Config.posMax ∨ lit.length = 1) :
    curSlice (c.past k) = .ok lit (c.past (k + 2 + lit.length)) := by
  have h1 := At.head h
  have e : (encLit lit).length = 2 + lit.length := by simp [encLit, bytes16]; omega
  obtain ⟨e1, e2, e3, e4⟩ := h1.cursor
  have h2 : At c k (bytes16 (BitVec.ofNat 16 lit.length)) := At.head h1
  have hr := h1.room
  have hi := h1.inside
  have hs := h1.bytes
  rw [e] at hr hi hs
  have hn : (BitVec.ofNat 16 lit.length).toNat = lit.length := by simp; omega
  have hpre : c.pos.toNat + k + 2 ≤ Config.posMax := by simp only [Config.codeMax, Config.posMax] at *; omega
  refine curSlice_eq_ok.2 ⟨e2, e3, by rw [e1]; exact hpre, by rw [e1, e4]; omega, lit.length, ?_, ?_, ?_, ?_, ?_⟩
  · rw [e1, e4, le16_bytes16 _ _ _ h2.bytes, hn]
  · rw [e1]; intro; omega
  · rw [e1, e4]; omega
  · rw [e1, e4]
    rw [Memory.slice_append] at hs
    exact ((List.append_inj hs (by simp [bytes16])).2).symm
  · rw [Cursor.advance_past h1.start fun _ => hpre, Cursor.advance_past (by omega) (by omega)]

/-- A 16-bit read that would end on byte 65535 is out of boundaries. -/
theorem Cursor.checkBytes_two_end {c : Cursor} {k : Nat} (hk : c.pos.toNat + k + 2 = Config.codeMax) (he : c.eof = false)
    (hb : c.bit = 0) : (c.past k).checkBytes 2 = some (.fail (.outOfBoundaries 65536)) := by
  simp only [Config.codeMax] at hk
  obtain ⟨h1, h2⟩ := Cursor.past_toNat (c := c) (n := k) (by simp only [Config.posMax]; omega)
  simp [Cursor.checkBytes, h1, h2, he, hb, show c.pos.toNat + k = 65534 by omega, Config.posMax]

/-- A literal that ends on byte 65535, but for a payload of one byte, is out of boundaries as well. -/
theorem At.curSlice_end {c : Cursor} {k : Nat} {lit x : Bytes} (hl : lit.length < 65536) (h : At c k (encLit lit ++ x))
    (h1 : lit.length ≠ 1) (hend : c.pos.toNat + k + 2 + lit.length = Config.codeMax) :
    Machine.curSlice (c.past k) = .stop (.fail (.outOfBoundaries 65536)) (c.past k) := by
  have h0 := At.head h
  obtain ⟨e1, e2, e3, e4⟩ := h0.cursor
  have hin := h0.inside
  rw [show (encLit lit).length = 2 + lit.length by simp [encLit, bytes16]; omega] at hin
  simp only [Config.codeMax] at hend
  by_cases hz : lit.length = 0
  · rw [Machine.curSlice, Cursor.checkBytes_two_end (by simp only [Config.codeMax]; omega) h.eof h.bit]
  · have hv : (le16 c.buf (c.pos.toNat + k)).toNat = lit.length := by
      rw [le16_bytes16 _ _ _ (At.head h0).bytes, BitVec.toNat_ofNat]; omega
    have hc : (c.past k).checkBytes 2 = none := by
      rw [Cursor.checkBytes, e1, e2, e3, e4, if_neg (by simp), if_neg (by simp), if_neg (by simp),
        if_neg (by simp only [Config.posMax]; omega), if_neg (by omega)]
    rw [Machine.curSlice, hc]
    simp only [e1, e4, hv, Config.posMax, failAt]
    rw [if_pos (by omega), hend]

/-! #### A format reads the bytes the encoder writes

Each lemma speaks of the cursor `c` at the opcode byte, so that the operands stand one byte after it. -/

variable {d : DigestTable} {c : Cursor}

theorem readRow_fj {mk : Offset → Instr} {off : Offset} (h : At c 1 (encOff off))
    (hp : c.pos.toNat + 3 ≤ Config.posMax) : readRow d (.fj mk) (c.past 1) = .ok (mk off) (c.past 3) := by
  simp [readRow, At.curU16 (x := []) (by simpa [encOff] using h) hp]

theorem readRow_fl {mk : LibId → Offset → Instr} {lib : LibId} {off : Offset} (h : At c 1 (lib.bytes ++ encOff off))
    (hp : c.pos.toNat + 35 ≤ Config.posMax) : readRow d (.fl mk) (c.past 1) = .ok (mk lib off) (c.past 35) := by
  have t := At.tail h (by simp [encOff, bytes16])
  rw [lib.len] at t
  have h1 := At.curBlock32 h (by omega)
  have h2 := At.curU16 (x := []) (by simpa [encOff] using t) hp
  simp only [Nat.reduceAdd] at h1 h2
  simp [readRow, h1, h2]

theorem readRow_fx {mk : RegRef → RegRef → Bool → Bool → Instr} {r1 r2 : RegRef} {f1 f2 : Bool} {op : Byte}
    (h : At c 1 (encFX op r1 r2 f1 f2).tail) : readRow d (.fx mk) (c.past 1) = .ok (mk r1 r2 f1 f2) (c.past 4) := by
  have h1 := At.curU8 h
  have h2 := (At.next h).curU8
  have h3 := (At.next (At.next h)).curU8
  have e := flagsByte_fields r1.idx f1 f2
  have e1 := clsField_byteOf r1.bank r2.bank
  have e2 : indexField (byteOf r2.idx.val) 0 = r2.idx ∧ reservedZero (byteOf r2.idx.val) 5 = true :=
    idxByte_fields r2.idx
  simp only [Nat.reduceAdd] at h1 h2 h3
  simp [readRow, operandByte, h1, h2, h3, stage4, e, e1, e2]

theorem readRow_fa {apLegal : Bool} {mk : ABank → Fin 32 → Instr} {b : ABank} {i : Fin 32}
    (hl : (apLegal || b != .ap) = true) (h : At c 1 [selIdx b.code i]) :
    readRow d (.fa apLegal mk) (c.past 1) = .ok (mk b i) (c.past 2) := by
  simp only [readRow, operandByte, h.curU8, CurOut.bind_ok, stage4, waField_selIdx, hl, if_true]

theorem readRow_fr {mk : RBank → Fin 32 → Instr} {b : RBank} {i : Fin 32} (h : At c 1 [selIdx b.code i]) :
    readRow d (.fr mk) (c.past 1) = .ok (mk b i) (c.past 2) := by
  simp [readRow, operandByte, h.curU8, stage4R, stage4, wrField_selIdx]

theorem readRow_fs {mk : Fin 32 → Instr} {i : Fin 32} (h : At c 1 [idxByte i]) :
    readRow d (.fs mk) (c.past 1) = .ok (mk i) (c.past 2) := by
  simp [readRow, operandByte, h.curU8, stage4, idxByte_fields]

theorem litOk_spec {m : Option Nat} {lit : Bytes} (h : litOk m lit = true) :
    lit.length < 65536 ∧ litFits m lit = true := by
  simp only [litOk, Config.litMax, Bool.and_eq_true, decide_eq_true_eq] at h
  exact ⟨by omega, h.2⟩

theorem readRow_fal {mk : ABank → Fin 32 → Bytes → Instr} {b : ABank} {i : Fin 32} {lit : Bytes}
    (hl : litOk b.bytes lit = true) (h : At c 1 (selIdx b.code i :: encLit lit))
    (hp : c.pos.toNat + 4 + lit.length ≤ Config.posMax ∨ lit.length = 1) :
    readRow d (.fal mk) (c.past 1) = .ok (mk b i lit) (c.past (4 + lit.length)) := by
  obtain ⟨hlen, hfit⟩ := litOk_spec hl
  have h1 := At.curU8 h
  have h2 := At.curSlice (k := 2) (x := []) hlen
    (by rw [List.append_nil]; exact At.tail (x := [_]) h (by simp [encLit, bytes16])) (by omega)
  simp only [Nat.reduceAdd] at h1 h2
  simp [readRow, operandByte, h1, h2, stage4, waField_selIdx, hfit]

theorem readRow_frl {mk : RBank → Fin 32 → Bytes → Instr} {b : RBank} {i : Fin 32} {lit : Bytes}
    (hl : litOk (some b.bytes) lit = true) (h : At c 1 (selIdx b.code i :: encLit lit))
    (hp : c.pos.toNat + 4 + lit.length ≤ Config.posMax ∨ lit.length = 1) :
    readRow d (.frl mk) (c.past 1) = .ok (mk b i lit) (c.past (4 + lit.length)) := by
  obtain ⟨hlen, hfit⟩ := litOk_spec hl
  have h1 := At.curU8 h
  have h2 := At.curSlice (k := 2) (x := []) hlen
    (by rw [List.append_nil]; exact At.tail (x := [_]) h (by simp [encLit, bytes16])) (by omega)
  simp only [Nat.reduceAdd] at h1 h2
  simp [readRow, operandByte, h1, h2, stage4R, stage4, wrField_selIdx, hfit]

theorem readRow_fsl {mk : Fin 32 → Bytes → Instr} {i : Fin 32} {lit : Bytes}
    (hl : litOk none lit = true) (h : At c 1 (idxByte i :: encLit lit))
    (hp : c.pos.toNat + 4 + lit.length ≤ Config.posMax ∨ lit.length = 1) :
    readRow d (.fsl mk) (c.past 1) = .ok (mk i lit) (c.past (4 + lit.length)) := by
  obtain ⟨hlen, -⟩ := litOk_spec hl
  have h1 := At.curU8 h
  have h2 := At.curSlice (k := 2) (x := []) hlen
    (by rw [List.append_nil]; exact At.tail (x := [_]) h (by simp [encLit, bytes16])) (by omega)
  simp only [Nat.reduceAdd] at h1 h2
  simp [readRow, operandByte, h1, h2, stage4, idxByte_fields]

theorem readRow_fa2 {mk : ABank → Fin 32 → Fin 32 → Instr} {b : ABank} {i1 i2 : Fin 32}
    (h : At c 1 [selIdx b.code i1, idxByte i2]) : readRow d (.fa2 mk) (c.past 1) = .ok (mk b i1 i2) (c.past 3) := by
  have h1 := h.curU8
  have h2 := h.next.curU8
  simp only [Nat.reduceAdd] at h1 h2
  simp [readRow, operandByte, h1, h2, stage4, waField_selIdx, idxByte_fields]

theorem readRow_fr2 {mk : RBank → Fin 32 → Fin 32 → Instr} {b : RBank} {i1 i2 : Fin 32}
    (h : At c 1 [selIdx b.code i1, idxByte i2]) : readRow d (.fr2 mk) (c.past 1) = .ok (mk b i1 i2) (c.past 3) := by
  have h1 := h.curU8
  have h2 := h.next.curU8
  simp only [Nat.reduceAdd] at h1 h2
  simp [readRow, operandByte, h1, h2, stage4R, stage4, wrField_selIdx, idxByte_fields]

theorem readRow_fm2 {mk : Mode → ABank → Fin 32 → Fin 32 → Instr} {m : Mode} {b : ABank} {i1 i2 : Fin 32}
    (hm : m.agrees b = true) (h : At c 1 [modeByte m, selIdx b.code i1, idxByte i2]) :
    readRow d (.fm2 mk) (c.past 1) = .ok (mk m b i1 i2) (c.past 4) := by
  have h1 := h.curU8
  have h2 := h.next.curU8
  have h3 := h.next.next.curU8
  simp only [Nat.reduceAdd] at h1 h2 h3
  simp [readRow, operandByte, h1, h2, h3, stage4, modeByte_fields, waField_selIdx, idxByte_fields, hm]

theorem readRow_fm1 {mk : Mode → ABank → Fin 32 → Instr} {m : Mode} {b : ABank} {i1 : Fin 32}
    (hm : m.agrees b = true) (h : At c 1 [modeByte m, selIdx b.code i1]) :
    readRow d (.fm1 mk) (c.past 1) = .ok (mk m b i1) (c.past 3) := by
  have h1 := h.curU8
  have h2 := h.next.curU8
  simp only [Nat.reduceAdd] at h1 h2
  simp [readRow, operandByte, h1, h2, stage4, modeByte_fields, waField_selIdx, hm]

theorem readRow_fb3 {mk : ABank → Fin 32 → Fin 32 → Fin 8 → Instr} {b : ABank} {i1 i2 : Fin 32} {dst : Fin 8}
    (hb : (b != .ap) = true) (h : At c 1 [selIdx b.code i1, idxDest i2 dst]) :
    readRow d (.fb3 mk) (c.past 1) = .ok (mk b i1 i2 dst) (c.past 3) := by
  have h1 := h.curU8
  have h2 := h.next.curU8
  simp only [Nat.reduceAdd] at h1 h2
  simp only [readRow, operandByte, h1, h2, CurOut.bind_ok, stage4, waField_selIdx, idxDest_fields, hb, if_true]

theorem readRow_fd {alg src : Fin 32} {off : Offset} {b : RBank} {dst : Fin 32} {clr : Bool} (hd : d[alg] = some b)
    (h : At c 1 (byteOf (src.val + 32 * bitOf clr) :: selIdx b.code dst :: encOff off))
    (hp : c.pos.toNat + 5 ≤ Config.posMax) :
    readRow d (.fd alg) (c.past 1) = .ok (.dgst alg src off b dst clr) (c.past 5) := by
  have h1 := h.curU8
  have h2 := h.next.curU8
  have h3 := At.curU16 (x := []) (k := 3) (by simpa [encOff, bytes16] using h.next.next) hp
  simp only [Nat.reduceAdd] at h1 h2 h3
  simp [readRow, operandByte, h1, h2, h3, stage4R, stage4, flagByte_fields, wrField_selIdx, hd]

theorem readRow_fe2 {mk : Fin 32 → Fin 8 → Instr} {i : Fin 32} {dst : Fin 8} (h : At c 1 [idxDest i dst]) :
    readRow d (.fe2 mk) (c.past 1) = .ok (mk i dst) (c.past 2) := by
  simp [readRow, operandByte, h.curU8, idxDest_fields]

theorem readRow_fe3 {mk : Fin 32 → Fin 32 → Fin 8 → Instr} {i1 i2 : Fin 32} {dst : Fin 8} {op : Byte}
    (h : At c 1 (encFE3 op i1 i2 dst false).tail) : readRow d (.fe3 mk) (c.past 1) = .ok (mk i1 i2 dst) (c.past 3) := by
  have h1 := At.curU8 h
  have h2 := (At.next h).curU8
  have e : byteOf (i2.val + 32 * bitOf false) = idxByte i2 := by simp [bitOf, idxByte]
  rw [e] at h2
  simp only [Nat.reduceAdd] at h1 h2
  simp [readRow, operandByte, h1, h2, stage4, idxDest_fields, idxByte_fields]

theorem readRow_fe3f {mk : Fin 32 → Fin 32 → Fin 8 → Bool → Instr} {i1 i2 : Fin 32} {dst : Fin 8} {f : Bool} {op : Byte}
    (h : At c 1 (encFE3 op i1 i2 dst f).tail) : readRow d (.fe3f mk) (c.past 1) = .ok (mk i1 i2 dst f) (c.past 3) := by
  have h1 := At.curU8 h
  have h2 := (At.next h).curU8
  simp only [Nat.reduceAdd] at h1 h2
  simp [readRow, operandByte, h1, h2, stage4, idxDest_fields, flagByte_fields]

/-- An instruction whose opcode byte has the row `row`, and whose operand bytes that row reads, decodes. -/
theorem decode_of_row {op : Byte} {row : Row} {x : Bytes} {i : Instr} {n : Nat} (hr : opcodeRow d op = some row)
    (h : At c 0 (op :: x)) (hx : readRow d row (c.past 1) = .ok i (c.past n)) : decode d c = .ok i (c.past n) := by
  have h1 := h.curU8
  simp only [Cursor.past_zero, Nat.reduceAdd] at h1
  simp [decode, h1, hr, hx]

end Sys2Proof.Machine
end

