-- ==== Sys2Proof/Laws/DecodeReads.lean ====
section
/-! SUPPORT. The decoder format by format, the other way round: a format that reads an instruction has read exactly the
bytes the encoder writes for its fields (spec/30_encoding.md R109, R112). -/

namespace Sys2Proof.Machine

/-- The bytes `x` stood at `c`, and `c'` is the cursor after them: at the sentinel when they end on byte 65535. -/
structure Reads (c : Cursor) (x : Bytes) (c' : Cursor) : Prop where
  eof : c.eof = false
  bit : c.bit = 0
  inside : c.pos.toNat + x.length ≤ c.buf.len
  room : c.pos.toNat + x.length ≤ Config.codeMax
  bytes : c.buf.slice c.pos.toNat x.length = x
  after : c' = c.past x.length

theorem Reads.buf {c c' : Cursor} {x : Bytes} (h : Reads c x c') : c'.buf = c.buf := by rw [h.after]; simp

/-- A read that leaves the sentinel clear ended short of byte 65535. -/
theorem Reads.pos {c c' : Cursor} {x : Bytes} (h : Reads c x c') (he : c'.eof = false) :
    c.pos.toNat + x.length ≤ Config.posMax ∧ c'.pos.toNat = c.pos.toNat + x.length := by
  have hr := h.room
  by_cases hx : c.pos.toNat + x.length = Config.codeMax
  · rw [h.after, Cursor.past, if_pos hx] at he
    cases he
  · simp only [Config.codeMax, Config.posMax] at *
    have hle : c.pos.toNat + x.length ≤ 65535 := by omega
    exact ⟨hle, by rw [h.after]; exact (Cursor.past_toNat hle).1⟩

/-- One read after another reads the bytes of both. -/
theorem Reads.trans {c c1 c2 : Cursor} {x y : Bytes} (h : Reads c x c1) (h' : Reads c1 y c2) : Reads c (x ++ y) c2 := by
  obtain ⟨hle, hp⟩ := h.pos h'.eof
  have hb := h.buf
  have hi := h'.inside
  have hro := h'.room
  have hby := h'.bytes
  rw [hb, hp] at hi hby
  rw [hp] at hro
  refine ⟨h.eof, h.bit, by simp; omega, by rw [List.length_append]; omega, ?_, ?_⟩
  · rw [List.length_append, Memory.slice_append, h.bytes, hby]
  · rw [h'.after, h.after, Cursor.past_past hle, List.length_append]

theorem curU8_reads {c c' : Cursor} {b : Byte} (h : curU8 c = .ok b c') : Reads c [b] c' := by
  obtain ⟨he, hb, hi, hv, rfl⟩ := curU8_eq_ok.1 h
  have := c.pos.isLt
  refine ⟨he, hb, hi, by simp only [List.length_cons, List.length_nil, Config.codeMax]; omega,
    by simp [Memory.slice, hv], ?_⟩
  exact advance_eq_past (by omega) (by omega)

theorem bytes16_le16 (m : Memory) (a : Nat) : bytes16 (le16 m a) = m.slice a 2 := by
  have h0 := (m.byte a).isLt
  have h1 := (m.byte (a + 1)).isLt
  simp only [bytes16, le16, Memory.slice, List.range_succ, List.range_zero, List.nil_append, List.map_cons,
    List.map_nil, Nat.add_zero, List.cons_append, BitVec.toNat_ofNat, List.cons.injEq, and_true]
  constructor
  · apply BitVec.eq_of_toNat_eq; simp only [BitVec.toNat_ofNat]; omega
  · apply BitVec.eq_of_toNat_eq; simp only [BitVec.toNat_ofNat]; omega

theorem curU16_reads {c c' : Cursor} {v : Offset} (h : curU16 c = .ok v c') : Reads c (encOff v) c' := by
  obtain ⟨he, hb, hp, hi, rfl, rfl⟩ := curU16_eq_ok.1 h
  simp only [Config.posMax] at hp
  refine ⟨he, hb, hi, by simp only [encOff, bytes16, List.length_cons, List.length_nil, Config.codeMax]; omega, (bytes16_le16 _ _).symm, ?_⟩
  exact advance_eq_past (by omega) (fun _ => hp)

theorem curBlock32_reads {c c' : Cursor} {k : Block32} (h : curBlock32 c = .ok k c') : Reads c k.bytes c' := by
  obtain ⟨he, hb, hp, hi, rfl, rfl⟩ := curBlock32_eq_ok.1 h
  simp only [Config.posMax] at hp
  have hl : (blockAt c.buf c.pos.toNat).bytes.length = 32 := by simp [blockAt]
  refine ⟨he, hb, by rw [hl]; exact hi, by rw [hl]; simp only [Config.codeMax]; omega, by rw [hl]; rfl, ?_⟩
  rw [hl]
  exact advance_eq_past (by omega) (fun _ => hp)

/-- A slice read is the bytes of its literal form; its length is bounded by the offset range. -/
theorem curSlice_reads {c c' : Cursor} {x : Bytes} (h : curSlice c = .ok x c') :
    Reads c (encLit x) c' ∧ (2 ≤ x.length → c.pos.toNat + 2 + x.length ≤ Config.posMax) := by
  obtain ⟨he, hb, hp, hi, l, hl, h2, hlen, rfl, rfl⟩ := curSlice_eq_ok.1 h
  simp only [Config.posMax] at hp h2 ⊢
  have hlt : l < 65536 := hl ▸ BitVec.isLt _
  have hx : (c.buf.slice (c.pos.toNat + 2) l).length = l := by simp
  have hv : BitVec.ofNat 16 l = le16 c.buf c.pos.toNat := by
    apply BitVec.eq_of_toNat_eq; rw [BitVec.toNat_ofNat, ← hl]; omega
  have e : (encLit (c.buf.slice (c.pos.toNat + 2) l)).length = 2 + l := by simp [encLit, bytes16]; omega
  refine ⟨⟨he, hb, by rw [e]; omega, by rw [e]; simp only [Config.codeMax]; omega, ?_, ?_⟩, fun h => by
    rw [hx] at h ⊢; exact h2 h⟩
  · rw [e, Memory.slice_append, encLit, hx, hv, bytes16_le16]
  · rw [e]
    have h2' : c.pos.toNat + 2 ≤ Config.posMax := by simp only [Config.posMax]; omega
    rw [← Cursor.past_past h2', ← advance_eq_past (by omega) fun _ => h2']
    rcases Nat.eq_zero_or_pos l with rfl | hpos
    · simp
    · refine advance_eq_past (by omega) fun h => ?_
      rw [advance_eq_past (by omega) fun _ => h2', (Cursor.past_toNat h2').1]
      exact h2 h

/-! #### What a format has read -/

theorem stage4_eq_ok {legal : Bool} {i i' : Instr} {c c' : Cursor} :
    stage4 legal i c = .ok i' c' ↔ legal = true ∧ i = i' ∧ c = c' := by
  unfold stage4 failAt
  cases legal <;> simp

theorem stage4R_eq_ok {rb : Option RBank} {legal : RBank → Bool} {mk : RBank → Instr} {i : Instr} {c c' : Cursor} :
    stage4R rb legal mk c = .ok i c' ↔ ∃ b, rb = some b ∧ legal b = true ∧ mk b = i ∧ c = c' := by
  unfold stage4R failAt
  cases rb <;> simp [stage4_eq_ok]

variable {d : DigestTable} {c c' : Cursor} {i : Instr}

theorem readRow_fj_reads {mk : Offset → Instr} (h : readRow d (.fj mk) c = .ok i c') :
    ∃ off, i = mk off ∧ Reads c (encOff off) c' := by
  simp only [readRow, CurOut.bind_eq_ok, CurOut.ok.injEq] at h
  obtain ⟨off, c1, h1, rfl, rfl⟩ := h
  exact ⟨off, rfl, curU16_reads h1⟩

theorem readRow_fl_reads {mk : LibId → Offset → Instr} (h : readRow d (.fl mk) c = .ok i c') :
    ∃ lib off, i = mk lib off ∧ Reads c (lib.bytes ++ encOff off) c' := by
  simp only [readRow, CurOut.bind_eq_ok, CurOut.ok.injEq] at h
  obtain ⟨lib, c1, h1, off, c2, h2, rfl, rfl⟩ := h
  exact ⟨lib, off, rfl, (curBlock32_reads h1).trans (curU16_reads h2)⟩

theorem readRow_fx_reads {mk : RegRef → RegRef → Bool → Bool → Instr} {op : Byte}
    (h : readRow d (.fx mk) c = .ok i c') :
    ∃ r1 r2 f1 f2, i = mk r1 r2 f1 f2 ∧ Reads c (encFX op r1 r2 f1 f2).tail c' := by
  simp only [readRow, operandByte, CurOut.bind_eq_ok, stage4_eq_ok, Bool.and_eq_true] at h
  obtain ⟨b1, c1, h1, b2, c2, h2, b3, c3, h3, ⟨l1, l2⟩, rfl, rfl⟩ := h
  refine ⟨_, _, _, _, rfl, ?_⟩
  have e3 : byteOf (indexField b3 0).val = b3 := idxByte_indexField b3 l2
  simp only [encFX, List.tail_cons, byteOf_clsField, byteOf_flags b2 l1, e3]
  exact (curU8_reads h1).trans ((curU8_reads h2).trans (curU8_reads h3))

theorem readRow_fa_reads {apLegal : Bool} {mk : ABank → Fin 32 → Instr} (h : readRow d (.fa apLegal mk) c = .ok i c') :
    ∃ b j, i = mk b j ∧ (apLegal || b != .ap) = true ∧ Reads c [selIdx b.code j] c' := by
  simp only [readRow, operandByte, CurOut.bind_eq_ok, stage4_eq_ok] at h
  obtain ⟨b1, c1, h1, l, rfl, rfl⟩ := h
  exact ⟨_, _, rfl, l, by rw [selIdx_waField]; exact curU8_reads h1⟩

theorem readRow_fr_reads {mk : RBank → Fin 32 → Instr} (h : readRow d (.fr mk) c = .ok i c') :
    ∃ b j, i = mk b j ∧ Reads c [selIdx b.code j] c' := by
  simp only [readRow, operandByte, CurOut.bind_eq_ok, stage4R_eq_ok] at h
  obtain ⟨b1, c1, h1, b, hb, -, rfl, rfl⟩ := h
  exact ⟨_, _, rfl, by rw [selIdx_wrField _ _ hb]; exact curU8_reads h1⟩

theorem readRow_fs_reads {mk : Fin 32 → Instr} (h : readRow d (.fs mk) c = .ok i c') :
    ∃ j, i = mk j ∧ Reads c [idxByte j] c' := by
  simp only [readRow, operandByte, CurOut.bind_eq_ok, stage4_eq_ok] at h
  obtain ⟨b1, c1, h1, l, rfl, rfl⟩ := h
  exact ⟨_, rfl, by rw [idxByte_indexField _ l]; exact curU8_reads h1⟩

/-- A literal read after the opcode byte and one operand byte is within the bounds of `litOk`. -/
theorem litOk_of_slice {m : Option Nat} {c1 c2 : Cursor} {b : Byte} {lit : Bytes} (hc : 1 ≤ c.pos.toNat)
    (h1 : curU8 c = .ok b c1) (h2 : curSlice c1 = .ok lit c2) (hf : litFits m lit = true) : litOk m lit = true := by
  have r1 := curU8_reads h1
  obtain ⟨r2, hl⟩ := curSlice_reads h2
  have hp := (r1.pos r2.eof).2
  simp only [litOk, Config.litMax, Config.posMax, Bool.and_eq_true, decide_eq_true_eq, List.length_singleton] at *
  refine ⟨?_, hf⟩
  by_cases h : 2 ≤ lit.length
  · have := hl h; omega
  · omega

theorem readRow_fal_reads {mk : ABank → Fin 32 → Bytes → Instr} (hc : 1 ≤ c.pos.toNat)
    (h : readRow d (.fal mk) c = .ok i c') :
    ∃ b j lit, i = mk b j lit ∧ litOk b.bytes lit = true ∧ Reads c (selIdx b.code j :: encLit lit) c' := by
  simp only [readRow, operandByte, CurOut.bind_eq_ok, stage4_eq_ok] at h
  obtain ⟨b1, c1, h1, lit, c2, h2, l, rfl, rfl⟩ := h
  refine ⟨_, _, _, rfl, litOk_of_slice hc h1 h2 l, ?_⟩
  rw [selIdx_waField]
  exact (curU8_reads h1).trans (curSlice_reads h2).1

theorem readRow_frl_reads {mk : RBank → Fin 32 → Bytes → Instr} (hc : 1 ≤ c.pos.toNat)
    (h : readRow d (.frl mk) c = .ok i c') :
    ∃ b j lit, i = mk b j lit ∧ litOk (some b.bytes) lit = true ∧ Reads c (selIdx b.code j :: encLit lit) c' := by
  simp only [readRow, operandByte, CurOut.bind_eq_ok, stage4R_eq_ok] at h
  obtain ⟨b1, c1, h1, lit, c2, h2, b, hb, l, rfl, rfl⟩ := h
  refine ⟨_, _, _, rfl, litOk_of_slice hc h1 h2 l, ?_⟩
  rw [selIdx_wrField _ _ hb]
  exact (curU8_reads h1).trans (curSlice_reads h2).1

theorem readRow_fsl_reads {mk : Fin 32 → Bytes → Instr} (hc : 1 ≤ c.pos.toNat)
    (h : readRow d (.fsl mk) c = .ok i c') :
    ∃ j lit, i = mk j lit ∧ litOk none lit = true ∧ Reads c (idxByte j :: encLit lit) c' := by
  simp only [readRow, operandByte, CurOut.bind_eq_ok, stage4_eq_ok] at h
  obtain ⟨b1, c1, h1, lit, c2, h2, l, rfl, rfl⟩ := h
  refine ⟨_, _, rfl, litOk_of_slice (m := none) hc h1 h2 rfl, ?_⟩
  rw [idxByte_indexField _ l]
  exact (curU8_reads h1).trans (curSlice_reads h2).1

theorem readRow_fa2_reads {mk : ABank → Fin 32 → Fin 32 → Instr} (h : readRow d (.fa2 mk) c = .ok i c') :
    ∃ b i1 i2, i = mk b i1 i2 ∧ Reads c [selIdx b.code i1, idxByte i2] c' := by
  simp only [readRow, operandByte, CurOut.bind_eq_ok, stage4_eq_ok] at h
  obtain ⟨b1, c1, h1, b2, c2, h2, l, rfl, rfl⟩ := h
  exact ⟨_, _, _, rfl, by rw [selIdx_waField, idxByte_indexField _ l]; exact (curU8_reads h1).trans (curU8_reads h2)⟩

theorem readRow_fr2_reads {mk : RBank → Fin 32 → Fin 32 → Instr} (h : readRow d (.fr2 mk) c = .ok i c') :
    ∃ b i1 i2, i = mk b i1 i2 ∧ Reads c [selIdx b.code i1, idxByte i2] c' := by
  simp only [readRow, operandByte, CurOut.bind_eq_ok, stage4R_eq_ok] at h
  obtain ⟨b1, c1, h1, b2, c2, h2, b, hb, l, rfl, rfl⟩ := h
  exact ⟨_, _, _, rfl, by rw [selIdx_wrField _ _ hb, idxByte_indexField _ l]; exact (curU8_reads h1).trans (curU8_reads h2)⟩

theorem readRow_fm2_reads {mk : Mode → ABank → Fin 32 → Fin 32 → Instr} (h : readRow d (.fm2 mk) c = .ok i c') :
    ∃ m b i1 i2, i = mk m b i1 i2 ∧ m.agrees b = true ∧ Reads c [modeByte m, selIdx b.code i1, idxByte i2] c' := by
  simp only [readRow, operandByte, CurOut.bind_eq_ok, stage4_eq_ok, Bool.and_eq_true] at h
  obtain ⟨b1, c1, h1, b2, c2, h2, b3, c3, h3, ⟨⟨l1, l2⟩, l3⟩, rfl, rfl⟩ := h
  refine ⟨_, _, _, _, rfl, l3, ?_⟩
  rw [modeByte_modeField _ l1, selIdx_waField, idxByte_indexField _ l2]
  exact (curU8_reads h1).trans ((curU8_reads h2).trans (curU8_reads h3))

theorem readRow_fm1_reads {mk : Mode → ABank → Fin 32 → Instr} (h : readRow d (.fm1 mk) c = .ok i c') :
    ∃ m b i1, i = mk m b i1 ∧ m.agrees b = true ∧ Reads c [modeByte m, selIdx b.code i1] c' := by
  simp only [readRow, operandByte, CurOut.bind_eq_ok, stage4_eq_ok, Bool.and_eq_true] at h
  obtain ⟨b1, c1, h1, b2, c2, h2, ⟨l1, l2⟩, rfl, rfl⟩ := h
  refine ⟨_, _, _, rfl, l2, ?_⟩
  rw [modeByte_modeField _ l1, selIdx_waField]
  exact (curU8_reads h1).trans (curU8_reads h2)

theorem readRow_fb3_reads {mk : ABank → Fin 32 → Fin 32 → Fin 8 → Instr} (h : readRow d (.fb3 mk) c = .ok i c') :
    ∃ b i1 i2 dst, i = mk b i1 i2 dst ∧ (b != .ap) = true ∧ Reads c [selIdx b.code i1, idxDest i2 dst] c' := by
  simp only [readRow, operandByte, CurOut.bind_eq_ok, stage4_eq_ok] at h
  obtain ⟨b1, c1, h1, b2, c2, h2, l, rfl, rfl⟩ := h
  exact ⟨_, _, _, _, rfl, l, by rw [selIdx_waField, idxDest_destField]; exact (curU8_reads h1).trans (curU8_reads h2)⟩

theorem readRow_fd_reads {alg : Fin 32} (h : readRow d (.fd alg) c = .ok i c') :
    ∃ src off b dst clr, i = .dgst alg src off b dst clr ∧ d[alg] = some b ∧
      Reads c (byteOf (src.val + 32 * bitOf clr) :: selIdx b.code dst :: encOff off) c' := by
  simp only [readRow, operandByte, CurOut.bind_eq_ok, stage4R_eq_ok, Bool.and_eq_true, beq_iff_eq] at h
  obtain ⟨b1, c1, h1, b2, c2, h2, off, c3, h3, b, hb, ⟨l1, l2⟩, rfl, rfl⟩ := h
  refine ⟨_, _, _, _, _, rfl, l2, ?_⟩
  rw [byteOf_flag _ l1, selIdx_wrField _ _ hb]
  exact (curU8_reads h1).trans ((curU8_reads h2).trans (curU16_reads h3))

theorem readRow_fe2_reads {mk : Fin 32 → Fin 8 → Instr} (h : readRow d (.fe2 mk) c = .ok i c') :
    ∃ j dst, i = mk j dst ∧ Reads c [idxDest j dst] c' := by
  simp only [readRow, operandByte, CurOut.bind_eq_ok, CurOut.ok.injEq] at h
  obtain ⟨b1, c1, h1, rfl, rfl⟩ := h
  exact ⟨_, _, rfl, by rw [idxDest_destField]; exact curU8_reads h1⟩

theorem readRow_fe3_reads {mk : Fin 32 → Fin 32 → Fin 8 → Instr} {op : Byte} (h : readRow d (.fe3 mk) c = .ok i c') :
    ∃ i1 i2 dst, i = mk i1 i2 dst ∧ Reads c (encFE3 op i1 i2 dst false).tail c' := by
  simp only [readRow, operandByte, CurOut.bind_eq_ok, stage4_eq_ok] at h
  obtain ⟨b1, c1, h1, b2, c2, h2, l, rfl, rfl⟩ := h
  refine ⟨_, _, _, rfl, ?_⟩
  have e : byteOf ((indexField b2 0).val + 32 * bitOf false) = b2 := by
    rw [show (indexField b2 0).val + 32 * bitOf false = (indexField b2 0).val by simp [bitOf]]
    exact idxByte_indexField _ l
  simp only [encFE3, List.tail_cons, idxDest_destField, e]
  exact (curU8_reads h1).trans (curU8_reads h2)

theorem readRow_fe3f_reads {mk : Fin 32 → Fin 32 → Fin 8 → Bool → Instr} {op : Byte}
    (h : readRow d (.fe3f mk) c = .ok i c') :
    ∃ i1 i2 dst f, i = mk i1 i2 dst f ∧ Reads c (encFE3 op i1 i2 dst f).tail c' := by
  simp only [readRow, operandByte, CurOut.bind_eq_ok, stage4_eq_ok] at h
  obtain ⟨b1, c1, h1, b2, c2, h2, l, rfl, rfl⟩ := h
  refine ⟨_, _, _, _, rfl, ?_⟩
  simp only [encFE3, List.tail_cons, idxDest_destField, byteOf_flag _ l]
  exact (curU8_reads h1).trans (curU8_reads h2)

/-- Every opcode byte is its category and its sub-opcode. -/
theorem opByte_fields : ∀ op : Byte, opByte (bitField op 5 3) (bitField op 0 5) = op := by decide

/-- A successful decode is an opcode byte with a row and that row's operands. -/
theorem decode_eq_ok (h : decode d c = .ok i c') :
    ∃ op row c1, Reads c [op] c1 ∧ opcodeRow d op = some row ∧ readRow d row c1 = .ok i c' := by
  simp only [decode, CurOut.bind_eq_ok] at h
  obtain ⟨op, c1, h1, h2⟩ := h
  cases hr : opcodeRow d op with
  | none => simp [hr, failAt] at h2
  | some row => rw [hr] at h2; exact ⟨op, row, c1, curU8_reads h1, hr, h2⟩

end Sys2Proof.Machine
end

