-- ==== Sys2Proof/Laws/State.lean ====
section
/-! SUPPORT. One lemma per field of State per named update, each true by rfl, and what the updates do to a slot and to
a buffer: no proof needs to unfold a record update. -/

namespace Sys2Proof.Machine

variable (s : State)

/-! #### setSlot -/

@[simp] theorem State.setSlot_st0 (b : Bank) (i : Fin 32) (v : Slot) : (s.setSlot b i v).st0 = s.st0 := rfl
@[simp] theorem State.setSlot_cm0 (b : Bank) (i : Fin 32) (v : Slot) : (s.setSlot b i v).cm0 = s.cm0 := rfl
@[simp] theorem State.setSlot_cy0 (b : Bank) (i : Fin 32) (v : Slot) : (s.setSlot b i v).cy0 = s.cy0 := rfl
@[simp] theorem State.setSlot_cs0 (b : Bank) (i : Fin 32) (v : Slot) : (s.setSlot b i v).cs0 = s.cs0 := rfl
@[simp] theorem State.setSlot_libdepth (b : Bank) (i : Fin 32) (v : Slot) : (s.setSlot b i v).libdepth = s.libdepth := rfl
@[simp] theorem State.setSlot_curlib (b : Bank) (i : Fin 32) (v : Slot) : (s.setSlot b i v).curlib = s.curlib := rfl
@[simp] theorem State.setSlot_pos (b : Bank) (i : Fin 32) (v : Slot) : (s.setSlot b i v).pos = s.pos := rfl
@[simp] theorem State.setSlot_bit (b : Bank) (i : Fin 32) (v : Slot) : (s.setSlot b i v).bit = s.bit := rfl
@[simp] theorem State.setSlot_eof (b : Bank) (i : Fin 32) (v : Slot) : (s.setSlot b i v).eof = s.eof := rfl
@[simp] theorem State.setSlot_ipc (b : Bank) (i : Fin 32) (v : Slot) : (s.setSlot b i v).ipc = s.ipc := rfl
@[simp] theorem State.setSlot_run (b : Bank) (i : Fin 32) (v : Slot) : (s.setSlot b i v).run = s.run := rfl
@[simp] theorem State.setSlot_flt (b : Bank) (i : Fin 32) (v : Slot) : (s.setSlot b i v).flt = s.flt := rfl
@[simp] theorem State.setSlot_code (b : Bank) (i : Fin 32) (v : Slot) : (s.setSlot b i v).code = s.code := rfl
@[simp] theorem State.setSlot_launchLib (b : Bank) (i : Fin 32) (v : Slot) : (s.setSlot b i v).launchLib = s.launchLib := rfl
@[simp] theorem State.setSlot_libs (b : Bank) (i : Fin 32) (v : Slot) : (s.setSlot b i v).libs = s.libs := rfl
@[simp] theorem State.setSlot_digest (b : Bank) (i : Fin 32) (v : Slot) : (s.setSlot b i v).digest = s.digest := rfl
@[simp] theorem State.setSlot_buffer (b : Bank) (i : Fin 32) (v : Slot) (l' : Option LibId) : (s.setSlot b i v).buffer l' = s.buffer l' := rfl
@[simp] theorem State.setSlot_readByte (b : Bank) (i : Fin 32) (v : Slot) (l' : Option LibId) (a : Nat) :
    (s.setSlot b i v).readByte l' a = s.readByte l' a := rfl
@[simp] theorem State.setSlot_cp0 (b : Bank) (i : Fin 32) (v : Slot) : (s.setSlot b i v).cp0 = s.cp0 := rfl

/-! #### withCursor -/

@[simp] theorem State.withCursor_regs (c : Cursor) : (s.withCursor c).regs = s.regs := rfl
@[simp] theorem State.withCursor_st0 (c : Cursor) : (s.withCursor c).st0 = s.st0 := rfl
@[simp] theorem State.withCursor_cm0 (c : Cursor) : (s.withCursor c).cm0 = s.cm0 := rfl
@[simp] theorem State.withCursor_cy0 (c : Cursor) : (s.withCursor c).cy0 = s.cy0 := rfl
@[simp] theorem State.withCursor_cs0 (c : Cursor) : (s.withCursor c).cs0 = s.cs0 := rfl
@[simp] theorem State.withCursor_libdepth (c : Cursor) : (s.withCursor c).libdepth = s.libdepth := rfl
@[simp] theorem State.withCursor_curlib (c : Cursor) : (s.withCursor c).curlib = s.curlib := rfl
@[simp] theorem State.withCursor_pos (c : Cursor) : (s.withCursor c).pos = c.pos := rfl
@[simp] theorem State.withCursor_bit (c : Cursor) : (s.withCursor c).bit = c.bit := rfl
@[simp] theorem State.withCursor_eof (c : Cursor) : (s.withCursor c).eof = c.eof := rfl
@[simp] theorem State.withCursor_ipc (c : Cursor) : (s.withCursor c).ipc = s.ipc := rfl
@[simp] theorem State.withCursor_run (c : Cursor) : (s.withCursor c).run = s.run := rfl
@[simp] theorem State.withCursor_flt (c : Cursor) : (s.withCursor c).flt = s.flt := rfl
@[simp] theorem State.withCursor_code (c : Cursor) : (s.withCursor c).code = s.code := rfl
@[simp] theorem State.withCursor_launchLib (c : Cursor) : (s.withCursor c).launchLib = s.launchLib := rfl
@[simp] theorem State.withCursor_libs (c : Cursor) : (s.withCursor c).libs = s.libs := rfl
@[simp] theorem State.withCursor_digest (c : Cursor) : (s.withCursor c).digest = s.digest := rfl
@[simp] theorem State.withCursor_slot (c : Cursor) (b : Bank) (i : Fin 32) : (s.withCursor c).slot b i = s.slot b i := rfl
@[simp] theorem State.withCursor_buffer (c : Cursor) (l' : Option LibId) : (s.withCursor c).buffer l' = s.buffer l' := rfl
@[simp] theorem State.withCursor_readByte (c : Cursor) (l' : Option LibId) (a : Nat) :
    (s.withCursor c).readByte l' a = s.readByte l' a := rfl
@[simp] theorem State.withCursor_cp0 (c : Cursor) : (s.withCursor c).cp0 = s.cp0 := rfl

/-! #### fetched -/

@[simp] theorem State.fetched_regs (c : Cursor) : (s.fetched c).regs = s.regs := rfl
@[simp] theorem State.fetched_st0 (c : Cursor) : (s.fetched c).st0 = s.st0 := rfl
@[simp] theorem State.fetched_cm0 (c : Cursor) : (s.fetched c).cm0 = s.cm0 := rfl
@[simp] theorem State.fetched_cy0 (c : Cursor) : (s.fetched c).cy0 = s.cy0 := rfl
@[simp] theorem State.fetched_cs0 (c : Cursor) : (s.fetched c).cs0 = s.cs0 := rfl
@[simp] theorem State.fetched_libdepth (c : Cursor) : (s.fetched c).libdepth = s.libdepth := rfl
@[simp] theorem State.fetched_curlib (c : Cursor) : (s.fetched c).curlib = s.curlib := rfl
@[simp] theorem State.fetched_pos (c : Cursor) : (s.fetched c).pos = c.pos := rfl
@[simp] theorem State.fetched_bit (c : Cursor) : (s.fetched c).bit = c.bit := rfl
@[simp] theorem State.fetched_eof (c : Cursor) : (s.fetched c).eof = c.eof := rfl
@[simp] theorem State.fetched_ipc (c : Cursor) : (s.fetched c).ipc = s.pos := rfl
@[simp] theorem State.fetched_run (c : Cursor) : (s.fetched c).run = s.run := rfl
@[simp] theorem State.fetched_flt (c : Cursor) : (s.fetched c).flt = s.flt := rfl
@[simp] theorem State.fetched_code (c : Cursor) : (s.fetched c).code = s.code := rfl
@[simp] theorem State.fetched_launchLib (c : Cursor) : (s.fetched c).launchLib = s.launchLib := rfl
@[simp] theorem State.fetched_libs (c : Cursor) : (s.fetched c).libs = s.libs := rfl
@[simp] theorem State.fetched_digest (c : Cursor) : (s.fetched c).digest = s.digest := rfl
@[simp] theorem State.fetched_slot (c : Cursor) (b : Bank) (i : Fin 32) : (s.fetched c).slot b i = s.slot b i := rfl
@[simp] theorem State.fetched_buffer (c : Cursor) (l' : Option LibId) : (s.fetched c).buffer l' = s.buffer l' := rfl
@[simp] theorem State.fetched_readByte (c : Cursor) (l' : Option LibId) (a : Nat) :
    (s.fetched c).readByte l' a = s.readByte l' a := rfl
@[simp] theorem State.fetched_cp0 (c : Cursor) : (s.fetched c).cp0 = s.cp0 := rfl

/-! #### raise -/

@[simp] theorem State.raise_regs (e : EngineError) : (s.raise e).regs = s.regs := rfl
@[simp] theorem State.raise_st0 (e : EngineError) : (s.raise e).st0 = s.st0 := rfl
@[simp] theorem State.raise_cm0 (e : EngineError) : (s.raise e).cm0 = s.cm0 := rfl
@[simp] theorem State.raise_cy0 (e : EngineError) : (s.raise e).cy0 = s.cy0 := rfl
@[simp] theorem State.raise_cs0 (e : EngineError) : (s.raise e).cs0 = s.cs0 := rfl
@[simp] theorem State.raise_libdepth (e : EngineError) : (s.raise e).libdepth = s.libdepth := rfl
@[simp] theorem State.raise_curlib (e : EngineError) : (s.raise e).curlib = s.curlib := rfl
@[simp] theorem State.raise_pos (e : EngineError) : (s.raise e).pos = s.pos := rfl
@[simp] theorem State.raise_bit (e : EngineError) : (s.raise e).bit = s.bit := rfl
@[simp] theorem State.raise_eof (e : EngineError) : (s.raise e).eof = s.eof := rfl
@[simp] theorem State.raise_ipc (e : EngineError) : (s.raise e).ipc = s.ipc := rfl
@[simp] theorem State.raise_run (e : EngineError) : (s.raise e).run = .faulted e := rfl
@[simp] theorem State.raise_flt (e : EngineError) : (s.raise e).flt = some ⟨e, s.curlib, s.ipc, s.pos⟩ := rfl
@[simp] theorem State.raise_code (e : EngineError) : (s.raise e).code = s.code := rfl
@[simp] theorem State.raise_launchLib (e : EngineError) : (s.raise e).launchLib = s.launchLib := rfl
@[simp] theorem State.raise_libs (e : EngineError) : (s.raise e).libs = s.libs := rfl
@[simp] theorem State.raise_digest (e : EngineError) : (s.raise e).digest = s.digest := rfl
@[simp] theorem State.raise_slot (e : EngineError) (b : Bank) (i : Fin 32) : (s.raise e).slot b i = s.slot b i := rfl
@[simp] theorem State.raise_buffer (e : EngineError) (l' : Option LibId) : (s.raise e).buffer l' = s.buffer l' := rfl
@[simp] theorem State.raise_readByte (e : EngineError) (l' : Option LibId) (a : Nat) :
    (s.raise e).readByte l' a = s.readByte l' a := rfl
@[simp] theorem State.raise_cp0 (e : EngineError) : (s.raise e).cp0 = s.cp0 := rfl

/-! #### abort -/

@[simp] theorem State.abort_regs (v : Violation) : (s.abort v).regs = s.regs := rfl
@[simp] theorem State.abort_st0 (v : Violation) : (s.abort v).st0 = s.st0 := rfl
@[simp] theorem State.abort_cm0 (v : Violation) : (s.abort v).cm0 = s.cm0 := rfl
@[simp] theorem State.abort_cy0 (v : Violation) : (s.abort v).cy0 = s.cy0 := rfl
@[simp] theorem State.abort_cs0 (v : Violation) : (s.abort v).cs0 = s.cs0 := rfl
@[simp] theorem State.abort_libdepth (v : Violation) : (s.abort v).libdepth = s.libdepth := rfl
@[simp] theorem State.abort_curlib (v : Violation) : (s.abort v).curlib = s.curlib := rfl
@[simp] theorem State.abort_pos (v : Violation) : (s.abort v).pos = s.pos := rfl
@[simp] theorem State.abort_bit (v : Violation) : (s.abort v).bit = s.bit := rfl
@[simp] theorem State.abort_eof (v : Violation) : (s.abort v).eof = s.eof := rfl
@[simp] theorem State.abort_ipc (v : Violation) : (s.abort v).ipc = s.ipc := rfl
@[simp] theorem State.abort_run (v : Violation) : (s.abort v).run = .aborted v := rfl
@[simp] theorem State.abort_flt (v : Violation) : (s.abort v).flt = s.flt := rfl
@[simp] theorem State.abort_code (v : Violation) : (s.abort v).code = s.code := rfl
@[simp] theorem State.abort_launchLib (v : Violation) : (s.abort v).launchLib = s.launchLib := rfl
@[simp] theorem State.abort_libs (v : Violation) : (s.abort v).libs = s.libs := rfl
@[simp] theorem State.abort_digest (v : Violation) : (s.abort v).digest = s.digest := rfl
@[simp] theorem State.abort_slot (v : Violation) (b : Bank) (i : Fin 32) : (s.abort v).slot b i = s.slot b i := rfl
@[simp] theorem State.abort_buffer (v : Violation) (l' : Option LibId) : (s.abort v).buffer l' = s.buffer l' := rfl
@[simp] theorem State.abort_readByte (v : Violation) (l' : Option LibId) (a : Nat) :
    (s.abort v).readByte l' a = s.readByte l' a := rfl
@[simp] theorem State.abort_cp0 (v : Violation) : (s.abort v).cp0 = s.cp0 := rfl

/-! #### halt -/

@[simp] theorem State.halt_regs (ok : Bool) : (s.halt ok).regs = s.regs := rfl
@[simp] theorem State.halt_st0 (ok : Bool) : (s.halt ok).st0 = ok := rfl
@[simp] theorem State.halt_cm0 (ok : Bool) : (s.halt ok).cm0 = s.cm0 := rfl
@[simp] theorem State.halt_cy0 (ok : Bool) : (s.halt ok).cy0 = s.cy0 := rfl
@[simp] theorem State.halt_cs0 (ok : Bool) : (s.halt ok).cs0 = s.cs0 := rfl
@[simp] theorem State.halt_libdepth (ok : Bool) : (s.halt ok).libdepth = s.libdepth := rfl
@[simp] theorem State.halt_curlib (ok : Bool) : (s.halt ok).curlib = s.curlib := rfl
@[simp] theorem State.halt_pos (ok : Bool) : (s.halt ok).pos = s.pos := rfl
@[simp] theorem State.halt_bit (ok : Bool) : (s.halt ok).bit = s.bit := rfl
@[simp] theorem State.halt_eof (ok : Bool) : (s.halt ok).eof = s.eof := rfl
@[simp] theorem State.halt_ipc (ok : Bool) : (s.halt ok).ipc = s.ipc := rfl
@[simp] theorem State.halt_run (ok : Bool) : (s.halt ok).run = .halted ok := rfl
@[simp] theorem State.halt_flt (ok : Bool) : (s.halt ok).flt = s.flt := rfl
@[simp] theorem State.halt_code (ok : Bool) : (s.halt ok).code = s.code := rfl
@[simp] theorem State.halt_launchLib (ok : Bool) : (s.halt ok).launchLib = s.launchLib := rfl
@[simp] theorem State.halt_libs (ok : Bool) : (s.halt ok).libs = s.libs := rfl
@[simp] theorem State.halt_digest (ok : Bool) : (s.halt ok).digest = s.digest := rfl
@[simp] theorem State.halt_slot (ok : Bool) (b : Bank) (i : Fin 32) : (s.halt ok).slot b i = s.slot b i := rfl
@[simp] theorem State.halt_buffer (ok : Bool) (l' : Option LibId) : (s.halt ok).buffer l' = s.buffer l' := rfl
@[simp] theorem State.halt_readByte (ok : Bool) (l' : Option LibId) (a : Nat) :
    (s.halt ok).readByte l' a = s.readByte l' a := rfl
@[simp] theorem State.halt_cp0 (ok : Bool) : (s.halt ok).cp0 = s.cp0 := rfl

/-! #### operandFail -/

@[simp] theorem State.operandFail_regs : (s.operandFail).regs = s.regs := rfl
@[simp] theorem State.operandFail_st0 : (s.operandFail).st0 = false := rfl
@[simp] theorem State.operandFail_cm0 : (s.operandFail).cm0 = s.cm0 := rfl
@[simp] theorem State.operandFail_cy0 : (s.operandFail).cy0 = s.cy0 := rfl
@[simp] theorem State.operandFail_cs0 : (s.operandFail).cs0 = s.cs0 := rfl
@[simp] theorem State.operandFail_libdepth : (s.operandFail).libdepth = s.libdepth := rfl
@[simp] theorem State.operandFail_curlib : (s.operandFail).curlib = s.curlib := rfl
@[simp] theorem State.operandFail_pos : (s.operandFail).pos = s.pos := rfl
@[simp] theorem State.operandFail_bit : (s.operandFail).bit = s.bit := rfl
@[simp] theorem State.operandFail_eof : (s.operandFail).eof = s.eof := rfl
@[simp] theorem State.operandFail_ipc : (s.operandFail).ipc = s.ipc := rfl
@[simp] theorem State.operandFail_run : (s.operandFail).run = s.run := rfl
@[simp] theorem State.operandFail_flt : (s.operandFail).flt = s.flt := rfl
@[simp] theorem State.operandFail_code : (s.operandFail).code = s.code := rfl
@[simp] theorem State.operandFail_launchLib : (s.operandFail).launchLib = s.launchLib := rfl
@[simp] theorem State.operandFail_libs : (s.operandFail).libs = s.libs := rfl
@[simp] theorem State.operandFail_digest : (s.operandFail).digest = s.digest := rfl
@[simp] theorem State.operandFail_slot (b : Bank) (i : Fin 32) : (s.operandFail).slot b i = s.slot b i := rfl
@[simp] theorem State.operandFail_buffer (l' : Option LibId) : (s.operandFail).buffer l' = s.buffer l' := rfl
@[simp] theorem State.operandFail_readByte (l' : Option LibId) (a : Nat) :
    (s.operandFail).readByte l' a = s.readByte l' a := rfl
@[simp] theorem State.operandFail_cp0 : (s.operandFail).cp0 = s.cp0 := rfl

/-! #### setCm0 -/

@[simp] theorem State.setCm0_regs (f : CmFlag) : (s.setCm0 f).regs = s.regs := rfl
@[simp] theorem State.setCm0_st0 (f : CmFlag) : (s.setCm0 f).st0 = s.st0 := rfl
@[simp] theorem State.setCm0_cm0 (f : CmFlag) : (s.setCm0 f).cm0 = f := rfl
@[simp] theorem State.setCm0_cy0 (f : CmFlag) : (s.setCm0 f).cy0 = s.cy0 := rfl
@[simp] theorem State.setCm0_cs0 (f : CmFlag) : (s.setCm0 f).cs0 = s.cs0 := rfl
@[simp] theorem State.setCm0_libdepth (f : CmFlag) : (s.setCm0 f).libdepth = s.libdepth := rfl
@[simp] theorem State.setCm0_curlib (f : CmFlag) : (s.setCm0 f).curlib = s.curlib := rfl
@[simp] theorem State.setCm0_pos (f : CmFlag) : (s.setCm0 f).pos = s.pos := rfl
@[simp] theorem State.setCm0_bit (f : CmFlag) : (s.setCm0 f).bit = s.bit := rfl
@[simp] theorem State.setCm0_eof (f : CmFlag) : (s.setCm0 f).eof = s.eof := rfl
@[simp] theorem State.setCm0_ipc (f : CmFlag) : (s.setCm0 f).ipc = s.ipc := rfl
@[simp] theorem State.setCm0_run (f : CmFlag) : (s.setCm0 f).run = s.run := rfl
@[simp] theorem State.setCm0_flt (f : CmFlag) : (s.setCm0 f).flt = s.flt := rfl
@[simp] theorem State.setCm0_code (f : CmFlag) : (s.setCm0 f).code = s.code := rfl
@[simp] theorem State.setCm0_launchLib (f : CmFlag) : (s.setCm0 f).launchLib = s.launchLib := rfl
@[simp] theorem State.setCm0_libs (f : CmFlag) : (s.setCm0 f).libs = s.libs := rfl
@[simp] theorem State.setCm0_digest (f : CmFlag) : (s.setCm0 f).digest = s.digest := rfl
@[simp] theorem State.setCm0_slot (f : CmFlag) (b : Bank) (i : Fin 32) : (s.setCm0 f).slot b i = s.slot b i := rfl
@[simp] theorem State.setCm0_buffer (f : CmFlag) (l' : Option LibId) : (s.setCm0 f).buffer l' = s.buffer l' := rfl
@[simp] theorem State.setCm0_readByte (f : CmFlag) (l' : Option LibId) (a : Nat) :
    (s.setCm0 f).readByte l' a = s.readByte l' a := rfl
@[simp] theorem State.setCm0_cp0 (f : CmFlag) : (s.setCm0 f).cp0 = s.cp0 := rfl

/-! #### setSt0 -/

@[simp] theorem State.setSt0_regs (f : Bool) : (s.setSt0 f).regs = s.regs := rfl
@[simp] theorem State.setSt0_st0 (f : Bool) : (s.setSt0 f).st0 = f := rfl
@[simp] theorem State.setSt0_cm0 (f : Bool) : (s.setSt0 f).cm0 = s.cm0 := rfl
@[simp] theorem State.setSt0_cy0 (f : Bool) : (s.setSt0 f).cy0 = s.cy0 := rfl
@[simp] theorem State.setSt0_cs0 (f : Bool) : (s.setSt0 f).cs0 = s.cs0 := rfl
@[simp] theorem State.setSt0_libdepth (f : Bool) : (s.setSt0 f).libdepth = s.libdepth := rfl
@[simp] theorem State.setSt0_curlib (f : Bool) : (s.setSt0 f).curlib = s.curlib := rfl
@[simp] theorem State.setSt0_pos (f : Bool) : (s.setSt0 f).pos = s.pos := rfl
@[simp] theorem State.setSt0_bit (f : Bool) : (s.setSt0 f).bit = s.bit := rfl
@[simp] theorem State.setSt0_eof (f : Bool) : (s.setSt0 f).eof = s.eof := rfl
@[simp] theorem State.setSt0_ipc (f : Bool) : (s.setSt0 f).ipc = s.ipc := rfl
@[simp] theorem State.setSt0_run (f : Bool) : (s.setSt0 f).run = s.run := rfl
@[simp] theorem State.setSt0_flt (f : Bool) : (s.setSt0 f).flt = s.flt := rfl
@[simp] theorem State.setSt0_code (f : Bool) : (s.setSt0 f).code = s.code := rfl
@[simp] theorem State.setSt0_launchLib (f : Bool) : (s.setSt0 f).launchLib = s.launchLib := rfl
@[simp] theorem State.setSt0_libs (f : Bool) : (s.setSt0 f).libs = s.libs := rfl
@[simp] theorem State.setSt0_digest (f : Bool) : (s.setSt0 f).digest = s.digest := rfl
@[simp] theorem State.setSt0_slot (f : Bool) (b : Bank) (i : Fin 32) : (s.setSt0 f).slot b i = s.slot b i := rfl
@[simp] theorem State.setSt0_buffer (f : Bool) (l' : Option LibId) : (s.setSt0 f).buffer l' = s.buffer l' := rfl
@[simp] theorem State.setSt0_readByte (f : Bool) (l' : Option LibId) (a : Nat) :
    (s.setSt0 f).readByte l' a = s.readByte l' a := rfl
@[simp] theorem State.setSt0_cp0 (f : Bool) : (s.setSt0 f).cp0 = s.cp0 := rfl

/-! #### countTransfer -/

@[simp] theorem State.countTransfer_regs : (s.countTransfer).regs = s.regs := rfl
@[simp] theorem State.countTransfer_st0 : (s.countTransfer).st0 = s.st0 := rfl
@[simp] theorem State.countTransfer_cm0 : (s.countTransfer).cm0 = s.cm0 := rfl
@[simp] theorem State.countTransfer_cy0 : (s.countTransfer).cy0 = s.cy0 + 1 := rfl
@[simp] theorem State.countTransfer_cs0 : (s.countTransfer).cs0 = s.cs0 := rfl
@[simp] theorem State.countTransfer_libdepth : (s.countTransfer).libdepth = s.libdepth := rfl
@[simp] theorem State.countTransfer_curlib : (s.countTransfer).curlib = s.curlib := rfl
@[simp] theorem State.countTransfer_pos : (s.countTransfer).pos = s.pos := rfl
@[simp] theorem State.countTransfer_bit : (s.countTransfer).bit = s.bit := rfl
@[simp] theorem State.countTransfer_eof : (s.countTransfer).eof = s.eof := rfl
@[simp] theorem State.countTransfer_ipc : (s.countTransfer).ipc = s.ipc := rfl
@[simp] theorem State.countTransfer_run : (s.countTransfer).run = s.run := rfl
@[simp] theorem State.countTransfer_flt : (s.countTransfer).flt = s.flt := rfl
@[simp] theorem State.countTransfer_code : (s.countTransfer).code = s.code := rfl
@[simp] theorem State.countTransfer_launchLib : (s.countTransfer).launchLib = s.launchLib := rfl
@[simp] theorem State.countTransfer_libs : (s.countTransfer).libs = s.libs := rfl
@[simp] theorem State.countTransfer_digest : (s.countTransfer).digest = s.digest := rfl
@[simp] theorem State.countTransfer_slot (b : Bank) (i : Fin 32) : (s.countTransfer).slot b i = s.slot b i := rfl
@[simp] theorem State.countTransfer_buffer (l' : Option LibId) : (s.countTransfer).buffer l' = s.buffer l' := rfl
@[simp] theorem State.countTransfer_readByte (l' : Option LibId) (a : Nat) :
    (s.countTransfer).readByte l' a = s.readByte l' a := rfl
@[simp] theorem State.countTransfer_cp0 : (s.countTransfer).cp0 = s.cp0 := rfl

/-! #### pushReturn -/

@[simp] theorem State.pushReturn_regs : (s.pushReturn).regs = s.regs := rfl
@[simp] theorem State.pushReturn_st0 : (s.pushReturn).st0 = s.st0 := rfl
@[simp] theorem State.pushReturn_cm0 : (s.pushReturn).cm0 = s.cm0 := rfl
@[simp] theorem State.pushReturn_cy0 : (s.pushReturn).cy0 = s.cy0 := rfl
@[simp] theorem State.pushReturn_cs0 : (s.pushReturn).cs0 = ⟨s.curlib, s.pos⟩ :: s.cs0 := rfl
@[simp] theorem State.pushReturn_libdepth : (s.pushReturn).libdepth = s.libdepth := rfl
@[simp] theorem State.pushReturn_curlib : (s.pushReturn).curlib = s.curlib := rfl
@[simp] theorem State.pushReturn_pos : (s.pushReturn).pos = s.pos := rfl
@[simp] theorem State.pushReturn_bit : (s.pushReturn).bit = s.bit := rfl
@[simp] theorem State.pushReturn_eof : (s.pushReturn).eof = s.eof := rfl
@[simp] theorem State.pushReturn_ipc : (s.pushReturn).ipc = s.ipc := rfl
@[simp] theorem State.pushReturn_run : (s.pushReturn).run = s.run := rfl
@[simp] theorem State.pushReturn_flt : (s.pushReturn).flt = s.flt := rfl
@[simp] theorem State.pushReturn_code : (s.pushReturn).code = s.code := rfl
@[simp] theorem State.pushReturn_launchLib : (s.pushReturn).launchLib = s.launchLib := rfl
@[simp] theorem State.pushReturn_libs : (s.pushReturn).libs = s.libs := rfl
@[simp] theorem State.pushReturn_digest : (s.pushReturn).digest = s.digest := rfl
@[simp] theorem State.pushReturn_slot (b : Bank) (i : Fin 32) : (s.pushReturn).slot b i = s.slot b i := rfl
@[simp] theorem State.pushReturn_buffer (l' : Option LibId) : (s.pushReturn).buffer l' = s.buffer l' := rfl
@[simp] theorem State.pushReturn_readByte (l' : Option LibId) (a : Nat) :
    (s.pushReturn).readByte l' a = s.readByte l' a := rfl
@[simp] theorem State.pushReturn_cp0 : s.pushReturn.cp0 = s.cp0 + 1 := rfl

/-! #### deepen -/

@[simp] theorem State.deepen_regs : (s.deepen).regs = s.regs := rfl
@[simp] theorem State.deepen_st0 : (s.deepen).st0 = s.st0 := rfl
@[simp] theorem State.deepen_cm0 : (s.deepen).cm0 = s.cm0 := rfl
@[simp] theorem State.deepen_cy0 : (s.deepen).cy0 = s.cy0 := rfl
@[simp] theorem State.deepen_cs0 : (s.deepen).cs0 = s.cs0 := rfl
@[simp] theorem State.deepen_libdepth : (s.deepen).libdepth = s.libdepth + 1 := rfl
@[simp] theorem State.deepen_curlib : (s.deepen).curlib = s.curlib := rfl
@[simp] theorem State.deepen_pos : (s.deepen).pos = s.pos := rfl
@[simp] theorem State.deepen_bit : (s.deepen).bit = s.bit := rfl
@[simp] theorem State.deepen_eof : (s.deepen).eof = s.eof := rfl
@[simp] theorem State.deepen_ipc : (s.deepen).ipc = s.ipc := rfl
@[simp] theorem State.deepen_run : (s.deepen).run = s.run := rfl
@[simp] theorem State.deepen_flt : (s.deepen).flt = s.flt := rfl
@[simp] theorem State.deepen_code : (s.deepen).code = s.code := rfl
@[simp] theorem State.deepen_launchLib : (s.deepen).launchLib = s.launchLib := rfl
@[simp] theorem State.deepen_libs : (s.deepen).libs = s.libs := rfl
@[simp] theorem State.deepen_digest : (s.deepen).digest = s.digest := rfl
@[simp] theorem State.deepen_slot (b : Bank) (i : Fin 32) : (s.deepen).slot b i = s.slot b i := rfl
@[simp] theorem State.deepen_buffer (l' : Option LibId) : (s.deepen).buffer l' = s.buffer l' := rfl
@[simp] theorem State.deepen_readByte (l' : Option LibId) (a : Nat) :
    (s.deepen).readByte l' a = s.readByte l' a := rfl
@[simp] theorem State.deepen_cp0 : (s.deepen).cp0 = s.cp0 := rfl

/-! #### goto -/

@[simp] theorem State.goto_regs (l : Option LibId) (o : Offset) : (s.goto l o).regs = s.regs := rfl
@[simp] theorem State.goto_st0 (l : Option LibId) (o : Offset) : (s.goto l o).st0 = s.st0 := rfl
@[simp] theorem State.goto_cm0 (l : Option LibId) (o : Offset) : (s.goto l o).cm0 = s.cm0 := rfl
@[simp] theorem State.goto_cy0 (l : Option LibId) (o : Offset) : (s.goto l o).cy0 = s.cy0 := rfl
@[simp] theorem State.goto_cs0 (l : Option LibId) (o : Offset) : (s.goto l o).cs0 = s.cs0 := rfl
@[simp] theorem State.goto_libdepth (l : Option LibId) (o : Offset) : (s.goto l o).libdepth = s.libdepth := rfl
@[simp] theorem State.goto_curlib (l : Option LibId) (o : Offset) : (s.goto l o).curlib = l := rfl
@[simp] theorem State.goto_pos (l : Option LibId) (o : Offset) : (s.goto l o).pos = o := rfl
@[simp] theorem State.goto_bit (l : Option LibId) (o : Offset) : (s.goto l o).bit = 0 := rfl
@[simp] theorem State.goto_eof (l : Option LibId) (o : Offset) : (s.goto l o).eof = if l = s.curlib then s.eof else false := rfl
@[simp] theorem State.goto_ipc (l : Option LibId) (o : Offset) : (s.goto l o).ipc = s.ipc := rfl
@[simp] theorem State.goto_run (l : Option LibId) (o : Offset) : (s.goto l o).run = s.run := rfl
@[simp] theorem State.goto_flt (l : Option LibId) (o : Offset) : (s.goto l o).flt = s.flt := rfl
@[simp] theorem State.goto_code (l : Option LibId) (o : Offset) : (s.goto l o).code = s.code := rfl
@[simp] theorem State.goto_launchLib (l : Option LibId) (o : Offset) : (s.goto l o).launchLib = s.launchLib := rfl
@[simp] theorem State.goto_libs (l : Option LibId) (o : Offset) : (s.goto l o).libs = s.libs := rfl
@[simp] theorem State.goto_digest (l : Option LibId) (o : Offset) : (s.goto l o).digest = s.digest := rfl
@[simp] theorem State.goto_slot (l : Option LibId) (o : Offset) (b : Bank) (i : Fin 32) : (s.goto l o).slot b i = s.slot b i := rfl
@[simp] theorem State.goto_buffer (l : Option LibId) (o : Offset) (l' : Option LibId) : (s.goto l o).buffer l' = s.buffer l' := rfl
@[simp] theorem State.goto_readByte (l : Option LibId) (o : Offset) (l' : Option LibId) (a : Nat) :
    (s.goto l o).readByte l' a = s.readByte l' a := rfl
@[simp] theorem State.goto_cp0 (l : Option LibId) (o : Offset) : (s.goto l o).cp0 = s.cp0 := rfl

/-! #### Slots -/

@[simp] theorem Registers.bank_setBank (r : Registers) (b b' : Bank) (v : BankSlots) :
    (r.setBank b v).bank b' = if b = b' then v else r.bank b' := by
  cases b <;> cases b' <;> rfl

/-- Read after write, and the frame of a write: the only slot that changes is the one written. -/
theorem State.slot_setSlot (b b' : Bank) (i i' : Fin 32) (v : Slot) :
    (s.setSlot b i v).slot b' i' = if b = b' ∧ i = i' then v else s.slot b' i' := by
  simp only [State.slot, State.setSlot, Registers.bank_setBank]
  by_cases hb : b = b'
  · subst hb
    by_cases hi : i = i'
    · subst hi; simp
    · have : i.val ≠ i'.val := fun h => hi (Fin.ext h)
      simp [hi, this]
  · simp [hb]

@[simp] theorem State.slot_setSlot_self (b : Bank) (i : Fin 32) (v : Slot) : (s.setSlot b i v).slot b i = v := by
  simp [State.slot_setSlot]

/-- At reset every slot is unset. -/
@[simp] theorem State.slot_reset (b : Bank) (i : Fin 32) : State.reset.slot b i = none := by
  cases b <;> simp [State.slot, State.reset, Registers.unset, Registers.bank, BankSlots.unset]

end Sys2Proof.Machine
end

