-- ==== Sys2Proof/Laws/Exec.lean ====
section
/-! SUPPORT. What each shared operation can do, said once: if it answers a next state, that state is one of those
listed. -/

namespace Sys2Proof.Machine

@[simp] theorem next_inj {s t : State} : (Host.Outcome.next s : Result) = .next t ↔ s = t := by simp

/-- Checks that pass lead to the state prepared, a check that fails raises its error. -/
theorem afterChecks_cases {cs : List (Option EngineError)} {s s' t : State} (h : afterChecks cs s s' = .next t) :
    (t = s' ∧ ∀ x ∈ cs, x = none) ∨ ∃ e, some e ∈ cs ∧ t = s.raise e := by
  induction cs with
  | nil => exact .inl ⟨by simpa [afterChecks, eq_comm] using h, by simp⟩
  | cons x rest ih =>
    cases x with
    | some e => exact .inr ⟨e, by simp, by simpa [afterChecks, raised, eq_comm] using h⟩
    | none =>
      rcases ih h with ⟨rfl, h'⟩ | ⟨e, he, rfl⟩
      · exact .inl ⟨rfl, by simpa using h'⟩
      · exact .inr ⟨e, by simp [he], rfl⟩

/-- Checks that all pass. -/
theorem afterChecks_pass {cs : List (Option EngineError)} (s s' : State) (h : ∀ x ∈ cs, x = none) :
    afterChecks cs s s' = .next s' := by
  induction cs with
  | nil => rfl
  | cons x rest ih =>
    have hx : x = none := h x (by simp)
    subst hx
    exact ih fun y hy => h y (by simp [hy])

theorem withSlot_set {s : State} {b : Bank} {i : Fin 32} {v : Bytes} (h : s.slot b i = some v) (k : Bytes → Result) :
    s.withSlot b i k = k v := by simp [State.withSlot, h]

theorem withSlot_unset {s : State} {b : Bank} {i : Fin 32} (h : s.slot b i = none) (k : Bytes → Result) :
    s.withSlot b i k = .next s.operandFail := by simp [State.withSlot, h, operandFailed]

/-- A read of one slot: the value and what is made of it, or the operation failure. -/
theorem withSlot_cases {s t : State} {b : Bank} {i : Fin 32} {k : Bytes → Result} (h : s.withSlot b i k = .next t) :
    (∃ v, s.slot b i = some v ∧ k v = .next t) ∨ (s.slot b i = none ∧ t = s.operandFail) := by
  cases hv : s.slot b i with
  | none => rw [withSlot_unset hv] at h; exact .inr ⟨rfl, (next_inj.1 h).symm⟩
  | some v => rw [withSlot_set hv] at h; exact .inl ⟨v, rfl, h⟩

theorem withSlots_set {s : State} {b1 b2 : Bank} {i1 i2 : Fin 32} {v1 v2 : Bytes} (h1 : s.slot b1 i1 = some v1)
    (h2 : s.slot b2 i2 = some v2) (k : Bytes → Bytes → Result) : s.withSlots b1 i1 b2 i2 k = k v1 v2 := by
  simp [State.withSlots, State.withSlot, h1, h2]

theorem withSlots_unset {s : State} {b1 b2 : Bank} {i1 i2 : Fin 32}
    (h : s.slot b1 i1 = none ∨ s.slot b2 i2 = none) (k : Bytes → Bytes → Result) :
    s.withSlots b1 i1 b2 i2 k = .next s.operandFail := by
  rcases h with h | h
  · simp [State.withSlots, State.withSlot, h, operandFailed]
  · cases h1 : s.slot b1 i1 <;> simp [State.withSlots, State.withSlot, h, h1, operandFailed]

/-- A read of two slots: both values and what is made of them, or the operation failure. -/
theorem withSlots_cases {s t : State} {b1 b2 : Bank} {i1 i2 : Fin 32} {k : Bytes → Bytes → Result}
    (h : s.withSlots b1 i1 b2 i2 k = .next t) :
    (∃ v1 v2, s.slot b1 i1 = some v1 ∧ s.slot b2 i2 = some v2 ∧ k v1 v2 = .next t) ∨
      ((s.slot b1 i1 = none ∨ s.slot b2 i2 = none) ∧ t = s.operandFail) := by
  rcases withSlot_cases h with ⟨v1, h1, h⟩ | ⟨h1, rfl⟩
  · rcases withSlot_cases h with ⟨v2, h2, h⟩ | ⟨h2, rfl⟩
    · exact .inl ⟨v1, v2, h1, h2, h⟩
    · exact .inr ⟨.inr h2, rfl⟩
  · exact .inr ⟨.inl h1, rfl⟩

/-- What an instruction outside control flow and comparison can do to the state: raise, fail its operation, or write
slots. -/
inductive DataEffect (s : State) : State → Prop where
  | raised (e : EngineError) : DataEffect s (s.raise e)
  | failed : DataEffect s s.operandFail
  | wrote (b : Bank) (i : Fin 32) (v : Slot) : DataEffect s (s.setSlot b i v)
  | wroteTwo (b b' : Bank) (i i' : Fin 32) (v v' : Slot) : DataEffect s ((s.setSlot b i v).setSlot b' i' v')

/-- A meaning that answers a next state, always, and only by a data effect. -/
def DataMeaning (s : State) (r : Result) : Prop := ∃ t, r = .next t ∧ DataEffect s t

theorem DataMeaning.raised (s : State) (e : EngineError) : DataMeaning s (Machine.raised e s) :=
  ⟨_, rfl, .raised e⟩

theorem DataMeaning.failed (s : State) : DataMeaning s (operandFailed s) := ⟨_, rfl, .failed⟩

theorem DataMeaning.wrote (s : State) (b : Bank) (i : Fin 32) (v : Slot) : DataMeaning s (.next (s.setSlot b i v)) :=
  ⟨_, rfl, .wrote b i v⟩

theorem DataMeaning.withSlot {s : State} {b : Bank} {i : Fin 32} {k : Bytes → Result}
    (h : ∀ v, DataMeaning s (k v)) : DataMeaning s (s.withSlot b i k) := by
  cases hv : s.slot b i with
  | none => rw [withSlot_unset hv]; exact DataMeaning.failed s
  | some v => rw [withSlot_set hv]; exact h v

theorem DataMeaning.withSlots {s : State} {b1 b2 : Bank} {i1 i2 : Fin 32} {k : Bytes → Bytes → Result}
    (h : ∀ v1 v2, DataMeaning s (k v1 v2)) : DataMeaning s (s.withSlots b1 i1 b2 i2 k) :=
  DataMeaning.withSlot fun v1 => DataMeaning.withSlot fun v2 => h v1 v2

theorem writeResult_effect (z : Int) (m : Mode) (b : ABank) (i : Fin 32) (s : State) :
    DataMeaning s (writeResult z m b i s) := by
  unfold writeResult
  split
  · exact .wrote ..
  · exact .raised ..

theorem withMode_effect {m : Mode} {b : ABank} {s : State} {k : Result} (h : DataMeaning s k) :
    DataMeaning s (withMode m b s k) := by
  unfold withMode
  split
  · exact .raised ..
  · split
    · exact .raised ..
    · exact h

theorem binaryOp_effect (op : Int → Int → Int) (m : Mode) (b : ABank) (i1 i2 : Fin 32) (s : State) :
    DataMeaning s (binaryOp op m b i1 i2 s) :=
  withMode_effect (.withSlots fun _ _ => writeResult_effect ..)

theorem divisionOp_effect (op : Int → Int → Int) (m : Mode) (b : ABank) (i1 i2 : Fin 32) (s : State) :
    DataMeaning s (divisionOp op m b i1 i2 s) :=
  withMode_effect (.withSlots fun _ _ => by
    split
    · exact .raised ..
    · exact writeResult_effect ..)

theorem unaryOp_effect (op : Int → Int) (m : Mode) (b : ABank) (i1 i2 : Fin 32) (s : State) :
    DataMeaning s (unaryOp op m b i1 i2 s) :=
  withMode_effect (.withSlot fun _ => writeResult_effect ..)

theorem withWidth_effect {b : ABank} {s : State} {k : Nat → Result} (h : ∀ n, DataMeaning s (k n)) :
    DataMeaning s (withWidth b s k) := by
  unfold withWidth
  split
  · exact h _
  · exact .raised ..

theorem bitwiseOp_effect (f : Nat → Nat → Nat → Nat) (b : ABank) (i1 i2 : Fin 32) (d : Fin 8) (s : State) :
    DataMeaning s (bitwiseOp f b i1 i2 d s) :=
  withWidth_effect fun _ => .withSlots fun _ _ => .wrote ..

/-- A comparison fails its operation, or writes `cm0` and nothing else (R181). -/
theorem compareSlots_cases (b : Bank) (i1 i2 : Fin 32) (s : State) :
    compareSlots b i1 i2 s = .next s.operandFail ∨ ∃ f, compareSlots b i1 i2 s = .next (s.setCm0 f) := by
  unfold compareSlots State.withSlots State.withSlot
  split
  · split
    · exact .inr ⟨_, rfl⟩
    · exact .inl rfl
  · exact .inl rfl

/-- An equality fails its operation, or writes `st0` and nothing else (R183). -/
theorem equateSlots_cases (b : Bank) (i1 i2 : Fin 32) (s : State) :
    equateSlots b i1 i2 s = .next s.operandFail ∨ ∃ f, equateSlots b i1 i2 s = .next (s.setSt0 f) := by
  unfold equateSlots State.withSlots State.withSlot
  split
  · split
    · exact .inr ⟨_, rfl⟩
    · exact .inl rfl
  · exact .inl rfl

theorem measureSlot_effect (f : Nat → Nat) (b : Bank) (i1 i2 : Fin 32) (s : State) :
    DataMeaning s (measureSlot f b i1 i2 s) :=
  .withSlot fun _ => .wrote ..

theorem writeLiteral_effect (b : Bank) (i : Fin 32) (lit : Bytes) (s : State) :
    DataMeaning s (writeLiteral b i lit s) := by
  unfold writeLiteral
  split
  · exact .wrote ..
  · exact .raised ..

theorem writePoint_effect (q : Option (Vector Byte 64)) (d : Fin 8) (s : State) :
    DataMeaning s (writePoint q d s) := by
  unfold writePoint
  split
  · exact .wrote ..
  · exact .failed s

theorem execSwp_effect (r1 r2 : RegRef) (x1 x2 : Bool) (s : State) : DataMeaning s (execSwp r1 r2 x1 x2 s) :=
  .withSlots fun _ _ => by
    split
    · exact ⟨_, rfl, .wroteTwo ..⟩
    · exact .failed s

theorem execMov_effect (src dst : RegRef) (x dup : Bool) (s : State) : DataMeaning s (execMov src dst x dup s) :=
  .withSlot fun _ => by
    split
    · by_cases h : (!dup && src != dst) = true
      · exact ⟨_, rfl, by simp only [h, if_true]; exact .wroteTwo ..⟩
      · exact ⟨_, rfl, by simp only [h, Bool.false_eq_true, if_false]; exact .wrote ..⟩
    · exact .failed s

theorem execDgst_effect (alg src : Fin 32) (off : Offset) (b : RBank) (dst : Fin 32) (clr : Bool) (s : State) :
    DataMeaning s (execDgst alg src off b dst clr s) := by
  unfold execDgst
  split
  · refine .withSlot fun x => ?_
    split
    · exact .failed s
    · cases clr
      · exact .wrote ..
      · exact ⟨_, rfl, .wroteTwo ..⟩
  · exact .raised ..

/-- The instructions that neither touch control state nor write a flag on success. -/
def isData : Instr → Bool
  | .fail | .succ | .jmp _ | .jif _ | .routine _ | .call _ _ | .exec _ _ | .ret => false
  | .cmpa _ _ _ | .cmpr _ _ _ | .eqa _ _ _ | .eqr _ _ _ => false
  | _ => true

/-- Every such instruction answers a next state, by a data effect. -/
theorem exec_data_meaning {i : Instr} (h : isData i = true) (s : State) : DataMeaning s (exec i s) := by
  cases i with
  | fail => cases h
  | succ => cases h
  | jmp => cases h
  | jif => cases h
  | routine => cases h
  | call => cases h
  | exec => cases h
  | ret => cases h
  | cmpa => cases h
  | cmpr => cases h
  | eqa => cases h
  | eqr => cases h
  | swp => exact execSwp_effect ..
  | mov => exact execMov_effect ..
  | zeroa => exact .wrote ..
  | zeror => exact .wrote ..
  | zeros => exact .wrote ..
  | cleana => exact .wrote ..
  | cleanr => exact .wrote ..
  | cleans => exact .wrote ..
  | puta => exact writeLiteral_effect ..
  | putr => exact writeLiteral_effect ..
  | puts => exact writeLiteral_effect ..
  | lena => exact measureSlot_effect ..
  | lenr => exact measureSlot_effect ..
  | cnta => exact measureSlot_effect ..
  | cntr => exact measureSlot_effect ..
  | add => exact binaryOp_effect ..
  | sub => exact binaryOp_effect ..
  | mul => exact binaryOp_effect ..
  | div => exact divisionOp_effect ..
  | mod => exact divisionOp_effect ..
  | neg => exact unaryOp_effect ..
  | abs m b i1 i2 => exact (unaryOp_effect .. : DataMeaning s (execAbs m b i1 i2 s))
  | and b i1 i2 d => exact (bitwiseOp_effect .. : DataMeaning s (execAnd b i1 i2 d s))
  | or b i1 i2 d => exact (bitwiseOp_effect .. : DataMeaning s (execOr b i1 i2 d s))
  | xor b i1 i2 d => exact (bitwiseOp_effect .. : DataMeaning s (execXor b i1 i2 d s))
  | not b i => exact (withWidth_effect fun _ => .withSlot fun _ => .wrote .. : DataMeaning s (execNot b i s))
  | shl => exact bitwiseOp_effect ..
  | shr => exact bitwiseOp_effect ..
  | scl => exact bitwiseOp_effect ..
  | scr => exact bitwiseOp_effect ..
  | dgst => exact execDgst_effect ..
  | secpgen => exact .withSlot fun _ => writePoint_effect ..
  | secpneg => exact .withSlot fun _ => writePoint_effect ..
  | edgen => exact .withSlot fun _ => writePoint_effect ..
  | edneg => exact .withSlot fun _ => writePoint_effect ..
  | secpmul => exact .withSlots fun _ _ => writePoint_effect ..
  | secpadd => exact .withSlots fun _ _ => writePoint_effect ..
  | edmul => exact .withSlots fun _ _ => writePoint_effect ..
  | edadd => exact .withSlots fun _ _ => writePoint_effect ..

/-- A counted jump: it raises one of its checks' errors, or counts and moves (R144). -/
theorem countedJump_cases {off : Offset} {s t : State} (h : countedJump off s = .next t) :
    (s.countCheck = none ∧ s.gotoCheck s.curlib = none ∧ t = s.countTransfer.goto s.curlib off) ∨
      ∃ e, t = s.raise e := by
  rcases afterChecks_cases h with ⟨rfl, hc⟩ | ⟨e, -, rfl⟩
  · exact .inl ⟨hc _ (by simp), hc _ (by simp), rfl⟩
  · exact .inr ⟨e, rfl⟩

/-- What a fetch comes to, by the buffer and the decode (R276). -/
theorem fetch_eq_instr {s s' : State} {i : Instr} :
    fetch s = .instr i s' ↔
      ∃ m c, s.buffer s.curlib = some m ∧ decode s.digest (s.cursorOn m) = .ok i c ∧ s' = s.fetched c := by
  unfold fetch
  cases hm : s.buffer s.curlib with
  | none => simp
  | some m => cases hd : decode s.digest (s.cursorOn m) <;> simp [hd, eq_comm]

theorem fetch_eq_ended {s s' : State} :
    fetch s = .ended s' ↔
      ∃ m why c, s.buffer s.curlib = some m ∧ decode s.digest (s.cursorOn m) = .stop why c ∧
        s' = (s.fetched c).stopWith why := by
  unfold fetch
  cases hm : s.buffer s.curlib with
  | none => simp
  | some m => cases hd : decode s.digest (s.cursorOn m) <;> simp [hd, eq_comm]

/-- What a step does when it answers a next state: it runs the instruction fetched, or ends in the terminal state a
stopped decode enters (R276). -/
theorem step_cases {s t : State} (h : step s = .next t) :
    s.run = .running ∧ ((∃ i s', fetch s = .instr i s' ∧ exec i s' = .next t) ∨ fetch s = .ended t) := by
  unfold step at h
  split at h <;> try cases h
  next hr =>
    refine ⟨hr, ?_⟩
    split at h
    next i s' hf => exact .inl ⟨i, s', hf, h⟩
    next s' hf => cases h; exact .inr hf
    next => cases h

end Sys2Proof.Machine
end

