-- ==== Sys2Proof/Laws/Frame.lean ====
section
/-! SUPPORT. The frames of Safety: what the shared operations leave unchanged, and how frames combine; and what every
instruction can do to the state, by its kind. -/

namespace Sys2Proof.Machine

/-- A slot write changes that slot alone. -/
theorem onlySlots_setSlot (s : State) (b : Bank) (i : Fin 32) (v : Slot) : OnlySlots [(b, i)] s (s.setSlot b i v) := by
  refine ⟨fun b' i' h => ?_, by simp [FlagsKept], by simp [ControlKept], by simp [CursorKept], by simp [EngineKept],
    by simp [MemoryKept]⟩
  rw [State.slot_setSlot, if_neg]
  rintro ⟨rfl, rfl⟩
  simp at h

theorem OnlySlots.mono {w w' : List (Bank × Fin 32)} {s t : State} (h : OnlySlots w s t) (hs : ∀ x ∈ w, x ∈ w') :
    OnlySlots w' s t :=
  ⟨fun b i hn => h.1 b i fun hm => hn (hs _ hm), h.2⟩

theorem OnlySlots.trans {w : List (Bank × Fin 32)} {s t u : State} (h : OnlySlots w s t) (h' : OnlySlots w t u) :
    OnlySlots w s u := by
  obtain ⟨a1, ⟨a2, a3⟩, ⟨a4, a5, a6, a7⟩, ⟨a8, a9, a10, a11⟩, ⟨a12, a13⟩, a14, a15, a16⟩ := h
  obtain ⟨b1, ⟨b2, b3⟩, ⟨b4, b5, b6, b7⟩, ⟨b8, b9, b10, b11⟩, ⟨b12, b13⟩, b14, b15, b16⟩ := h'
  simp_all [OnlySlots, SlotsKeptBut, FlagsKept, ControlKept, CursorKept, EngineKept, MemoryKept]

/-- Two slot writes change those two slots alone. -/
theorem onlySlots_setSlot_setSlot (s : State) (b b' : Bank) (i i' : Fin 32) (v v' : Slot) :
    OnlySlots [(b, i), (b', i')] s ((s.setSlot b i v).setSlot b' i' v') :=
  ((onlySlots_setSlot ..).mono (by simp)).trans ((onlySlots_setSlot ..).mono (by simp))

/-- `OperandFail()` is the operation failure of R296. -/
theorem failsOperand_operandFail (s : State) : FailsOperand s s.operandFail := by
  simp [FailsOperand, OnlyFlags, SlotsKeptBut, ControlKept, CursorKept, EngineKept, MemoryKept]

/-- `raise e` is the whole of trap entry (R293): the record and the engine state, nothing else. -/
theorem raises_raise (s : State) (e : EngineError) : Raises e s (s.raise e) := by
  refine ⟨by simp, rfl, ?_⟩
  simp [SlotsKeptBut, FlagsKept, ControlKept, CursorKept, MemoryKept]

theorem onlyFlags_setCm0 (s : State) (f : CmFlag) : OnlyFlags s (s.setCm0 f) := by
  simp [OnlyFlags, SlotsKeptBut, ControlKept, CursorKept, EngineKept, MemoryKept]

theorem onlyFlags_setSt0 (s : State) (f : Bool) : OnlyFlags s (s.setSt0 f) := by
  simp [OnlyFlags, SlotsKeptBut, ControlKept, CursorKept, EngineKept, MemoryKept]

/-- What a data effect leaves alone. -/
theorem DataEffect.frame {s t : State} (h : DataEffect s t) :
    CursorKept s t ∧ ControlKept s t ∧ MemoryKept s t ∧ t.cm0 = s.cm0 ∧ (t.st0 = s.st0 ∨ FailsOperand s t) := by
  cases h <;> simp [CursorKept, ControlKept, MemoryKept, failsOperand_operandFail]

/-- What an instruction that answers `t` did, by its kind; what a transfer did is `transfer_cases`. -/
inductive ExecKind (s : State) (i : Instr) (t : State) : Prop where
  | data (h : isData i = true) (e : DataEffect s t)
  | halt (h : isHalt i = true) (success : Bool) (e : t = s.halt success)
  | compare (h : (∃ b i1 i2, i = .cmpa b i1 i2) ∨ ∃ b i1 i2, i = .cmpr b i1 i2)
      (e : t = s.operandFail ∨ ∃ f, t = s.setCm0 f)
  | equate (h : (∃ b i1 i2, i = .eqa b i1 i2) ∨ ∃ b i1 i2, i = .eqr b i1 i2)
      (e : t = s.operandFail ∨ ∃ f, t = s.setSt0 f)
  | transfer (h : isTransfer i = true)

theorem ExecKind.ofData {s t : State} {i : Instr} (hd : isData i = true) (h : exec i s = .next t) : ExecKind s i t := by
  obtain ⟨t', h', e⟩ := exec_data_meaning hd s
  exact .data hd (next_inj.1 (h.symm.trans h') ▸ e)

/-- Every instruction is of one of the kinds. -/
theorem exec_kind {s t : State} {i : Instr} (h : exec i s = .next t) : ExecKind s i t := by
  have answer : ∀ {r : Result} {u : State}, exec i s = r → r = .next u → t = u := fun h1 h2 =>
    next_inj.1 (h.symm.trans (h1.trans h2))
  cases i with
  | fail => exact .halt rfl false (next_inj.1 h).symm
  | succ => exact .halt rfl true (next_inj.1 h).symm
  | cmpa b i1 i2 =>
    exact .compare (.inl ⟨_, _, _, rfl⟩) ((compareSlots_cases b.toBank i1 i2 s).imp (answer rfl)
      fun ⟨f, h'⟩ => ⟨f, answer rfl h'⟩)
  | cmpr b i1 i2 =>
    exact .compare (.inr ⟨_, _, _, rfl⟩) ((compareSlots_cases b.toBank i1 i2 s).imp (answer rfl)
      fun ⟨f, h'⟩ => ⟨f, answer rfl h'⟩)
  | eqa b i1 i2 =>
    exact .equate (.inl ⟨_, _, _, rfl⟩) ((equateSlots_cases b.toBank i1 i2 s).imp (answer rfl)
      fun ⟨f, h'⟩ => ⟨f, answer rfl h'⟩)
  | eqr b i1 i2 =>
    exact .equate (.inr ⟨_, _, _, rfl⟩) ((equateSlots_cases b.toBank i1 i2 s).imp (answer rfl)
      fun ⟨f, h'⟩ => ⟨f, answer rfl h'⟩)
  | jmp => exact .transfer rfl
  | jif => exact .transfer rfl
  | routine => exact .transfer rfl
  | call => exact .transfer rfl
  | exec => exact .transfer rfl
  | ret => exact .transfer rfl
  | _ => exact .ofData rfl h

/-- What a transfer that answers `t` did: it raised, or it is one of the six and completed (R144 to R149). -/
inductive TransferEffect (s : State) : Instr → State → Prop where
  | raised (i : Instr) (e : EngineError) : TransferEffect s i (s.raise e)
  | jmp (off : Offset) (h : s.countCheck = none) (g : s.gotoCheck s.curlib = none) :
      TransferEffect s (.jmp off) (s.countTransfer.goto s.curlib off)
  | jifTaken (off : Offset) (f : s.st0 = true) (h : s.countCheck = none) (g : s.gotoCheck s.curlib = none) :
      TransferEffect s (.jif off) (s.countTransfer.goto s.curlib off)
  | jifNot (off : Offset) (f : s.st0 = false) : TransferEffect s (.jif off) s
  | routine (off : Offset) (h : s.countCheck = none) (g : s.gotoCheck s.curlib = none) :
      TransferEffect s (.routine off) (s.pushReturn.countTransfer.goto s.curlib off)
  | call (lib : LibId) (off : Offset) (h : s.countCheck = none) (g : s.gotoCheck (some lib) = none) :
      TransferEffect s (.call lib off) (s.pushReturn.countTransfer.deepen.goto (some lib) off)
  | exec (lib : LibId) (off : Offset) (g : s.gotoCheck (some lib) = none) :
      TransferEffect s (.exec lib off) (s.goto (some lib) off)
  | ret (e : StackEntry) (rest : List StackEntry) (h : s.cs0 = e :: rest) (g : s.gotoCheck e.lib = none) :
      TransferEffect s .ret (State.goto { s with cs0 := rest } e.lib e.off)

/-- Every transfer does one of these. -/
theorem transfer_cases {s t : State} {i : Instr} (hi : isTransfer i = true) (h : exec i s = .next t) :
    TransferEffect s i t := by
  cases i with
  | jmp off =>
    rcases countedJump_cases h with ⟨a, b, rfl⟩ | ⟨e, rfl⟩
    · exact .jmp off a b
    · exact .raised _ e
  | jif off =>
    simp only [exec, execJif] at h
    split at h
    next hs =>
      rcases countedJump_cases h with ⟨a, b, rfl⟩ | ⟨e, rfl⟩
      · exact .jifTaken off hs a b
      · exact .raised _ e
    next hs => rw [← next_inj.1 h]; exact .jifNot off (by simpa using hs)
  | routine off =>
    rcases afterChecks_cases h with ⟨rfl, hc⟩ | ⟨e, -, rfl⟩
    · exact .routine off (hc _ (by simp)) (hc _ (by simp))
    · exact .raised _ e
  | call lib off =>
    rcases afterChecks_cases h with ⟨rfl, hc⟩ | ⟨e, -, rfl⟩
    · exact .call lib off (hc _ (by simp)) (hc _ (by simp))
    · exact .raised _ e
  | exec lib off =>
    rcases afterChecks_cases h with ⟨rfl, hc⟩ | ⟨e, -, rfl⟩
    · exact .exec lib off (hc _ (by simp))
    · exact .raised _ e
  | ret =>
    simp only [exec, execRet] at h
    split at h
    · rw [← next_inj.1 h]; exact .raised _ _
    next e rest hs =>
      rcases afterChecks_cases h with ⟨rfl, hc⟩ | ⟨e, -, rfl⟩
      · exact .ret e rest hs (hc _ (by simp))
      · exact .raised _ e
  | _ => cases hi

end Sys2Proof.Machine
end

