-- ==== Sys2Proof/Laws/PerInstr.lean ====
section
/-! SUPPORT. Facts of every instruction as syntax, one lemma per constructor. -/

namespace Sys2Proof.Laws

/-- The length in bytes of an instruction, by its format (spec/30_encoding.md R103, R109). -/
def instrSize : Instr → Nat
  | .fail | .succ | .ret => 1
  | .jmp _ | .jif _ | .routine _ | .cmpa _ _ _ | .cmpr _ _ _ | .eqa _ _ _ | .eqr _ _ _ | .lena _ _ _
  | .lenr _ _ _ | .cnta _ _ _ | .cntr _ _ _ | .neg _ _ _ | .and _ _ _ _ | .or _ _ _ _ | .xor _ _ _ _
  | .shl _ _ _ _ | .shr _ _ _ _ | .scl _ _ _ _ | .scr _ _ _ _ | .secpmul _ _ _ | .secpadd _ _ _ _
  | .edmul _ _ _ | .edadd _ _ _ _ => 3
  | .call _ _ | .exec _ _ => 35
  | .swp _ _ _ _ | .mov _ _ _ _ | .add _ _ _ _ | .sub _ _ _ _ | .mul _ _ _ _ | .div _ _ _ _ | .mod _ _ _ _
  | .abs _ _ _ _ => 4
  | .zeroa _ _ | .zeror _ _ | .zeros _ | .cleana _ _ | .cleanr _ _ | .cleans _ | .not _ _ | .secpgen _ _
  | .secpneg _ _ | .edgen _ _ | .edneg _ _ => 2
  | .puta _ _ lit => 4 + lit.length
  | .putr _ _ lit => 4 + lit.length
  | .puts _ lit => 4 + lit.length
  | .dgst _ _ _ _ _ _ => 5

@[simp] theorem bytes16_length (v : Offset) : (Machine.bytes16 v).length = 2 := rfl

end Sys2Proof.Laws

/-- The encoder writes as many bytes as the format of the instruction has (spec/30_encoding.md R103). -/
def Sys2Proof.Laws.EncodedSize.Statement (i : Sys2Proof.Instr) : Prop :=
  (Sys2Proof.encode i).length = Sys2Proof.Laws.instrSize i

namespace Sys2Proof.Laws

open Sys2Proof.Machine

theorem EncodedSize.fail : EncodedSize.Statement (.fail) := rfl

theorem EncodedSize.succ : EncodedSize.Statement (.succ) := rfl

theorem EncodedSize.jmp (off : Offset) : EncodedSize.Statement (.jmp off) := rfl

theorem EncodedSize.jif (off : Offset) : EncodedSize.Statement (.jif off) := rfl

theorem EncodedSize.routine (off : Offset) : EncodedSize.Statement (.routine off) := rfl

theorem EncodedSize.call (lib : LibId) (off : Offset) : EncodedSize.Statement (.call lib off) := by
  simp [EncodedSize.Statement, encode, encOff, instrSize, lib.len]

theorem EncodedSize.exec (lib : LibId) (off : Offset) : EncodedSize.Statement (.exec lib off) := by
  simp [EncodedSize.Statement, encode, encOff, instrSize, lib.len]

theorem EncodedSize.ret : EncodedSize.Statement (.ret) := rfl

theorem EncodedSize.swp (r1 r2 : RegRef) (x1 x2 : Bool) : EncodedSize.Statement (.swp r1 r2 x1 x2) := rfl

theorem EncodedSize.mov (src dst : RegRef) (x dup : Bool) : EncodedSize.Statement (.mov src dst x dup) := rfl

theorem EncodedSize.zeroa (b : ABank) (i : Fin 32) : EncodedSize.Statement (.zeroa b i) := rfl

theorem EncodedSize.zeror (b : RBank) (i : Fin 32) : EncodedSize.Statement (.zeror b i) := rfl

theorem EncodedSize.zeros (i : Fin 32) : EncodedSize.Statement (.zeros i) := rfl

theorem EncodedSize.cleana (b : ABank) (i : Fin 32) : EncodedSize.Statement (.cleana b i) := rfl

theorem EncodedSize.cleanr (b : RBank) (i : Fin 32) : EncodedSize.Statement (.cleanr b i) := rfl

theorem EncodedSize.cleans (i : Fin 32) : EncodedSize.Statement (.cleans i) := rfl

theorem EncodedSize.puta (b : ABank) (i : Fin 32) (lit : Bytes) : EncodedSize.Statement (.puta b i lit) := by
  simp [EncodedSize.Statement, encode, encLit, instrSize]; omega

theorem EncodedSize.putr (b : RBank) (i : Fin 32) (lit : Bytes) : EncodedSize.Statement (.putr b i lit) := by
  simp [EncodedSize.Statement, encode, encLit, instrSize]; omega

theorem EncodedSize.puts (i : Fin 32) (lit : Bytes) : EncodedSize.Statement (.puts i lit) := by
  simp [EncodedSize.Statement, encode, encLit, instrSize]; omega

theorem EncodedSize.cmpa (b : ABank) (i1 i2 : Fin 32) : EncodedSize.Statement (.cmpa b i1 i2) := rfl

theorem EncodedSize.cmpr (b : RBank) (i1 i2 : Fin 32) : EncodedSize.Statement (.cmpr b i1 i2) := rfl

theorem EncodedSize.eqa (b : ABank) (i1 i2 : Fin 32) : EncodedSize.Statement (.eqa b i1 i2) := rfl

theorem EncodedSize.eqr (b : RBank) (i1 i2 : Fin 32) : EncodedSize.Statement (.eqr b i1 i2) := rfl

theorem EncodedSize.lena (b : ABank) (i1 i2 : Fin 32) : EncodedSize.Statement (.lena b i1 i2) := rfl

theorem EncodedSize.lenr (b : RBank) (i1 i2 : Fin 32) : EncodedSize.Statement (.lenr b i1 i2) := rfl

theorem EncodedSize.cnta (b : ABank) (i1 i2 : Fin 32) : EncodedSize.Statement (.cnta b i1 i2) := rfl

theorem EncodedSize.cntr (b : RBank) (i1 i2 : Fin 32) : EncodedSize.Statement (.cntr b i1 i2) := rfl

theorem EncodedSize.add (m : Mode) (b : ABank) (i1 i2 : Fin 32) : EncodedSize.Statement (.add m b i1 i2) := rfl

theorem EncodedSize.sub (m : Mode) (b : ABank) (i1 i2 : Fin 32) : EncodedSize.Statement (.sub m b i1 i2) := rfl

theorem EncodedSize.mul (m : Mode) (b : ABank) (i1 i2 : Fin 32) : EncodedSize.Statement (.mul m b i1 i2) := rfl

theorem EncodedSize.div (m : Mode) (b : ABank) (i1 i2 : Fin 32) : EncodedSize.Statement (.div m b i1 i2) := rfl

theorem EncodedSize.neg (m : Mode) (b : ABank) (i1 : Fin 32) : EncodedSize.Statement (.neg m b i1) := rfl

theorem EncodedSize.mod (m : Mode) (b : ABank) (i1 i2 : Fin 32) : EncodedSize.Statement (.mod m b i1 i2) := rfl

theorem EncodedSize.abs (m : Mode) (b : ABank) (i1 i2 : Fin 32) : EncodedSize.Statement (.abs m b i1 i2) := rfl

theorem EncodedSize.and (b : ABank) (i1 i2 : Fin 32) (d : Fin 8) : EncodedSize.Statement (.and b i1 i2 d) := rfl

theorem EncodedSize.or (b : ABank) (i1 i2 : Fin 32) (d : Fin 8) : EncodedSize.Statement (.or b i1 i2 d) := rfl

theorem EncodedSize.xor (b : ABank) (i1 i2 : Fin 32) (d : Fin 8) : EncodedSize.Statement (.xor b i1 i2 d) := rfl

theorem EncodedSize.not (b : ABank) (i1 : Fin 32) : EncodedSize.Statement (.not b i1) := rfl

theorem EncodedSize.shl (b : ABank) (i1 i2 : Fin 32) (d : Fin 8) : EncodedSize.Statement (.shl b i1 i2 d) := rfl

theorem EncodedSize.shr (b : ABank) (i1 i2 : Fin 32) (d : Fin 8) : EncodedSize.Statement (.shr b i1 i2 d) := rfl

theorem EncodedSize.scl (b : ABank) (i1 i2 : Fin 32) (d : Fin 8) : EncodedSize.Statement (.scl b i1 i2 d) := rfl

theorem EncodedSize.scr (b : ABank) (i1 i2 : Fin 32) (d : Fin 8) : EncodedSize.Statement (.scr b i1 i2 d) := rfl

theorem EncodedSize.dgst (alg : Fin 32) (src : Fin 32) (off : Offset) (b : RBank) (dst : Fin 32) (clr : Bool) : EncodedSize.Statement (.dgst alg src off b dst clr) := rfl

theorem EncodedSize.secpgen (i1 : Fin 32) (d : Fin 8) : EncodedSize.Statement (.secpgen i1 d) := rfl

theorem EncodedSize.secpmul (i1 i2 : Fin 32) (d : Fin 8) : EncodedSize.Statement (.secpmul i1 i2 d) := rfl

theorem EncodedSize.secpadd (i1 i2 : Fin 32) (d : Fin 8) (ovf : Bool) : EncodedSize.Statement (.secpadd i1 i2 d ovf) := rfl

theorem EncodedSize.secpneg (i1 : Fin 32) (d : Fin 8) : EncodedSize.Statement (.secpneg i1 d) := rfl

theorem EncodedSize.edgen (i1 : Fin 32) (d : Fin 8) : EncodedSize.Statement (.edgen i1 d) := rfl

theorem EncodedSize.edmul (i1 i2 : Fin 32) (d : Fin 8) : EncodedSize.Statement (.edmul i1 i2 d) := rfl

theorem EncodedSize.edadd (i1 i2 : Fin 32) (d : Fin 8) (ovf : Bool) : EncodedSize.Statement (.edadd i1 i2 d ovf) := rfl

theorem EncodedSize.edneg (i1 : Fin 32) (d : Fin 8) : EncodedSize.Statement (.edneg i1 d) := rfl

end Sys2Proof.Laws
end

