-- ==== Sys2Proof/Laws/Value.lean ====
section
/-! SUPPORT. Byte strings as integers: the small lemmas of `uval`, `leNat`, `leInt`, `bitlen`, `extend`. -/

namespace Sys2Proof.Machine

@[simp] theorem uval_nil : uval [] = 0 := rfl

@[simp] theorem uval_cons (b : Byte) (x : Bytes) : uval (b :: x) = b.toNat + 256 * uval x := rfl

/-- An `n`-byte value is below `256^n`. -/
theorem uval_lt (x : Bytes) : uval x < 256 ^ x.length := by
  induction x with
  | nil => simp
  | cons b rest ih =>
    have hb := b.isLt
    simp only [uval_cons, List.length_cons, pow_succ]
    omega

@[simp] theorem leNat_length (n z : Nat) : (leNat n z).length = n := by
  induction n generalizing z with
  | zero => rfl
  | succ n ih => simp [leNat, ih]

/-- `U(LE_n(z)) = z mod 256^n`. -/
@[simp] theorem uval_leNat (n z : Nat) : uval (leNat n z) = z % 256 ^ n := by
  induction n generalizing z with
  | zero => simp [leNat, Nat.mod_one]
  | succ n ih =>
    rw [leNat, uval_cons, ih, BitVec.toNat_ofNat, show (2 : Nat) ^ 8 = 256 from rfl, pow_succ,
      Nat.mul_comm (256 ^ n) 256, Nat.mod_mul]

@[simp] theorem leInt_length (n : Nat) (z : Int) : (leInt n z).length = n := by simp [leInt]

/-- `U(LE_n(z)) = z mod 256^n` for an integer of either sign. -/
theorem uval_leInt (n : Nat) (z : Int) : (uval (leInt n z) : Int) = z % 256 ^ n := by
  have hpos : (0 : Int) < 256 ^ n := by positivity
  have h0 : 0 ≤ z % 256 ^ n := Int.emod_nonneg _ hpos.ne'
  have h1 : z % 256 ^ n < 256 ^ n := Int.emod_lt_of_pos _ hpos
  rw [leInt, uval_leNat, Int.natCast_mod, Int.toNat_of_nonneg h0]
  push_cast
  exact Int.emod_eq_of_lt h0 h1

/-- Two byte strings of one length with the same value are the same. -/
theorem uval_inj {x y : Bytes} (hl : x.length = y.length) (h : uval x = uval y) : x = y := by
  induction x generalizing y with
  | nil => cases y with
    | nil => rfl
    | cons _ _ => simp at hl
  | cons a x ih =>
    cases y with
    | nil => simp at hl
    | cons b y =>
      simp only [uval_cons, List.length_cons, Nat.add_right_cancel_iff] at h hl
      have ha := a.isLt
      have hb := b.isLt
      have h1 : a.toNat = b.toNat := by omega
      rw [BitVec.eq_of_toNat_eq h1, ih hl (by omega)]

theorem uval_append (x y : Bytes) : uval (x ++ y) = uval x + 256 ^ x.length * uval y := by
  induction x with
  | nil => simp
  | cons b rest ih =>
    simp only [List.cons_append, uval_cons, ih, List.length_cons, pow_succ]
    ring

@[simp] theorem uval_replicate_zero (n : Nat) : uval (List.replicate n 0#8) = 0 := by
  induction n with
  | zero => rfl
  | succ n ih => simp [List.replicate_succ, ih]

theorem uval_replicate_ff (n : Nat) : uval (List.replicate n 255) + 1 = 256 ^ n := by
  induction n with
  | zero => rfl
  | succ n ih =>
    simp only [List.replicate_succ, uval_cons, pow_succ]
    have : (255 : Byte).toNat = 255 := rfl
    omega

/-- `bitlen(z)` bits are enough for `z`. -/
theorem lt_two_pow_bitlen (z : Nat) : z < 2 ^ bitlen z := by
  unfold bitlen
  split
  · omega
  · exact Nat.lt_log2_self

/-- `bitlen(z)` is the least number of bits that is enough. -/
theorem bitlen_le {z k : Nat} (h : z < 2 ^ k) : bitlen z ≤ k := by
  unfold bitlen
  split
  · omega
  · next hz =>
    have := (Nat.log2_lt hz).2 h
    omega

theorem extend_length {x : Bytes} {m : Nat} (h : x.length ≤ m) (f : Bool) : (extend x m f).length = m := by
  simp [extend]; omega

/-- Zero extension keeps the unsigned value. -/
theorem uval_extend_false (x : Bytes) (m : Nat) : uval (extend x m false) = uval x := by
  simp [extend, uval_append]

theorem uval_take (x : Bytes) (m : Nat) : uval (x.take m) = uval x % 256 ^ m := by
  induction x generalizing m with
  | nil => simp
  | cons b rest ih =>
    cases m with
    | zero => simp [Nat.mod_one]
    | succ m =>
      have hb := b.isLt
      have h1 : (b.toNat + 256 * uval rest) % 256 = b.toNat := by omega
      have h2 : (b.toNat + 256 * uval rest) / 256 = uval rest := by omega
      rw [List.take_succ_cons, uval_cons, uval_cons, ih, pow_succ, Nat.mul_comm (256 ^ m) 256, Nat.mod_mul, h1, h2]

/-! #### The signed reading -/

/-- The top bit is set exactly when the unsigned value is in the upper half of the range. -/
theorem topBit_iff (x : Bytes) : topBit x = true ↔ 256 ^ x.length ≤ 2 * uval x := by
  rcases List.eq_nil_or_concat x with rfl | ⟨y, b, rfl⟩
  · simp [topBit]
  · have hy := uval_lt y
    have hb := b.isLt
    simp only [topBit, List.concat_eq_append, List.getLast?_concat, BitVec.msb_eq_decide, decide_eq_true_eq,
      uval_append, uval_cons, uval_nil, List.length_append, List.length_cons, List.length_nil, pow_succ, pow_zero,
      Nat.mul_zero, Nat.add_zero]
    constructor <;> intro h
    · have := Nat.mul_le_mul_left (256 ^ y.length) (show 128 ≤ b.toNat from h)
      omega
    · by_contra hc
      have := Nat.mul_le_mul_left (256 ^ y.length) (show b.toNat ≤ 127 by simp only [not_le] at hc; omega)
      omega

/-- The signed value, without the top bit. -/
theorem sval_eq (x : Bytes) :
    sval x = if 256 ^ x.length ≤ 2 * uval x then (uval x : Int) - 256 ^ x.length else uval x := by
  unfold sval
  by_cases h : topBit x = true
  · rw [if_pos h, if_pos ((topBit_iff x).1 h)]
  · rw [if_neg h, if_neg fun h' => h ((topBit_iff x).2 h')]

/-- The range of a signed value, doubled. -/
theorem sval_range (x : Bytes) : -(256 ^ x.length : Int) ≤ 2 * sval x ∧ 2 * sval x < 256 ^ x.length := by
  have h := uval_lt x
  rw [sval_eq]
  zify at h
  split
  · next h' => zify at h'; constructor <;> omega
  · next h' => zify at h'; constructor <;> omega

/-- The signed value and the unsigned value agree modulo `256^n`. -/
theorem sval_emod (x : Bytes) : sval x % 256 ^ x.length = uval x := by
  have h := uval_lt x
  zify at h
  rw [sval_eq]
  split
  · rw [Int.sub_emod_right, Int.emod_eq_of_lt (by omega) h]
  · rw [Int.emod_eq_of_lt (by omega) h]

/-- `S(LE_n(z)) = z` for a `z` in the signed range of `n` bytes. -/
theorem sval_leInt {n : Nat} {z : Int} (h1 : -(256 ^ n : Int) ≤ 2 * z) (h2 : 2 * z < 256 ^ n) :
    sval (leInt n z) = z := by
  have hu := uval_leInt n z
  rw [sval_eq, leInt_length]
  zify
  rw [hu]
  by_cases hz : 0 ≤ z
  · rw [Int.emod_eq_of_lt hz (by omega), if_neg (by omega)]
  · have : z % 256 ^ n = z + 256 ^ n := by
      rw [← Int.add_emod_right, Int.emod_eq_of_lt (by omega) (by omega)]
    rw [this, if_pos (by omega)]
    omega

/-- `U(LE_n(z)) = z` for a `z` in the unsigned range of `n` bytes. -/
theorem uval_leInt_of_range {n : Nat} {z : Int} (h1 : 0 ≤ z) (h2 : z < 256 ^ n) : (uval (leInt n z) : Int) = z := by
  rw [uval_leInt, Int.emod_eq_of_lt h1 h2]

end Sys2Proof.Machine
end

