-- ==== Sys2Proof/Tests/Slice0.lean ====
section
/-! SUPPORT. Tests with expected values from spec/95_test_vectors.md (named by their vector) or worked out from the rule
named, and one witness for the hypotheses of every statement that has any. -/

namespace Sys2Proof.Tests

open Sys2Proof Sys2Proof.Machine

set_option maxRecDepth 8000

/-! ### Helpers -/

/-- The library identifier of 32 equal bytes. -/
def lib (b : Byte) : LibId := ⟨List.replicate 32 b, by simp⟩

/-- `DIGEST(0)` has 32 bytes and `DIGEST(1)` 16, as in section 3.5 of the vectors. -/
def digests : DigestTable := ((Vector.replicate 32 none).set 0 (some .r256)).set 1 (some .r128)

/-- A slot and the value it holds. -/
structure Given where
  bank : Bank
  idx : Fin 32
  val : Bytes

/-- The reset state over `code`, with slots set. -/
def start (code : Bytes) (given : List Given) : State :=
  given.foldl (fun s g => s.setSlot g.bank g.idx (some g.val))
    { State.reset with code := Memory.ofBytes code, digest := digests }

/-- What a view of the next state gives, `none` without a next state. -/
def seen {α : Type} (view : State → α) : Result → Option α
  | .next t => some (view t)
  | .fault _ => none
  | .refused _ => none

/-- A slot, the status flag and the offset after one step from `start`. -/
def stepSlot (code : Bytes) (given : List Given) (b : Bank) (i : Fin 32) : Option (Slot × Bool × Nat) :=
  seen (fun t => (t.slot b i, t.st0, t.pos.toNat)) (step (start code given))

/-- The engine state and the fault record after one step from `start`. -/
def stepRun (code : Bytes) (given : List Given) : Option (Run × Option FaultRecord) :=
  seen (fun t => (t.run, t.flt)) (step (start code given))

/-- A fault in the launch buffer. -/
def faults (e : EngineError) (pc pos : Offset) : Option (Run × Option FaultRecord) :=
  some (.faulted e, some ⟨e, none, pc, pos⟩)

/-- The cursor at offset 0 of a buffer. -/
def cursor (x : Bytes) : Cursor := ⟨Memory.ofBytes x, 0, 0, false⟩

/-- A value and the cursor's `(pos, bit, eof)` after a cursor operation. -/
def outcome {α : Type} : CurOut α → Except Stop α × Nat × Nat × Bool
  | .ok a c => (.ok a, c.pos.toNat, c.bit.toNat, c.eof)
  | .stop why c => (.error why, c.pos.toNat, c.bit.toNat, c.eof)

/-- Every string of bytes decodes, whole, to its instruction, and is what the encoder writes. -/
def decodeAll (l : List (Bytes × Instr)) : Bool :=
  l.all fun e => decode digests (cursor e.1) == .ok e.2 { cursor e.1 with pos := BitVec.ofNat 16 e.1.length } &&
    encode e.2 == e.1 && e.2.wf

theorem test_decode_control : decodeAll
    [([0x00], .fail), ([0x01], .succ), ([0x02, 0x34, 0x12], .jmp 0x1234), ([0x03, 0x25, 0x00], .jif 37),
     ([0x04, 0xFF, 0xFF], .routine 65535), (0x05 :: List.replicate 32 0xA5 ++ [0x23, 0x00], .call (lib 0xA5) 35),
     (0x06 :: List.replicate 32 0x5A ++ [0x00, 0x01], .exec (lib 0x5A) 256), ([0x07], .ret)] = true := by decide

theorem test_decode_register : decodeAll
    [([0x20, 0x31, 0x40, 0x1F], .swp ⟨.a16, 0⟩ ⟨.a64, 31⟩ false true),
     ([0x21, 0x02, 0x60, 0x01], .mov ⟨.a32, 0⟩ ⟨.a8, 1⟩ true true), ([0x21, 0xF8, 0x20, 0x00], .mov ⟨.r128, 0⟩ ⟨.s, 0⟩ true false),
     ([0x22, 0x12], .zeroa .a32 2), ([0x23, 0x0E], .zeror .r8192 1), ([0x24, 0x1F], .zeros 31), ([0x25, 0xFF], .cleana .ap 31),
     ([0x26, 0x04], .cleanr .r2048 0), ([0x27, 0x03], .cleans 3), ([0x28, 0x0F, 0x03, 0x00, 1, 2, 3], .puta .ap 1 [1, 2, 3]),
     ([0x29, 0x08, 0x02, 0x00, 1, 2], .putr .r128 1 [1, 2]), ([0x2A, 0x00, 0x02, 0x00, 0x68, 0x69], .puts 0 [0x68, 0x69])] =
    true := by decide

theorem test_decode_comparison : decodeAll
    [([0x40, 0x0A, 0x00], .cmpa .a32 1 0), ([0x41, 0x00, 0x01], .cmpr .r128 0 1), ([0x42, 0x07, 0x1F], .eqa .ap 0 31),
     ([0x43, 0x01, 0x00], .eqr .r256 0 0), ([0x44, 0x01, 0x02], .lena .a16 0 2), ([0x45, 0x06, 0x01], .lenr .r8192 0 1),
     ([0x46, 0xF8, 0x00], .cnta .a8 31 0), ([0x47, 0x0A, 0x04], .cntr .r512 1 4)] = true := by decide

theorem test_decode_arithmetic : decodeAll
    [([0x60, 0x00, 0x06, 0x01], .add ⟨.checked, false⟩ .a512 0 1), ([0x61, 0x05, 0x01, 0x01], .sub ⟨.wrapping, true⟩ .a16 0 1),
     ([0x62, 0x02, 0x07, 0x01], .mul ⟨.arbitrary, false⟩ .ap 0 1), ([0x63, 0x04, 0x11, 0x03], .div ⟨.checked, true⟩ .a16 2 3),
     ([0x64, 0x06, 0x07], .neg ⟨.arbitrary, true⟩ .ap 0), ([0x65, 0x01, 0x0C, 0x1F], .mod ⟨.wrapping, false⟩ .a128 1 31),
     ([0x66, 0x07, 0x05, 0x01], .abs ⟨.float, true⟩ .a256 0 1)] = true := by decide

theorem test_decode_bitwise : decodeAll
    [([0x80, 0x00, 0x41], .and .a8 0 1 2), ([0x81, 0x09, 0xE0], .or .a16 1 0 7), ([0x82, 0x02, 0x1F], .xor .a32 0 31 0),
     ([0x83, 0x09], .not .a16 1), ([0x84, 0x03, 0x22], .shl .a64 0 2 1), ([0x85, 0x04, 0x41], .shr .a128 0 1 2),
     ([0x86, 0x05, 0x61], .scl .a256 0 1 3), ([0x87, 0x06, 0x81], .scr .a512 0 1 4)] = true := by decide

theorem test_decode_digest_curves : decodeAll
    [([0xA0, 0x21, 0x09, 0x34, 0x12], .dgst 0 1 0x1234 .r256 1 true), ([0xA1, 0x00, 0x00, 0x00, 0x00], .dgst 1 0 0 .r128 0 false),
     ([0xC0, 0x28], .secpgen 8 1), ([0xC1, 0x01, 0x02], .secpmul 1 2 0), ([0xC2, 0x40, 0x21], .secpadd 0 1 2 true),
     ([0xC3, 0x28], .secpneg 8 1), ([0xE0, 0xFF], .edgen 31 7), ([0xE1, 0xFF, 0x1F], .edmul 31 31 7),
     ([0xE2, 0x40, 0x01], .edadd 0 1 2 false), ([0xE3, 0x05], .edneg 5 0)] = true := by decide

/-! ### Decode errors (section 3.8) and ill-formed terms -/

/-- How the decode of a byte string stops, and where. -/
def decodeStop (x : Bytes) : Option (Stop × Nat) :=
  match decode digests (cursor x) with
  | .ok _ _ => none
  | .stop why c => some (why, c.pos.toNat)

theorem test_no_row : ∀ op ∈ [0x08, 0x1F, 0x2B, 0x3F, 0x48, 0x5F, 0x67, 0x7F, 0x88, 0x9F, 0xA2, 0xBF, 0xC4, 0xDF, 0xE4, (0xFF : Byte)],
    decodeStop [op, 0, 0, 0, 0] = some (.fail .unknownOpcode, 1) := by decide

theorem test_truncated :
    decodeStop [] = some (.fail .endOfBuffer, 0) ∧ decodeStop [0x02, 0x03] = some (.fail .endOfBuffer, 1) ∧
    decodeStop (0x05 :: List.replicate 20 0) = some (.fail .endOfBuffer, 1) ∧
    decodeStop [0x20, 0x31] = some (.fail .endOfBuffer, 2) ∧
    decodeStop [0x28, 0x02, 0x04, 0x00, 0x2A] = some (.fail .endOfBuffer, 2) := by decide

theorem test_illegal_fields : ∀ x ∈ ([[0x28, 0x00, 0x02, 0x00, 0x01, 0x02], [0x23, 0x07], [0x41, 0x07, 0x01], [0x80, 0x07, 0x00],
    [0x60, 0x02, 0x00, 0x01], [0x60, 0x00, 0x07, 0x01], [0xA0, 0x20, 0x00, 0x00, 0x00], [0xA0, 0x20, 0x07, 0x00, 0x00]] : List Bytes),
    decodeStop x = some (.fail .unknownOpcode, x.length) := by decide

theorem test_reserved_bits : ∀ x ∈ ([[0x21, 0x02, 0xC0, 0x01], [0x21, 0x02, 0x40, 0x21], [0x20, 0x02, 0x80, 0x01], [0x24, 0x20],
    [0x27, 0x80], [0x2A, 0x40, 0x00, 0x00], [0x40, 0x02, 0x21], [0x45, 0x00, 0x80], [0x60, 0x08, 0x00, 0x01], [0x64, 0x80, 0x00],
    [0x60, 0x00, 0x00, 0x40], [0xA0, 0x40, 0x01, 0x00, 0x00], [0xC1, 0x01, 0x22], [0xE1, 0x01, 0x22], [0xC2, 0x00, 0x41],
    [0xE2, 0x00, 0x80]] : List Bytes), decodeStop x = some (.fail .unknownOpcode, x.length) := by decide

/-- R113: each legality check refuses a term that breaks it alone, and lets its neighbour pass. -/
theorem test_ill_formed :
    (Instr.and .ap 0 1 2).wf = false ∧ (Instr.not .ap 0).wf = false ∧ (Instr.not .a512 0).wf = true ∧
    (Instr.add ⟨.arbitrary, false⟩ .a8 0 1).wf = false ∧ (Instr.add ⟨.checked, true⟩ .ap 0 1).wf = false ∧
    (Instr.abs ⟨.wrapping, true⟩ .ap 0 1).wf = false ∧ (Instr.add ⟨.float, true⟩ .ap 0 1).wf = true ∧
    (Instr.puta .a8 0 [1, 2]).wf = false ∧ (Instr.puta .a16 0 [1, 2]).wf = true ∧
    (Instr.putr .r128 0 (List.replicate 17 0)).wf = false ∧ (Instr.putr .r128 0 (List.replicate 16 0)).wf = true ∧
    (Instr.dgst 1 0 0 .r256 0 true).supported digests = false ∧ (Instr.dgst 2 0 0 .r128 0 true).supported digests = false ∧
    (Instr.dgst 1 0 0 .r128 0 true).supported digests = true := by decide

/-- R168: 65531 bytes are the longest literal the cursor can carry. -/
theorem test_literal_room (lit : Bytes) : (Instr.puts 0 lit).wf = decide (lit.length ≤ 65531) := by
  simp [Instr.wf, litOk]

/-- R27: a slot number outside 1..32 aborts. -/
theorem test_slot_numbers : ((start [] [⟨.a8, 0, [7]⟩]).slotNumber .a8 1).toOption = some (some [7]) ∧
    ((start [] []).slotNumber .s 32).toOption = some none ∧
    (start [] []).slotNumber .a8 0 = .error .indexOutOfRange ∧ (start [] []).slotNumber .a8 33 = .error .indexOutOfRange :=
  ⟨by decide, by decide, rfl, rfl⟩

/-! ### Cursor vectors (section 2) -/

/-- The field widths 3, 4, 5 and 7. -/
def w3 : FieldWidth := ⟨3, by decide, by decide⟩
def w4 : FieldWidth := ⟨4, by decide, by decide⟩
def w5 : FieldWidth := ⟨5, by decide, by decide⟩
def w7 : FieldWidth := ⟨7, by decide, by decide⟩

/-- A buffer of 65536 bytes, zero but for `x` at offset `a`, with the cursor at `pos`. -/
def big (a : Nat) (x : Bytes) (pos : Offset) : Cursor := ⟨(Memory.zeros 65536).putBytes a x, pos, 0, false⟩

theorem test_read_bits : readFields [w3, w5, w4, w4] (cursor [0xB5, 0x6C]) = .ok [5, 22, 12, 6] { cursor [0xB5, 0x6C] with pos := 2 } ∧
    readFields [w5, w7, w4] (cursor [0xB5, 0x6C]) = .ok [21, 101, 6] { cursor [0xB5, 0x6C] with pos := 2 } := by decide

theorem test_misaligned_access : curU8 { cursor [0xB5, 0x6C] with bit := 5 } =
    .stop (.abort .misalignedAccess) { cursor [0xB5, 0x6C] with bit := 5 } := by decide

theorem test_put_bits :
    (curPutBits w3 5 (cursor [0, 0])).bind (fun _ => curPutBits w5 0x16) = .ok () { cursor [0xB5, 0] with pos := 1 } ∧
    (curPutBits w3 0 (cursor [0xFF, 0xFF])).bind (fun _ => curPutBits w7 0x55) =
      .ok () { cursor [0xA8, 0xFE] with pos := 1, bit := 2 } ∧
    curPutBits w3 0xFD (cursor [0, 0]) = .ok () { cursor [5, 0] with bit := 3 } := by decide

theorem test_read_words :
    curU16 (cursor [0x34, 0x12]) = .ok 0x1234 { cursor [0x34, 0x12] with pos := 2 } ∧
    curI16 (cursor [0xFF, 0xFF]) = .ok (-1) { cursor [0xFF, 0xFF] with pos := 2 } ∧
    curI16 (cursor [0x00, 0x80]) = .ok (-32768) { cursor [0x00, 0x80] with pos := 2 } ∧
    curPutI16 (-32768) (cursor [1, 1]) = .ok () { cursor [0x00, 0x80] with pos := 2 } := by decide

theorem test_slices :
    curSlice (cursor [3, 0, 0x61, 0x62, 0x63, 0xFF]) = .ok [0x61, 0x62, 0x63] { cursor [3, 0, 0x61, 0x62, 0x63, 0xFF] with pos := 5 } ∧
    curSlice (cursor [0, 0, 0xFF]) = .ok [] { cursor [0, 0, 0xFF] with pos := 2 } ∧
    curSlice (cursor [4, 0, 0x61, 0x62, 0x63]) = .stop (.fail .endOfBuffer) (cursor [4, 0, 0x61, 0x62, 0x63]) ∧
    curPutSlice [0x61, 0x62, 0x63] (cursor (List.replicate 8 0)) = .ok () { cursor [3, 0, 0x61, 0x62, 0x63, 0, 0, 0] with pos := 5 } := by
  decide

theorem test_byte_65535 :
    outcome (curU8 (big 65535 [0x77] 65535)) = (.ok 0x77, 65535, 0, true) ∧
    outcome (curU16 (big 65533 [0x00, 0x66] 65533)) = (.ok 0x6600, 65535, 0, false) ∧
    outcome (curU16 (big 0 [] 65534)) = (.error (.fail (.outOfBoundaries 65536)), 65534, 0, false) ∧
    outcome (curU16 (big 0 [] 65535)) = (.error (.fail (.outOfBoundaries 65537)), 65535, 0, false) ∧
    outcome (curBlock32 (big 0 [] 65504)) = (.error (.fail (.outOfBoundaries 65536)), 65504, 0, false) ∧
    outcome (readFields [w4, w4] (big 65535 [0x77] 65535)) = (.ok [7, 7], 65535, 0, true) ∧
    outcome (readFields [w4, w7] (big 65535 [0x77] 65535)) = (.error (.fail (.outOfBoundaries 65536)), 65535, 4, false) := by decide

theorem test_slices_at_the_end :
    outcome (curSlice (big 65532 [1, 0, 0xAA] 65532)) = (.ok [0xAA], 65535, 0, false) ∧
    outcome (curSlice (big 65533 [1, 0, 0xAA] 65533)) = (.ok [0xAA], 65535, 0, true) ∧
    outcome (curSlice (big 65533 [0, 0] 65533)) = (.ok [], 65535, 0, false) ∧
    outcome (curSlice (big 65531 [2, 0] 65531)) = (.ok [0, 0], 65535, 0, false) := by decide

theorem test_slices_beyond_the_end :
    outcome (curSlice (big 65532 [2, 0] 65532)) = (.error (.fail (.outOfBoundaries 65536)), 65532, 0, false) ∧
    outcome (curSlice (big 0 [0xFF, 0xFF] 0)) = (.error (.fail (.outOfBoundaries 65537)), 0, 0, false) ∧
    outcome (curSlice (big 0 [0xFE, 0xFF] 0)) = (.error (.fail (.outOfBoundaries 65536)), 0, 0, false) := by decide

theorem test_value_too_long : curPutRegValue .a8 [1, 2] false (cursor [0, 0, 0]) = .stop (.abort .valueTooLong) (cursor [0, 0, 0]) ∧
    curPutRegValue .a16 [0x80] true (cursor [0, 0, 0]) = .ok () { cursor [0x80, 0xFF, 0] with pos := 2 } := by decide

/-! ### Register manipulation (section 3.1) -/

theorem test_mov_narrowing :
    stepSlot [0x21, 0x02, 0x40, 0x01] [⟨.a32, 0, [0x23, 1, 0, 0]⟩] .a8 1 = some (none, false, 4) ∧
    stepSlot [0x21, 0x02, 0x60, 0x01] [⟨.a32, 0, [0x23, 1, 0, 0]⟩] .a8 1 = some (some [0x23], true, 4) ∧
    stepSlot [0x21, 0x02, 0x00, 0x01] [⟨.a32, 0, [0x23, 0, 0, 0]⟩] .a32 0 = some (none, true, 4) ∧
    stepSlot [0x21, 0x22, 0x00, 0x00] [⟨.a32, 0, [0x23, 0, 0, 0]⟩] .a32 0 = some (some [0x23, 0, 0, 0], true, 4) := by decide

theorem test_mov_widening :
    stepSlot [0x21, 0x20, 0x60, 0x00] [⟨.a8, 0, [0x80]⟩] .a32 0 = some (some [0x80, 0xFF, 0xFF, 0xFF], true, 4) ∧
    stepSlot [0x21, 0x20, 0x40, 0x00] [⟨.a8, 0, [0x80]⟩] .a32 0 = some (some [0x80, 0, 0, 0], true, 4) ∧
    stepSlot [0x21, 0xF1, 0x40, 0x00] [⟨.a16, 0, [0x34, 0x12]⟩] .s 0 = some (some [0x34, 0x12], true, 4) ∧
    stepSlot [0x21, 0x17, 0x60, 0x00] [⟨.ap, 0, []⟩] .a16 0 = some (some [0, 0], true, 4) := by decide

theorem test_swp :
    stepSlot [0x20, 0x31, 0x20, 0x1F] [⟨.a16, 0, [0x80, 0xFF]⟩, ⟨.a64, 31, [7, 0, 0, 0, 0, 0, 0, 0]⟩] .a64 31 =
      some (some [0x80, 0xFF, 0xFF, 0xFF, 0xFF, 0xFF, 0xFF, 0xFF], true, 4) ∧
    stepSlot [0x20, 0x31, 0x40, 0x1F] [⟨.a16, 0, [0x80, 0xFF]⟩, ⟨.a64, 31, [0x45, 0x23, 1, 0, 0, 0, 0, 0]⟩] .a16 0 =
      some (some [0x45, 0x23], true, 4) := by decide

theorem test_swp_fails_whole :
    stepSlot [0x20, 0x31, 0x00, 0x1F] [⟨.a16, 0, [0x80, 0xFF]⟩, ⟨.a64, 31, [0, 0, 1, 0, 0, 0, 0, 0]⟩] .a64 31 =
      some (some [0, 0, 1, 0, 0, 0, 0, 0], false, 4) ∧
    stepSlot [0x20, 0x31, 0x00, 0x1F] [⟨.a16, 0, [1, 0]⟩] .a16 0 = some (some [1, 0], false, 4) := by decide

theorem test_zero :
    stepSlot [0x22, 0x12] [⟨.a32, 2, [1, 2, 3, 4]⟩] .a32 2 = some (some [0, 0, 0, 0], true, 2) ∧
    stepSlot [0x22, 0xFF] [] .ap 31 = some (some [], true, 2) ∧
    stepSlot [0x23, 0x00] [] .r128 0 = some (some (List.replicate 16 0), true, 2) ∧
    stepSlot [0x24, 0x00] [⟨.s, 0, [9]⟩] .s 0 = some (some [], true, 2) := by decide

theorem test_clean :
    stepSlot [0x25, 0x12] [⟨.a32, 2, [5, 0, 0, 0]⟩] .a32 2 = some (none, true, 2) ∧
    stepSlot [0x26, 0x08] [⟨.r128, 1, List.replicate 16 1⟩] .r128 1 = some (none, true, 2) ∧
    stepSlot [0x27, 0x03] [⟨.s, 3, [1]⟩] .s 3 = some (none, true, 2) := by decide

theorem test_put :
    stepSlot [0x28, 0x02, 0x01, 0x00, 0x2A] [] .a32 0 = some (some [0x2A, 0, 0, 0], true, 5) ∧
    stepSlot [0x28, 0x0F, 0x03, 0x00, 1, 2, 3] [] .ap 1 = some (some [1, 2, 3], true, 7) ∧
    stepSlot [0x29, 0x08, 0x02, 0x00, 1, 2] [] .r128 1 = some (some ([1, 2] ++ List.replicate 14 0), true, 6) ∧
    stepSlot [0x2A, 0x00, 0x02, 0x00, 0x68, 0x69] [] .s 0 = some (some [0x68, 0x69], true, 6) := by decide

/-! ### Comparison and measurement (section 3.2) -/

/-- The two flags and the offset after one step. -/
def stepFlags (code : Bytes) (given : List Given) : Option (CmFlag × Bool × Nat) :=
  seen (fun t => (t.cm0, t.st0, t.pos.toNat)) (step (start code given))

theorem test_cmpa :
    stepFlags [0x40, 0x02, 0x01] [⟨.a32, 0, [10, 0, 0, 0]⟩, ⟨.a32, 1, [20, 0, 0, 0]⟩] = some (.less, true, 3) ∧
    stepFlags [0x40, 0x0A, 0x00] [⟨.a32, 0, [10, 0, 0, 0]⟩, ⟨.a32, 1, [20, 0, 0, 0]⟩] = some (.greater, true, 3) ∧
    stepFlags [0x40, 0x00, 0x01] [⟨.a8, 0, [0x80]⟩, ⟨.a8, 1, [0x7F]⟩] = some (.greater, true, 3) ∧
    stepFlags [0x40, 0x07, 0x01] [⟨.ap, 0, [5]⟩, ⟨.ap, 1, [5, 0, 0]⟩] = some (.equal, true, 3) := by decide

theorem test_cmpr : stepFlags [0x41, 0x00, 0x01] [⟨.r128, 0, 1 :: List.replicate 15 0⟩, ⟨.r128, 1, List.replicate 15 0 ++ [1]⟩] =
    some (.less, true, 3) := by decide

theorem test_eq :
    stepFlags [0x42, 0x00, 0x01] [⟨.a8, 0, [5]⟩, ⟨.a8, 1, [5]⟩] = some (.equal, true, 3) ∧
    stepFlags [0x42, 0x00, 0x01] [⟨.a8, 0, [5]⟩, ⟨.a8, 1, [6]⟩] = some (.equal, false, 3) ∧
    stepFlags [0x43, 0x01, 0x00] [] = some (.equal, false, 3) ∧
    stepFlags [0x43, 0x00, 0x01] [⟨.r128, 0, List.replicate 16 7⟩, ⟨.r128, 1, List.replicate 16 7⟩] = some (.equal, true, 3) := by decide

theorem test_lena :
    stepSlot [0x44, 0x01, 0x00] [⟨.a16, 0, [0, 1]⟩] .a32 0 = some (some [9, 0, 0, 0], true, 3) ∧
    stepSlot [0x44, 0x01, 0x00] [⟨.a16, 0, [0, 0]⟩] .a32 0 = some (some [0, 0, 0, 0], true, 3) := by decide

theorem test_lenr : stepSlot [0x45, 0x00, 0x01] [⟨.r128, 0, List.replicate 16 0xFF⟩] .a32 1 = some (some [0x80, 0, 0, 0], true, 3) := by
  decide

theorem test_cnt :
    stepSlot [0x46, 0x00, 0x00] [⟨.a8, 0, [0xF1]⟩] .a32 0 = some (some [5, 0, 0, 0], true, 3) ∧
    stepSlot [0x47, 0x00, 0x00] [⟨.r128, 0, List.replicate 16 0⟩] .a32 0 = some (some [0, 0, 0, 0], true, 3) := by decide

/-! ### Arithmetic (section 3.3) -/

/-- `a8[1]` after an arithmetic instruction on `a8[1]` and `a8[2]`, and whether the run goes on. -/
def arith8 (op mode : Byte) (x y : Byte) : Option (Slot × Run) :=
  seen (fun t => (t.slot .a8 0, t.run)) (step (start [op, mode, 0x00, 0x01] [⟨.a8, 0, [x]⟩, ⟨.a8, 1, [y]⟩]))

theorem test_add :
    arith8 0x60 0x01 200 100 = some (some [44], .running) ∧ arith8 0x60 0x00 200 100 = some (some [200], .faulted .arithmeticOverflow) ∧
    arith8 0x60 0x04 0x7F 1 = some (some [0x7F], .faulted .arithmeticOverflow) ∧ arith8 0x60 0x05 0x7F 1 = some (some [0x80], .running) ∧
    arith8 0x60 0x05 0x80 0xFF = some (some [0x7F], .running) ∧ arith8 0x60 0x00 0xFF 0 = some (some [0xFF], .running) := by decide

theorem test_sub :
    arith8 0x61 0x00 0 1 = some (some [0], .faulted .arithmeticOverflow) ∧ arith8 0x61 0x01 0 1 = some (some [0xFF], .running) ∧
    stepSlot [0x61, 0x05, 0x01, 0x01] [⟨.a16, 0, [5, 0]⟩, ⟨.a16, 1, [7, 0]⟩] .a16 0 = some (some [0xFE, 0xFF], true, 4) := by decide

theorem test_mul :
    arith8 0x62 0x00 0x10 0x10 = some (some [0x10], .faulted .arithmeticOverflow) ∧ arith8 0x62 0x00 0x0F 0x11 = some (some [0xFF], .running) ∧
    arith8 0x62 0x05 0x80 0xFF = some (some [0x80], .running) := by decide

theorem test_div :
    stepSlot [0x63, 0x04, 0x11, 0x03] [⟨.a16, 2, [0xF9, 0xFF]⟩, ⟨.a16, 3, [2, 0]⟩] .a16 2 = some (some [0xFD, 0xFF], true, 4) ∧
    arith8 0x63 0x04 0x07 0xFE = some (some [0xFD], .running) ∧ arith8 0x63 0x04 0xF9 0xFE = some (some [3], .running) ∧
    arith8 0x63 0x04 0x80 0xFF = some (some [0x80], .faulted .arithmeticOverflow) ∧
    arith8 0x63 0x05 0x80 0xFF = some (some [0x80], .running) ∧ arith8 0x63 0x01 0x80 0 = some (some [0x80], .faulted .divisionByZero) := by
  decide

theorem test_mod :
    arith8 0x65 0x04 0x07 0xFE = some (some [1], .running) ∧ arith8 0x65 0x04 0xF9 0x02 = some (some [0xFF], .running) ∧
    arith8 0x65 0x00 0xF9 0x02 = some (some [1], .running) ∧ arith8 0x65 0x04 0x80 0xFF = some (some [0], .running) := by decide

theorem test_neg :
    stepSlot [0x64, 0x04, 0x02] [⟨.a32, 0, [1, 0, 0, 0]⟩] .a32 0 = some (some [0xFF, 0xFF, 0xFF, 0xFF], true, 3) ∧
    stepSlot [0x64, 0x01, 0x00] [⟨.a8, 0, [1]⟩] .a8 0 = some (some [0xFF], true, 3) ∧
    stepRun [0x64, 0x04, 0x00] [⟨.a8, 0, [0x80]⟩] = faults .arithmeticOverflow 0 3 := by decide

theorem test_abs :
    stepSlot [0x66, 0x04, 0x00, 0x01] [⟨.a8, 0, [0xFB]⟩] .a8 1 = some (some [5], true, 4) ∧
    stepSlot [0x66, 0x00, 0x00, 0x01] [⟨.a8, 0, [0x80]⟩] .a8 1 = some (some [0x80], true, 4) ∧
    stepRun [0x66, 0x04, 0x00, 0x01] [⟨.a8, 0, [0x80]⟩] = faults .arithmeticOverflow 0 4 := by decide

/-- R214: a floating mode faults before the unset operands are looked at; an unset operand is tested before the divisor. -/
theorem test_arithmetic_checks :
    stepRun [0x60, 0x03, 0x00, 0x01] [] = faults .unimplementedStub 0 4 ∧
    stepRun [0x60, 0x07, 0x07, 0x01] [] = faults .unimplementedStub 0 4 ∧
    stepSlot [0x63, 0x00, 0x00, 0x01] [⟨.a8, 1, [0]⟩] .a8 0 = some (none, false, 4) := by decide

/-- `ap[1]` after an arbitrary-precision instruction on `ap[1]` and `ap[2]`. -/
def arithAp (op mode : Byte) (x y : Bytes) : Option (Slot × Run) :=
  seen (fun t => (t.slot .ap 0, t.run)) (step (start [op, mode, 0x07, 0x01] [⟨.ap, 0, x⟩, ⟨.ap, 1, y⟩]))

theorem test_arbitrary_precision :
    arithAp 0x62 0x02 [0xFF, 0xFF] [0xFF, 0xFF] = some (some [1, 0, 0xFE, 0xFF], .running) ∧
    arithAp 0x60 0x02 [0xFF] [1] = some (some [0, 1], .running) ∧ arithAp 0x60 0x06 [0x7F] [1] = some (some [0x80, 0], .running) := by decide

theorem test_arbitrary_precision_sign :
    arithAp 0x61 0x02 [1] [2] = some (some [1], .faulted .arithmeticOverflow) ∧
    arithAp 0x61 0x06 [1] [2] = some (some [0xFF], .running) ∧ arithAp 0x61 0x02 [2, 0] [2] = some (some [], .running) ∧
    arithAp 0x63 0x02 [0x80] [] = some (some [0x80], .faulted .divisionByZero) := by decide

theorem test_neg_ap :
    stepSlot [0x64, 0x06, 0x07] [⟨.ap, 0, [0x80, 0]⟩] .ap 0 = some (some [0x80], true, 3) ∧
    stepSlot [0x64, 0x06, 0x07] [⟨.ap, 0, [0x80]⟩] .ap 0 = some (some [0x80, 0], true, 3) ∧
    stepRun [0x64, 0x02, 0x07] [⟨.ap, 0, [1]⟩] = faults .arithmeticOverflow 0 3 := by decide

/-! ### Bitwise (section 3.4) -/

theorem test_and_or_xor :
    stepSlot [0x80, 0x00, 0x41] [⟨.a8, 0, [0xF0]⟩, ⟨.a8, 1, [0x3C]⟩] .a8 2 = some (some [0x30], true, 3) ∧
    stepSlot [0x81, 0x00, 0x41] [⟨.a8, 0, [0xF0]⟩, ⟨.a8, 1, [0x3C]⟩] .a8 2 = some (some [0xFC], true, 3) ∧
    stepSlot [0x82, 0x00, 0x41] [⟨.a8, 0, [0xF0]⟩, ⟨.a8, 1, [0x3C]⟩] .a8 2 = some (some [0xCC], true, 3) := by decide

theorem test_bitwise_operands :
    stepSlot [0x82, 0x00, 0xE0] [⟨.a8, 0, [0x5A]⟩] .a8 7 = some (some [0], true, 3) ∧
    stepSlot [0x80, 0x00, 0x41] [⟨.a8, 0, [0x5A]⟩] .a8 2 = some (none, false, 3) := by decide

theorem test_not : stepSlot [0x83, 0x09] [⟨.a16, 1, [0xFF, 0]⟩] .a16 1 = some (some [0, 0xFF], true, 2) := by decide

/-- `a8[1]`, which held 0x81, after a shift or rotation by the amount. -/
def shifted (op : Byte) (amount : Byte) : Option (Slot × Bool × Nat) :=
  stepSlot [op, 0x00, 0x01] [⟨.a8, 0, [0x81]⟩, ⟨.a8, 1, [amount]⟩] .a8 0

theorem test_shl : shifted 0x84 1 = some (some [0x02], true, 3) ∧ shifted 0x84 7 = some (some [0x80], true, 3) ∧
    shifted 0x84 8 = some (some [0], true, 3) ∧
    stepSlot [0x84, 0x01, 0x41] [⟨.a16, 0, [1, 0x80]⟩, ⟨.a16, 1, [0, 1]⟩] .a16 2 = some (some [0, 0], true, 3) := by decide

theorem test_shr : shifted 0x85 1 = some (some [0x40], true, 3) ∧ shifted 0x85 7 = some (some [0x01], true, 3) ∧
    shifted 0x85 255 = some (some [0], true, 3) := by decide

theorem test_scl : shifted 0x86 0 = some (some [0x81], true, 3) ∧ shifted 0x86 7 = some (some [0xC0], true, 3) ∧
    shifted 0x86 9 = some (some [0x03], true, 3) ∧
    stepSlot [0x86, 0x01, 0x41] [⟨.a16, 0, [1, 0x80]⟩, ⟨.a16, 1, [0x11, 0]⟩] .a16 2 = some (some [3, 0], true, 3) := by decide

theorem test_scr : shifted 0x87 8 = some (some [0x81], true, 3) ∧ shifted 0x87 1 = some (some [0xC0], true, 3) ∧
    shifted 0x87 255 = some (some [0x03], true, 3) ∧
    stepSlot [0x87, 0x01, 0x41] [⟨.a16, 0, [1, 0x80]⟩, ⟨.a16, 1, [4, 0]⟩] .a16 2 = some (some [0, 0x18], true, 3) := by decide

/-! ### Digest and curves (sections 3.5 and 3.6) -/

theorem test_dgst_fails :
    stepSlot [0xA0, 0x20, 0x01, 0x03, 0x00] [⟨.s, 0, [0x68, 0x69]⟩] .s 0 = some (some [0x68, 0x69], false, 5) ∧
    stepSlot [0xA0, 0x21, 0x01, 0x00, 0x00] [⟨.s, 0, [0x68, 0x69]⟩] .r256 0 = some (none, false, 5) := by decide

theorem test_dgst_hashes_the_suffix :
    stepSlot [0xA0, 0x20, 0x01, 0x01, 0x00] [⟨.s, 0, [0x68, 0x69]⟩] .r256 0 =
      some (some (Config.digest 0 32 [0x69]).toList, true, 5) ∧
    stepSlot [0xA0, 0x20, 0x01, 0x01, 0x00] [⟨.s, 0, [0x68, 0x69]⟩] .s 0 = some (none, true, 5) := ⟨rfl, by decide⟩

theorem test_curve_unset :
    stepSlot [0xC0, 0x00] [] .r512 0 = some (none, false, 2) ∧ stepSlot [0xE0, 0x00] [] .r512 0 = some (none, false, 2) ∧
    stepSlot [0xC1, 0x01, 0x02] [⟨.r256, 1, List.replicate 32 1⟩] .r512 0 = some (none, false, 3) ∧
    stepSlot [0xE2, 0x40, 0x01] [⟨.r512, 0, List.replicate 64 1⟩] .r512 2 = some (none, false, 3) := by decide

/-- V113, V114, V115, V119: which slots a capability is handed, with which flag, and where its answer goes. -/
theorem test_curve_operands (k p q : Bytes) (s : State) (h1 : s.slot .r256 1 = some k) (h2 : s.slot .r512 2 = some p)
    (h3 : s.slot .r512 3 = some q) :
    execSecpmul 1 2 0 s = writePoint (Config.secpMul k p) 0 s ∧ execSecpadd 2 3 0 true s = writePoint (Config.secpAdd p q true) 0 s ∧
    execSecpneg 3 1 s = writePoint (Config.secpNeg q) 1 s ∧ execEdadd 3 2 4 false s = writePoint (Config.edAdd q p false) 4 s ∧
    execEdmul 1 3 7 s = writePoint (Config.edMul k q) 7 s ∧ execEdgen 1 2 s = writePoint (Config.edGen k) 2 s := by
  simp [execSecpmul, execSecpadd, execSecpneg, execEdadd, execEdmul, execEdgen, State.withSlots, State.withSlot, h1, h2, h3]

/-! ### Control flow (section 3.7) -/

/-- What a transfer writes: `cy0`, the stack, `libdepth`, `curlib`, the offset and the engine state. -/
structure ControlView where
  cy0 : Nat
  cs0 : List StackEntry
  libdepth : Nat
  curlib : Option LibId
  pos : Nat
  run : Run
  deriving DecidableEq, Repr

/-- The control state after one step. -/
def stepControl (s : State) : Option ControlView :=
  seen (fun t => ⟨t.cy0.toNat, t.cs0, t.libdepth.toNat, t.curlib, t.pos.toNat, t.run⟩) (step s)

/-- The code of `op h, off` for a library of 32 equal bytes. -/
def libCode (op : Byte) (b : Byte) (off : Bytes) : Bytes := op :: List.replicate 32 b ++ off

theorem test_halt : stepFlags [0x00] [] = some (.equal, false, 1) ∧ stepRun [0x00] [] = some (.halted false, none) ∧
    seen (fun t => (t.st0, t.run)) (step { start [0x01] [] with st0 := false }) = some (true, .halted true) := by decide

theorem test_jmp : stepControl (start [0x02, 0x03, 0x00] []) = some ⟨1, [], 0, none, 3, .running⟩ := by decide

theorem test_jif :
    stepControl { start [0x03, 0x10, 0x00] [] with st0 := false, cy0 := 65535 } = some ⟨65535, [], 0, none, 3, .running⟩ ∧
    stepControl { start [0x03, 0x10, 0x00] [] with cy0 := 65535 } = some ⟨65535, [], 0, none, 3, .faulted .counterExhausted⟩ ∧
    stepControl (start [0x03, 0x10, 0x00] []) = some ⟨1, [], 0, none, 16, .running⟩ := by decide

theorem test_routine : stepControl (start [0x04, 0x06, 0x00] []) = some ⟨1, [⟨none, 3⟩], 0, none, 6, .running⟩ := by decide

theorem test_call :
    stepControl { start (libCode 0x05 7 [0, 0]) [] with libs := [(lib 7, Memory.ofBytes [1])] } =
      some ⟨1, [⟨none, 35⟩], 1, some (lib 7), 0, .running⟩ ∧
    stepControl { start (libCode 0x05 7 [0x23, 0, 7]) [] with launchLib := some (lib 7), curlib := some (lib 7) } =
      some ⟨1, [⟨some (lib 7), 35⟩], 1, some (lib 7), 35, .running⟩ := by decide

theorem test_exec :
    stepControl { start (libCode 0x06 7 [0, 0]) [] with libs := [(lib 7, Memory.ofBytes [0])] } =
      some ⟨0, [], 0, some (lib 7), 0, .running⟩ ∧
    stepRun (libCode 0x06 7 [0, 0]) [] = faults (.libraryUnresolved (some (lib 7))) 0 35 := by decide

theorem test_ret :
    stepRun [0x07] [] = faults .callStackUnderflow 0 1 ∧
    stepControl { start [0x07] [] with libs := [(lib 7, Memory.ofBytes [0])], cs0 := [⟨some (lib 7), 41⟩, ⟨none, 2⟩], cy0 := 9, libdepth := 3 } =
      some ⟨9, [⟨none, 2⟩], 3, some (lib 7), 41, .running⟩ := by decide

/-! ### Byte 65535 (section 3.9) -/

/-- A running state over a buffer of 65536 bytes, zero but for `x` at offset `a`, with the cursor at `a`. -/
def startBig (a : Nat) (x : Bytes) : State :=
  { State.reset with code := (Memory.zeros 65536).putBytes a x, pos := BitVec.ofNat 16 a }

/-- The engine state, the offset and the sentinel after one step. -/
def stepEnd (s : State) : Option (Run × Nat × Bool) := seen (fun t => (t.run, t.pos.toNat, t.eof)) (step s)

theorem test_halt_on_the_last_byte : stepEnd (startBig 65535 [1]) = some (.halted true, 65535, true) := by decide

theorem test_ret_under_eof : stepEnd { startBig 65535 [7] with cs0 := [⟨none, 3⟩], cy0 := 1 } =
    some (.faulted .endOfBuffer, 65535, true) := by decide

theorem test_operand_beyond_the_end :
    stepEnd (startBig 65534 [2]) = some (.faulted (.outOfBoundaries 65537), 65535, false) ∧
    stepEnd (startBig 65533 [2]) = some (.faulted (.outOfBoundaries 65536), 65534, false) := by decide

theorem test_operand_on_the_last_byte :
    seen (fun t => (t.slot .a8 0, t.pos.toNat, t.eof)) (step (startBig 65534 [0x22, 0])) = some (some [0], 65535, true) ∧
    seen (fun t => (t.slot .a8 0, t.pos.toNat, t.eof)) (step (startBig 65531 [0x28, 0, 1, 0, 7])) = some (some [7], 65535, true) := by
  decide

/-! ### Runs, launches and the host's words (sections 4 and 5) -/

theorem test_running_off_the_end : stepRun [] [] = faults .endOfBuffer 0 0 ∧
    seen (fun t => (t.run, t.pos.toNat)) (runFor 2 (start [0x22, 0x00] [])) = some (.faulted .endOfBuffer, 2) := by decide

/-- P6: an operation failure steers a branch. -/
theorem test_failure_steers_a_branch :
    seen report (runFor 9 (start [0x60, 0x00, 0x00, 0x01, 0x03, 0x08, 0x00, 0x00, 0x01] [])) =
      some (some ⟨.halted false, false, none, .unset, .equal, 0, 0, [], 0, none⟩) := by decide

theorem test_report_of_a_running_engine : report (start [0x01] []) = none := by decide

/-- R323: a launch with a buffer beyond 65536 bytes, or with two buffers for one identifier, is refused. -/
theorem test_launch_refusals :
    seen (fun t => t.code.len) (launch ⟨Memory.zeros 65537, none, [], digests⟩) = none ∧
    seen (fun t => t.code.len) (launch ⟨.empty, none, [(lib 7, .empty), (lib 7, Memory.zeros 1)], digests⟩) = none ∧
    seen (fun t => t.code.len) (launch ⟨Memory.zeros 65536, some (lib 7), [(lib 8, .empty)], digests⟩) = some 65536 := by decide

/-- The word of `zeroa ap[32]` is where the next step fetches it, and decodes to it. -/
theorem test_fetch_word : decodeTableWord 16 0xFF22 = some (.zeroa .ap 31) ∧
    seen (fun t => (t.slot .ap 31, t.run)) (step (State.reset.withFetchWord 16 0xFF22)) = some (some [], .running) ∧
    seen (fun t => t.st0) (step (State.reset.withFetchWord 40 0x00000120A0)) = some false := by decide

/-! ### Witnesses: states and operands that meet the hypotheses of a statement, clause by clause -/

/-- The invariant holds of a state that has only just been launched, whatever its code. -/
theorem inv_start (code : Bytes) (h : code.length ≤ Config.codeMax) : Inv (start code []) where
  aligned := rfl
  eofAtEnd := nofun
  current := rfl
  stacked := nofun
  depth := Nat.zero_le _
  libdepth := Nat.zero_le _
  slots := fun b i v hv => by
    have : (start code []).slot b i = none := by
      cases b <;> simp [start, State.slot, State.reset, Registers.bank, Registers.unset, BankSlots.unset]
    rw [this] at hv
    cases hv
  code := Memory.ofBytes_wf h
  libs := nofun
  fault := rfl

/-- Short of the end, at the last offset the cursor reaches without the sentinel, and on byte 65535. -/
theorem witness_DecodeInvertsEncode :
    ((Instr.dgst 1 31 0xFFFF .r128 31 true).wf = true ∧ (Instr.dgst 1 31 0xFFFF .r128 31 true).supported digests = true ∧
      (cursor [0xA1, 0x3F, 0xF8, 0xFF, 0xFF]).bit = 0 ∧ (cursor [0xA1, 0x3F, 0xF8, 0xFF, 0xFF]).eof = false ∧
      0 + (encode (.dgst 1 31 0xFFFF .r128 31 true)).length ≤ Config.posMax ∧
      (cursor [0xA1, 0x3F, 0xF8, 0xFF, 0xFF]).buf.read 0 (encode (.dgst 1 31 0xFFFF .r128 31 true)).length =
        some (encode (.dgst 1 31 0xFFFF .r128 31 true))) ∧
    (65533 + (encode (.zeros 31)).length ≤ Config.posMax ∧
      (big 65533 [0x24, 0x1F] 65533).buf.read 65533 (encode (.zeros 31)).length = some (encode (.zeros 31))) ∧
    (endsOnByte (.zeros 31) = true ∧ 65534 + (encode (.zeros 31)).length = Config.codeMax ∧
      (big 65534 [0x24, 0x1F] 65534).buf.read 65534 (encode (.zeros 31)).length = some (encode (.zeros 31))) ∧
    (endsOnByte (.puts 0 [9]) = true ∧ 65531 + (encode (.puts 0 [9])).length = Config.codeMax ∧
      (big 65531 [0x2A, 0, 1, 0, 9] 65531).buf.read 65531 (encode (.puts 0 [9])).length = some (encode (.puts 0 [9]))) := by
  decide

/-- An `off16`, an empty literal and a payload of two bytes, each ending on byte 65535. -/
theorem witness_WideReadsStopShortOfTheLastByte :
    (endsOnByte (.jmp 0x0102) = false ∧ 65533 + (encode (.jmp 0x0102)).length = Config.codeMax ∧
      (big 65533 [2, 2, 1] 65533).buf.read 65533 (encode (.jmp 0x0102)).length = some (encode (.jmp 0x0102))) ∧
    ((Instr.puts 0 []).wf = true ∧ endsOnByte (.puts 0 []) = false ∧ 65532 + (encode (.puts 0 [])).length = Config.codeMax ∧
      (big 65532 [0x2A, 0, 0, 0] 65532).buf.read 65532 (encode (.puts 0 [])).length = some (encode (.puts 0 []))) ∧
    ((Instr.puts 0 [8, 9]).wf = true ∧ endsOnByte (.puts 0 [8, 9]) = false ∧
      65530 + (encode (.puts 0 [8, 9])).length = Config.codeMax ∧
      (big 65530 [0x2A, 0, 2, 0, 8, 9] 65530).buf.read 65530 (encode (.puts 0 [8, 9])).length = some (encode (.puts 0 [8, 9]))) := by
  decide

theorem witness_DecodedBytesAreTheEncoding :
    decode digests (big 65535 [1] 65535) = .ok .succ { big 65535 [1] 65535 with eof := true } ∧
    decode digests (big 65533 [0x24, 0x1F] 65533) = .ok (.zeros 31) { big 65533 [0x24, 0x1F] 65533 with pos := 65535 } := by decide

theorem witness_DecodedInstructionsAreLegal :
    decode digests (big 65534 [0x24, 0x1F] 65534) = .ok (.zeros 31) { big 65534 [0x24, 0x1F] 65534 with pos := 65535, eof := true } := by
  decide

theorem witness_ReservedOpcodesAreUnknown :
    (∀ op ∈ [0x08, 0x1F, 0x2B, 0x3F, 0x48, 0x5F, 0x67, 0x7F, 0x88, 0x9F, 0xC4, 0xDF, 0xE4, (0xFF : Byte)],
      (start [op] []).run = .running ∧ (start [op] []).bit = 0 ∧ (start [op] []).eof = false ∧
      (start [op] []).buffer none = some (Memory.ofBytes [op]) ∧ 0 < (Memory.ofBytes [op]).len ∧ (Memory.ofBytes [op]).byte 0 = op) ∧
    ((Memory.ofBytes [0xA2]).byte 0 = 0xA2 ∧ (start [0xA2] []).digest[(2 : Fin 32)] = none ∧
      (Memory.ofBytes [0xBF]).byte 0 = 0xBF ∧ (start [0xBF] []).digest[(31 : Fin 32)] = none) := by decide

theorem witness_DecodeStopsAreDecodeErrors :
    decode digests (cursor []) = .stop (.fail .endOfBuffer) (cursor []) ∧
    decode digests (cursor [0x24, 0x20]) = .stop (.fail .unknownOpcode) { cursor [0x24, 0x20] with pos := 2 } ∧
    decode digests (big 65533 [0x02] 65533) = .stop (.fail (.outOfBoundaries 65536)) { big 65533 [0x02] 65533 with pos := 65534 } ∧
    decode digests (big 65531 [0x28, 0x07, 0xFF, 0xFF] 65531) =
      .stop (.fail (.outOfBoundaries 131070)) { big 65531 [0x28, 0x07, 0xFF, 0xFF] 65531 with pos := 65533 } := by decide

theorem witness_OperandBytesAreBitFields : ([w3, w5].map FieldWidth.w).sum = 8 ∧ (cursor []).bit = 0 ∧ (cursor [0xB5]).bit = 0 := by decide

theorem witness_CursorFailureIsAtomic :
    curBits w7 (cursor []) = .stop (.fail .endOfBuffer) (cursor []) ∧
    curU16 (big 0 [] 65534) = .stop (.fail (.outOfBoundaries 65536)) (big 0 [] 65534) ∧
    curPutSlice [1, 2] (big 0 [] 65532) = .stop (.fail (.outOfBoundaries 65536)) (big 0 [] 65532) ∧
    curSeek 0 { cursor [] with eof := true } = .stop (.fail .endOfBuffer) { cursor [] with eof := true } ∧
    curPutRegValue .a8 [1, 2] false (cursor []) = .stop (.abort .valueTooLong) (cursor []) := by decide

theorem witness_SentinelEndsTheBuffer :
    ((big 65535 [0x77] 65535).bit = 0 ∧ (big 65535 [0x77] 65535).eof = false ∧ (big 65535 [0x77] 65535).pos = 65535 ∧
      (big 65535 [0x77] 65535).buf.len = 65536) ∧
    ((big 0 [] 65534).bit = 0 ∧ (big 0 [] 65534).eof = false ∧ (big 0 [] 65534).pos = 65534) ∧
    ({ big 0 [] 65535 with eof := true } : Cursor).eof = true ∧
    (Bank.bytes .a16 = some 2 ∧ ([1, 2] : Bytes).length ≤ 2 ∧ 2 < ([1, 2, 3] : Bytes).length) := by decide

theorem witness_WritesReadBack_bits : (big 0 [] 65534).buf.wf ∧ 127 < 2 ^ w7.w ∧
    curPutBits w7 127 { big 0 [] 65534 with bit := 4 } = .ok () { big 65534 [0xF0, 0x07] 65535 with bit := 3 } := by decide

theorem witness_WritesReadBack_words :
    curPutU16 0xBEEF (big 0 [] 65533) = .ok () (big 65533 [0xEF, 0xBE] 65535) ∧
    curPutI16 (-32768) (big 0 [] 65533) = .ok () (big 65533 [0x00, 0x80] 65535) ∧
    curPutI16 32767 (big 0 [] 65533) = .ok () (big 65533 [0xFF, 0x7F] 65535) ∧
    curPutBlock32 (lib 9) (big 0 [] 65503) = .ok () (big 65503 (List.replicate 32 9) 65535) := by decide

theorem witness_WritesReadBack_slices :
    curPutSlice [7, 8] (big 0 [] 65531) = .ok () (big 65531 [2, 0, 7, 8] 65535) ∧
    curPutSlice [7] (big 0 [] 65533) = .ok () { big 65533 [1, 0, 7] 65535 with eof := true } := by decide

theorem witness_StepRunsTheDecodedInstruction :
    (start [0x24, 0x1F] []).run = .running ∧ (start [0x24, 0x1F] []).buffer none = some (Memory.ofBytes [0x24, 0x1F]) ∧
    decode (start [0x24, 0x1F] []).digest ⟨Memory.ofBytes [0x24, 0x1F], 0, 0, false⟩ =
      .ok (.zeros 31) ⟨Memory.ofBytes [0x24, 0x1F], 2, 0, false⟩ := by decide

theorem witness_LaunchMeetsTheInvariant :
    (LaunchParams.mk (Memory.zeros 65536) (some (lib 7)) [(lib 7, Memory.ofBytes [1]), (lib 8, .empty)] digests).ok = true := by decide

theorem witness_StepKeepsTheInvariant : Inv (start [0x02, 0x03, 0x00] []) ∧ ∃ t, step (start [0x02, 0x03, 0x00] []) = .next t :=
  ⟨inv_start _ (by decide), _, rfl⟩

theorem witness_StepOutcomesAreExhaustive : Inv (start [] []) ∧ (start [] []).run = .running := ⟨inv_start _ (by decide), rfl⟩

theorem witness_TerminalStatesHaveNoStep :
    (State.reset.halt true).run ≠ .running ∧ (State.reset.raise .endOfBuffer).run ≠ .running ∧
    (State.reset.abort .misalignedAccess).run ≠ .running := by decide

theorem witness_OnlyMisalignmentAborts :
    ((start [0x24, 0x1F] []).bit = 0 ∧ ∃ t, step (start [0x24, 0x1F] []) = .next t) ∧
    ({ start [0] [] with bit := 7 } : State).run = .running ∧ ({ start [0] [] with bit := 7 } : State).bit ≠ 0 ∧
    ({ start [0] [] with bit := 7 } : State).eof = false ∧ (({ start [0] [] with bit := 7 } : State).buffer none).isSome = true :=
  ⟨⟨rfl, _, rfl⟩, by decide⟩

theorem witness_StepNeverWritesMemory : ∃ t, step (start [0x2A, 0x00, 0x01, 0x00, 0x68] []) = .next t := ⟨_, rfl⟩

theorem witness_FaultsArePrecise :
    (start [0x60, 0x03, 0x00, 0x01] []).bit = 0 ∧
    ∃ t, step (start [0x60, 0x03, 0x00, 0x01] []) = .next t ∧ t.run = .faulted .unimplementedStub := ⟨rfl, _, rfl, rfl⟩

theorem witness_FetchPastTheEndFaults :
    ((start [1] []).buffer none = some (Memory.ofBytes [1]) ∧ (Memory.ofBytes [1]).len ≤ ({ start [1] [] with pos := 1 } : State).pos.toNat) ∧
    ({ startBig 65535 [1] with eof := true } : State).eof = true := by decide

theorem witness_OnlyTransfersMoveTheCursor : isTransfer (.zeros 31) = false ∧ ∃ t, exec (.zeros 31) State.reset = .next t := ⟨rfl, _, rfl⟩

theorem witness_StatusFlagWriters : ∃ t, exec .fail State.reset = .next t ∧ t.st0 ≠ State.reset.st0 := ⟨_, rfl, by decide⟩

theorem witness_OrderingFlagWriters :
    ∃ t, exec (.cmpa .a8 0 1) (start [] [⟨.a8, 0, [1]⟩, ⟨.a8, 1, [2]⟩]) = .next t ∧
      t.cm0 ≠ (start [] [⟨.a8, 0, [1]⟩, ⟨.a8, 1, [2]⟩]).cm0 := ⟨_, rfl, by decide⟩

theorem witness_CountersCountTransfers : (∃ t, exec (.routine 9) State.reset = .next t ∧ t.cy0 = 1 ∧ t.cp0 = 1) ∧
    ∃ t, exec .ret State.reset = .next t ∧ t.run = .faulted .callStackUnderflow := ⟨⟨_, rfl, rfl, rfl⟩, _, rfl, rfl⟩

theorem witness_StepsWithoutExecUseTheBudget :
    (start [0x24, 0x1F] []).bit = 0 ∧ ∃ t, step (start [0x24, 0x1F] []) = .next t ∧ t.run = .running ∧
      ∀ lib off s', fetch (start [0x24, 0x1F] []) ≠ .instr (.exec lib off) s' :=
  ⟨rfl, _, rfl, rfl, fun _ _ _ => nofun⟩

/-- A `succ` followed by the bytes of an `exec`, which no step fetches. -/
theorem witness_RunsWithoutExecEnd :
    Inv (start (1 :: encode (.exec (lib 7) 0)) []) ∧
    (∀ n u, runFor n (start (1 :: encode (.exec (lib 7) 0)) []) = .next u → u.run = .running →
      ∀ lib off u', fetch u ≠ .instr (.exec lib off) u') ∧
    (∃ t, runFor 1 (start (1 :: encode (.exec (lib 7) 0)) []) = .next t ∧ t.run = .halted true) ∧
    ∃ s, launch ⟨Memory.ofBytes [1], none, [], digests⟩ = .next s := by
  refine ⟨inv_start _ (by decide), ?_, ⟨_, rfl, rfl⟩, _, rfl⟩
  intro n u h hr
  match n with
  | 0 => cases h; exact fun _ _ _ => nofun
  | n + 1 =>
    obtain ⟨t, h1, ht⟩ : ∃ t, (∀ n, runFor (n + 1) (start (1 :: encode (.exec (lib 7) 0)) []) = runFor n t) ∧
        t.run = .halted true := ⟨_, fun _ => rfl, rfl⟩
    have h2 : runFor n t = .next t := by cases n <;> simp [runFor, ht]
    rw [h1, h2] at h
    cases h
    rw [ht] at hr
    cases hr

/-- Two slots of `a8` set. -/
def two8 (x y : Byte) : State := start [] [⟨.a8, 0, [x]⟩, ⟨.a8, 1, [y]⟩]

theorem witness_UnsetOperandsFailTheOperation :
    (Instr.add ⟨.checked, true⟩ .a8 0 31).wf = true ∧ (Instr.add ⟨.checked, true⟩ .a8 0 31).supported (two8 1 2).digest = true ∧
    (∀ m, modeOf (.add ⟨.checked, true⟩ .a8 0 31) = some m → m.kind ≠ .float) ∧
    ∃ p ∈ operandSlots (.add ⟨.checked, true⟩ .a8 0 31), (two8 1 2).slot p.1 p.2 = none := by
  refine ⟨rfl, rfl, fun m h => ?_, (.a8, 31), by decide, by decide⟩
  cases h
  decide

/-- The reset state with a counter and a sentinel. -/
def counted (cy0 : BitVec 16) (eof : Bool) : State := { State.reset with cy0 := cy0, eof := eof }

theorem witness_JmpCountsAndTransfers :
    ((counted 65534 false).eof = false ∧ (counted 65534 false).cy0 ≠ 65535) ∧ (counted 65535 false).cy0 = 65535 ∧
    ((counted 65534 true).cy0 ≠ 65535 ∧ (counted 65534 true).eof = true) := by decide

theorem witness_JifFollowsTheStatusFlag :
    (counted 65535 true).operandFail.st0 = false ∧
    ((counted 65534 false).st0 = true ∧ (counted 65534 false).eof = false ∧ (counted 65534 false).cy0 ≠ 65535) ∧
    ((counted 65535 false).st0 = true ∧ (counted 65535 false).cy0 = 65535) ∧
    ((counted 65534 true).st0 = true ∧ (counted 65534 true).cy0 ≠ 65535 ∧ (counted 65534 true).eof = true) := by decide

/-- A stack of `n` entries. -/
def deep (n : Nat) : State := { State.reset with cs0 := List.replicate n ⟨none, 3⟩ }

theorem deep_cp0 (n : Nat) : (deep n).cp0 = n := by simp [deep, State.cp0]

theorem witness_RoutinePushesAndTransfers :
    ((deep 65535).eof = false ∧ (deep 65535).cy0 ≠ 65535 ∧ (deep 65535).cp0 < 65536) ∧ (counted 65535 false).cy0 = 65535 ∧
    ((deep 65536).cy0 ≠ 65535 ∧ 65536 ≤ (deep 65536).cp0) ∧
    ((counted 65534 true).cy0 ≠ 65535 ∧ (counted 65534 true).cp0 < 65536 ∧ (counted 65534 true).eof = true) := by
  simp only [deep_cp0]
  decide

/-- The reset state with a library, as the current one or not, and a sentinel. -/
def withLib (current eof : Bool) : State :=
  { State.reset with libs := [(lib 7, Memory.ofBytes [1])], curlib := if current then some (lib 7) else none, eof := eof }

theorem witness_CallPushesAndEntersTheLibrary :
    ((withLib true false).cy0 ≠ 65535 ∧ (withLib true false).cp0 < 65536 ∧ (withLib true false).curlib = some (lib 7) ∧
      (withLib true false).eof = false) ∧
    ((withLib false true).curlib ≠ some (lib 7) ∧ ((withLib false true).buffer (some (lib 7))).isSome = true) ∧
    (counted 65535 false).cy0 = 65535 ∧ ((deep 65536).cy0 ≠ 65535 ∧ 65536 ≤ (deep 65536).cp0) ∧
    ((withLib false false).curlib ≠ some (lib 8) ∧ (withLib false false).buffer (some (lib 8)) = none) ∧
    ((withLib true true).curlib = some (lib 7) ∧ (withLib true true).eof = true) := by
  simp only [deep_cp0]
  decide

theorem witness_ExecTransfersUncounted :
    ((withLib true false).curlib = some (lib 7) ∧ (withLib true false).eof = false) ∧
    ((withLib false true).curlib ≠ some (lib 7) ∧ ((withLib false true).buffer (some (lib 7))).isSome = true) ∧
    ((withLib false false).curlib ≠ some (lib 8) ∧ (withLib false false).buffer (some (lib 8)) = none) ∧
    ((withLib true true).curlib = some (lib 7) ∧ (withLib true true).eof = true) := by decide

/-- The state with one return entry. -/
def returnTo (l : Option LibId) (eof : Bool) : State := { withLib false eof with cs0 := [⟨l, 41⟩] }

theorem witness_RetPopsAndResumes :
    ((returnTo none false).cs0 = [⟨none, 41⟩] ∧ (returnTo none false).curlib = none ∧ (returnTo none false).eof = false) ∧
    ((returnTo (some (lib 7)) true).cs0 = [⟨some (lib 7), 41⟩] ∧ some (lib 7) ≠ (returnTo (some (lib 7)) true).curlib ∧
      ((returnTo (some (lib 7)) true).buffer (some (lib 7))).isSome = true) ∧
    (withLib true true).cs0 = [] ∧
    ((returnTo none true).cs0 = [⟨none, 41⟩] ∧ (returnTo none true).curlib = none ∧ (returnTo none true).eof = true) ∧
    ((returnTo (some (lib 8)) true).cs0 = [⟨some (lib 8), 41⟩] ∧ some (lib 8) ≠ (returnTo (some (lib 8)) true).curlib ∧
      (returnTo (some (lib 8)) true).buffer (some (lib 8)) = none) := by decide

/-- For `routine` and `call`, with the state right after the transfer in the place of the later state. -/
theorem witness_ReturnsGoBackToTheCaller :
    Inv (start [] []) ∧ (start [] []).run = .running ∧
    (∃ t, exec (.routine 9) (start [] []) = .next t ∧ t.run = .running ∧ t.eof = false) ∧
    Inv { start [] [] with libs := [(lib 7, .empty)] } ∧
    ∃ t, exec (.call (lib 7) 0) { start [] [] with libs := [(lib 7, .empty)] } = .next t ∧ t.run = .running ∧ t.eof = false := by
  have h := inv_start [] (by decide)
  refine ⟨h, rfl, ⟨_, rfl, rfl, rfl⟩, ⟨rfl, nofun, rfl, nofun, h.depth, h.libdepth, h.slots, h.code, ?_, rfl⟩, _, rfl, rfl, rfl⟩
  intro e he
  rw [List.mem_singleton.1 he]
  exact Memory.empty_wf

theorem witness_ReshapeContract :
    ([1, 2] : Bytes).length = 2 ∧ ([0x80] : Bytes).length < 4 ∧ (1 < ([5, 0] : Bytes).length ∧ uval [5, 0] < 256 ^ 1) ∧
    (1 < ([255, 0] : Bytes).length ∧ uval [255, 0] < 256 ^ 1) ∧ (1 < ([0, 1] : Bytes).length ∧ 256 ^ 1 ≤ uval [0, 1]) := by decide

/-- Two slots of different banks, of which one holds a wide value. -/
def mixed : State := start [] [⟨.a16, 0, [0x80, 0xFF]⟩, ⟨.a64, 31, [0, 0, 1, 0, 0, 0, 0, 0]⟩]

theorem witness_SwpExchangesReshapedValues :
    mixed.slot .a16 0 = some [0x80, 0xFF] ∧ mixed.slot .a64 31 = some [0, 0, 1, 0, 0, 0, 0, 0] ∧
    (RegRef.mk .a16 0 ≠ ⟨.a64, 31⟩ ∧ reshape [0x80, 0xFF] (Bank.bytes .a64) true = some [0x80, 0xFF, 0xFF, 0xFF, 0xFF, 0xFF, 0xFF, 0xFF] ∧
      reshape [0, 0, 1, 0, 0, 0, 0, 0] (Bank.bytes .a16) true = some [0, 0]) ∧
    Bank.fits .a16 [0x80, 0xFF] = true ∧ reshape [0, 0, 1, 0, 0, 0, 0, 0] (Bank.bytes .a16) false = none := by decide

theorem witness_MovCopiesOrMoves :
    mixed.slot .a16 0 = some [0x80, 0xFF] ∧ reshape [0x80, 0xFF] (Bank.bytes .a8) true = some [0x80] ∧
    reshape [0x80, 0xFF] (Bank.bytes .s) false = some [0x80, 0xFF] ∧ RegRef.mk .a16 0 ≠ ⟨.a16, 31⟩ ∧
    reshape [0x80, 0xFF] (Bank.bytes .a8) false = none := by decide

theorem witness_ZeroAndCleanIgnoreTheOldValue :
    (∃ a : ABank, Instr.zeroa .ap 31 = .zeroa a 31 ∧ Bank.ap = a.toBank) ∧ (∃ r : RBank, Instr.zeror .r8192 0 = .zeror r 0 ∧ Bank.r8192 = r.toBank) ∧
    (∃ a : ABank, Instr.cleana .a8 0 = .cleana a 0 ∧ Bank.a8 = a.toBank) ∧ (∃ r : RBank, Instr.cleanr .r128 31 = .cleanr r 31 ∧ Bank.r128 = r.toBank) :=
  ⟨⟨.ap, rfl, rfl⟩, ⟨.r8192, rfl, rfl⟩, ⟨.a8, rfl, rfl⟩, ⟨.r128, rfl, rfl⟩⟩

theorem witness_PutWritesTheLiteral :
    (Instr.puta .a512 31 (List.replicate 64 1)).wf = true ∧ (Instr.puta .ap 0 []).wf = true ∧
    (Instr.putr .r128 0 (List.replicate 16 1)).wf = true ∧ (Instr.puts 31 [1, 2]).wf = true := by decide

theorem witness_CompareSetsTheOrder :
    (two8 0 255).slot .a8 0 = some [0] ∧ (two8 0 255).slot .a8 1 = some [255] ∧
    (start [] [⟨.r128, 0, List.replicate 16 255⟩]).slot .r128 0 = some (List.replicate 16 255) := by decide

theorem witness_EqualSetsTheStatus :
    (two8 5 5).slot .a8 0 = some [5] ∧ (two8 5 5).slot .a8 1 = some [5] ∧
    (start [] [⟨.ap, 0, [5, 0]⟩, ⟨.ap, 1, [5]⟩]).slot .ap 0 = some [5, 0] ∧
    (start [] [⟨.r128, 0, List.replicate 16 255⟩]).slot .r128 0 = some (List.replicate 16 255) := by decide

theorem witness_MeasureBitLength :
    (two8 0 255).slot .a8 1 = some [255] ∧ ([255] : Bytes).length ≤ 65535 ∧
    (start [] [⟨.s, 0, []⟩, ⟨.ap, 0, []⟩]).slot .ap 0 = some [] := by decide

theorem witness_MeasurePopulation :
    (start [] [⟨.r128, 0, List.replicate 16 255⟩]).slot .r128 0 = some (List.replicate 16 255) ∧
    (List.replicate 16 255 : Bytes).length ≤ 65535 := by decide

/-- In range at both ends of the range, and out of it on both sides, signed and unsigned. -/
theorem witness_FixedWidthArithmetic :
    (two8 0x7E 1).slot .a8 0 = some [0x7E] ∧ (two8 0x7E 1).slot .a8 1 = some [1] ∧ ABank.bytes .a8 = some 1 ∧
    ((-2 : Int) ^ 7 ≤ intOf [0x7E] true + intOf [1] true ∧ intOf [0x7E] true + intOf [1] true = 2 ^ 7 - 1) ∧
    (intOf [0x81] true - intOf [1] true = -2 ^ 7) ∧ (2 ^ 7 - 1 < -intOf [0x80] true) ∧ (2 ^ 7 - 1 < |intOf [0x80] true|) ∧
    (intOf [0xFF] false * intOf [1] false = 2 ^ 8 - 1) ∧ (2 ^ 8 - 1 < intOf [0xFF] false + intOf [1] false) ∧
    (intOf [0] false - intOf [1] false < 0) := by decide

/-- A quotient in range, at the end of the range, and out of it. -/
theorem witness_FixedWidthDivision :
    ((two8 0xF9 0xFE).slot .a8 0 = some [0xF9] ∧ (two8 0xF9 0xFE).slot .a8 1 = some [0xFE] ∧ ABank.bytes .a8 = some 1 ∧
      intOf [0xFE] true ≠ 0 ∧ intOf [0xF9] true = intOf [0xFE] true * 3 + -1 ∧ |(-1 : Int)| < |intOf [0xFE] true|) ∧
    (intOf [0x80] true = intOf [1] true * -128 + 0) ∧
    (intOf [0x80] true = intOf [0xFF] true * 128 + 0 ∧ (2 : Int) ^ 7 - 1 < 128) := by decide

theorem witness_DivisionByZeroFaults :
    Mode.agrees ⟨.wrapping, true⟩ .a8 = true ∧ (two8 1 0).slot .a8 0 = some [1] ∧ (two8 1 0).slot .a8 1 = some [0] ∧ uval [0] = 0 ∧
    Mode.agrees ⟨.arbitrary, false⟩ .ap = true ∧ uval [] = 0 := by decide

theorem witness_ArbitraryPrecisionIsExact :
    (start [] [⟨.ap, 0, [1]⟩, ⟨.ap, 1, [2]⟩]).slot .ap 0 = some [1] ∧ (start [] [⟨.ap, 0, [1]⟩, ⟨.ap, 1, [2]⟩]).slot .ap 1 = some [2] ∧
    (∃ w : Bytes, w.length ≤ 65535 ∧ intOf w true = intOf [1] true - intOf [2] true) ∧
    ¬ ∃ w : Bytes, w.length ≤ 65535 ∧ intOf w false = intOf [1] false - intOf [2] false := by
  refine ⟨by decide, by decide, ⟨[0xFF], by decide, by decide⟩, ?_⟩
  rintro ⟨w, -, h⟩
  have h1 : (0 : Int) ≤ intOf w false := by simp [intOf]
  rw [h] at h1
  revert h1
  decide

theorem witness_FloatingStubsFault : Instr.add ⟨.float, true⟩ .ap 0 1 ∈
    [Instr.add ⟨.float, true⟩ .ap 0 1, .sub ⟨.float, true⟩ .ap 0 1, .mul ⟨.float, true⟩ .ap 0 1, .div ⟨.float, true⟩ .ap 0 1,
      .neg ⟨.float, true⟩ .ap 0, .mod ⟨.float, true⟩ .ap 0 1, .abs ⟨.float, true⟩ .ap 0 1] := by decide

theorem witness_BitwiseCombinesBits :
    ABank.bytes .a8 = some 1 ∧ (two8 0xF0 0x3C).slot .a8 0 = some [0xF0] ∧ (two8 0xF0 0x3C).slot .a8 1 = some [0x3C] ∧
    (7 : Fin 32).val = (7 : Fin 8).val := by decide

theorem witness_NotComplementsInPlace : ABank.bytes .a8 = some 1 ∧ (two8 0 255).slot .a8 1 = some [255] := by decide

/-- An amount below the width, equal to it and beyond it. -/
theorem witness_ShiftsAreLogical : ∀ k ∈ [7, 8, (255 : Byte)], ABank.bytes .a8 = some 1 ∧ (two8 0x81 k).slot .a8 0 = some [0x81] ∧
    (two8 0x81 k).slot .a8 1 = some [k] ∧ (0 : Fin 32).val = (0 : Fin 8).val := by decide

/-- The same states serve the rotations, with an amount of 0 beside them. -/
theorem witness_RotatesMoveEveryBit : ∀ k ∈ [0, 8, (255 : Byte)], ABank.bytes .a8 = some 1 ∧ (two8 0x81 k).slot .a8 0 = some [0x81] ∧
    (two8 0x81 k).slot .a8 1 = some [k] ∧ (7 : Fin 32).val = (7 : Fin 8).val := by decide

/-- An offset at the end of the string and one beyond it. -/
theorem witness_DigestHashesTheSuffix :
    (start [] [⟨.s, 0, [0x68, 0x69]⟩]).digest[(0 : Fin 32)] = some .r256 ∧
    (start [] [⟨.s, 0, [0x68, 0x69]⟩]).slot .s 0 = some [0x68, 0x69] ∧
    (2 : Offset).toNat ≤ ([0x68, 0x69] : Bytes).length ∧ ([0x68, 0x69] : Bytes).length < (3 : Offset).toNat := by decide

/-- A scalar alone, a scalar and a point, two points, a point alone: each with just the slots one instruction reads. -/
def scalar : State := start [] [⟨.r256, 0, List.replicate 32 1⟩]
def scalarPoint : State := start [] [⟨.r256, 0, List.replicate 32 1⟩, ⟨.r512, 1, List.replicate 64 3⟩]
def points : State := start [] [⟨.r512, 0, List.replicate 64 2⟩, ⟨.r512, 1, List.replicate 64 3⟩]
def point : State := start [] [⟨.r512, 0, List.replicate 64 2⟩]

/-- Each clause of the two statements on curves where the other slots they name are unset. -/
def curveSlots : Prop :=
  (scalar.slot .r256 0 = some (List.replicate 32 1) ∧ scalar.slot .r512 0 = none) ∧
  (scalarPoint.slot .r256 0 = some (List.replicate 32 1) ∧ scalarPoint.slot .r512 1 = some (List.replicate 64 3) ∧
    scalarPoint.slot .r512 0 = none) ∧
  (points.slot .r512 0 = some (List.replicate 64 2) ∧ points.slot .r512 1 = some (List.replicate 64 3) ∧
    points.slot .r256 0 = none) ∧
  (point.slot .r512 0 = some (List.replicate 64 2) ∧ point.slot .r256 0 = none)

theorem witness_SecpInvokesTheCapability : curveSlots := by unfold curveSlots; decide

theorem witness_EdInvokesTheCapability : curveSlots := witness_SecpInvokesTheCapability

end Sys2Proof.Tests
end

/-! ## Proofs: the state (spec/10_state.md)

The frame of `exec` by the kind of the instruction, the cursor through a decode, and the values a slot can be given;
from these the statements about flags, counters, launch parameters and the invariant of a run. -/

namespace Sys2Proof

/-! ### The lengths of the banks -/

theorem Bank.fits_of_length {b : Bank} {m : Nat} {x : Bytes} (hb : b.bytes = some m) (hx : x.length = m) :
    b.fits x = true := by simp [Bank.fits, hb, hx]

theorem Bank.fits_of_var {b : Bank} {x : Bytes} (hb : b.bytes = none) (hx : x.length ≤ Config.varMax) :
    b.fits x = true := by simpa [Bank.fits, hb] using hx

theorem Bank.bytes_le {b : Bank} {m : Nat} (h : b.bytes = some m) : m ≤ Config.varMax := by
  cases b <;> cases h <;> decide

/-- A value of any bank is short enough for `ap` and `s`. -/
theorem Bank.length_le_of_fits {b : Bank} {x : Bytes} (h : b.fits x = true) : x.length ≤ Config.varMax := by
  unfold Bank.fits at h
  split at h
  next m hb => rw [beq_iff_eq.1 h]; exact Bank.bytes_le hb
  · exact of_decide_eq_true h

theorem RBank.toBank_bytes (b : RBank) : b.toBank.bytes = some b.bytes := by cases b <;> rfl

end Sys2Proof

namespace Sys2Proof.Machine

/-! ### The launch parameters -/

/-- The launch parameters that are data are the same; the buffers are computed from them (assumption 5). -/
structure LaunchKept (s t : State) : Prop where
  code : t.code = s.code
  launchLib : t.launchLib = s.launchLib
  libs : t.libs = s.libs
  digest : t.digest = s.digest

theorem LaunchKept.trans {s t u : State} (h : LaunchKept s t) (h' : LaunchKept t u) : LaunchKept s u :=
  ⟨h'.code.trans h.code, h'.launchLib.trans h.launchLib, h'.libs.trans h.libs, h'.digest.trans h.digest⟩

theorem LaunchKept.buffer {s t : State} (h : LaunchKept s t) (l : Option LibId) : t.buffer l = s.buffer l := by
  simp only [State.buffer, h.code, h.launchLib, h.libs]

theorem LaunchKept.memory {s t : State} (h : LaunchKept s t) : MemoryKept s t :=
  ⟨fun l a => by simp only [State.readByte, h.buffer], h.launchLib, h.digest⟩

/-! ### What `exec` leaves unchanged, by the kind of the instruction -/

theorem DataEffect.launchKept {s t : State} (h : DataEffect s t) : LaunchKept s t := by
  cases h <;> exact ⟨rfl, rfl, rfl, rfl⟩

theorem TransferEffect.launchKept {s t : State} {i : Instr} (h : TransferEffect s i t) : LaunchKept s t := by
  cases h <;> exact ⟨rfl, rfl, rfl, rfl⟩

/-- A transfer writes neither a flag nor a slot. -/
theorem TransferEffect.dataKept {s t : State} {i : Instr} (h : TransferEffect s i t) :
    FlagsKept s t ∧ SlotsKeptBut [] s t := by
  cases h <;> exact ⟨⟨rfl, rfl⟩, fun _ _ _ => rfl⟩

/-- No instruction writes a launch parameter (R62). -/
theorem exec_launchKept {s t : State} {i : Instr} (h : exec i s = .next t) : LaunchKept s t := by
  cases exec_kind h with
  | data _ e => exact e.launchKept
  | halt _ _ e => subst e; exact ⟨rfl, rfl, rfl, rfl⟩
  | compare _ e => obtain rfl | ⟨f, rfl⟩ := e <;> exact ⟨rfl, rfl, rfl, rfl⟩
  | equate _ e => obtain rfl | ⟨f, rfl⟩ := e <;> exact ⟨rfl, rfl, rfl, rfl⟩
  | transfer hi => exact (transfer_cases hi h).launchKept

/-- An instruction that is no transfer leaves the cursor and the control state alone (R278). -/
theorem exec_frame_of_not_transfer {s t : State} {i : Instr} (hi : isTransfer i = false) (h : exec i s = .next t) :
    CursorKept s t ∧ ControlKept s t := by
  cases exec_kind h with
  | data _ e => exact ⟨e.frame.1, e.frame.2.1⟩
  | halt _ _ e => subst e; simp [CursorKept, ControlKept]
  | compare _ e => obtain rfl | ⟨f, rfl⟩ := e <;> simp [CursorKept, ControlKept]
  | equate _ e => obtain rfl | ⟨f, rfl⟩ := e <;> simp [CursorKept, ControlKept]
  | transfer hi' => simp [hi] at hi'

/-- Only the data instructions write slots. -/
theorem exec_slots_of_not_data {s t : State} {i : Instr} (hi : isData i = false) (h : exec i s = .next t) :
    SlotsKeptBut [] s t := by
  cases exec_kind h with
  | data hd _ => simp [hi] at hd
  | halt _ _ e => subst e; exact fun _ _ _ => rfl
  | compare _ e => obtain rfl | ⟨f, rfl⟩ := e <;> exact fun _ _ _ => rfl
  | equate _ e => obtain rfl | ⟨f, rfl⟩ := e <;> exact fun _ _ _ => rfl
  | transfer hi => exact (transfer_cases hi h).dataKept.2

/-- An instruction leaves the engine as it is, raises, or halts; it never aborts (R279). -/
theorem exec_engine {s t : State} {i : Instr} (h : exec i s = .next t) :
    EngineKept s t ∨ (∃ e, t = s.raise e) ∨ ∃ success, t = s.halt success := by
  cases exec_kind h with
  | data _ e =>
    cases e with
    | raised e => exact .inr (.inl ⟨e, rfl⟩)
    | failed => exact .inl ⟨rfl, rfl⟩
    | wrote => exact .inl ⟨rfl, rfl⟩
    | wroteTwo => exact .inl ⟨rfl, rfl⟩
  | halt _ success e => exact .inr (.inr ⟨success, e⟩)
  | compare _ e => obtain rfl | ⟨f, rfl⟩ := e <;> exact .inl ⟨rfl, rfl⟩
  | equate _ e => obtain rfl | ⟨f, rfl⟩ := e <;> exact .inl ⟨rfl, rfl⟩
  | transfer hi =>
    cases transfer_cases hi h with
    | raised _ e => exact .inr (.inl ⟨e, rfl⟩)
    | _ => exact .inl ⟨rfl, rfl⟩

/-- An instruction that is no transfer counts nothing. -/
theorem counts_of_not_transfer {i : Instr} (hi : isTransfer i = false) (s : State) :
    cyTick s i = 0 ∧ pushes i = 0 ∧ pops i = 0 ∧ deepens i = 0 := by
  cases i with
  | jmp => cases hi
  | jif => cases hi
  | routine => cases hi
  | call => cases hi
  | exec => cases hi
  | ret => cases hi
  | _ => exact ⟨rfl, rfl, rfl, rfl⟩

/-! ### The cursor through a decode -/

/-- However the operation ends, the cursor it ends with satisfies `P`. -/
def CurOut.Ends {α : Type} (P : Cursor → Prop) : CurOut α → Prop
  | .ok _ c => P c
  | .stop _ c => P c

theorem CurOut.Ends.bind {α β : Type} {P : Cursor → Prop} {r : CurOut α} {f : α → Cursor → CurOut β}
    (hr : r.Ends P) (hf : ∀ a c, P c → (f a c).Ends P) : (r.bind f).Ends P := by
  cases r with
  | ok a c => exact hf a c hr
  | stop why c => exact hr

/-- Every read the decoder makes keeps `P` of the cursor, whether it succeeds or stops. -/
structure ReadsKeep (P : Cursor → Prop) : Prop where
  u8 : ∀ c, P c → (curU8 c).Ends P
  u16 : ∀ c, P c → (curU16 c).Ends P
  block32 : ∀ c, P c → (curBlock32 c).Ends P
  slice : ∀ c, P c → (curSlice c).Ends P

theorem curU8_stop {c c' : Cursor} {why : Stop} (h : curU8 c = .stop why c') : c' = c := by
  unfold curU8 at h
  split at h
  · cases h; rfl
  · cases h

theorem curU16_stop {c c' : Cursor} {why : Stop} (h : curU16 c = .stop why c') : c' = c := by
  unfold curU16 at h
  split at h
  · cases h; rfl
  · cases h

theorem curBlock32_stop {c c' : Cursor} {why : Stop} (h : curBlock32 c = .stop why c') : c' = c := by
  unfold curBlock32 at h
  split at h
  · cases h; rfl
  · cases h

theorem curSlice_stop {c c' : Cursor} {why : Stop} (h : curSlice c = .stop why c') : c' = c := by
  unfold curSlice at h
  split at h
  · cases h; rfl
  · dsimp only [failAt] at h
    split at h
    · cases h; rfl
    · split at h
      · cases h; rfl
      · cases h

/-- It is enough that `P` survives the advances that a passed access check allows (R64, R65). -/
theorem readsKeep_of_advance {P : Cursor → Prop}
    (ha : ∀ c n, P c → c.eof = false → (2 ≤ n → c.pos.toNat + n ≤ Config.posMax) → P (c.advance n)) : ReadsKeep P where
  u8 c hc := by
    cases h : curU8 c with
    | stop why c' => exact curU8_stop h ▸ hc
    | ok v c' =>
      obtain ⟨he, -, -, -, rfl⟩ := curU8_eq_ok.1 h
      exact ha c 1 hc he (by omega)
  u16 c hc := by
    cases h : curU16 c with
    | stop why c' => exact curU16_stop h ▸ hc
    | ok v c' =>
      obtain ⟨he, -, hp, -, -, rfl⟩ := curU16_eq_ok.1 h
      exact ha c 2 hc he fun _ => hp
  block32 c hc := by
    cases h : curBlock32 c with
    | stop why c' => exact curBlock32_stop h ▸ hc
    | ok v c' =>
      obtain ⟨he, -, hp, -, -, rfl⟩ := curBlock32_eq_ok.1 h
      exact ha c 32 hc he fun _ => hp
  slice c hc := by
    cases h : curSlice c with
    | stop why c' => exact curSlice_stop h ▸ hc
    | ok v c' =>
      obtain ⟨he, -, hp, -, l, -, hl, -, -, rfl⟩ := curSlice_eq_ok.1 h
      refine ha _ l (ha c 2 hc he fun _ => hp) ?_ ?_
      · rw [Cursor.advance_inside hp]; exact he
      · rw [Cursor.advance_pos_toNat hp]; exact hl

section DecodeEnds

variable {P : Cursor → Prop} {c : Cursor}

theorem stage4_ends {legal : Bool} {i : Instr} (hc : P c) : (stage4 legal i c).Ends P := by
  unfold stage4
  split <;> exact hc

theorem stage4R_ends {rb : Option RBank} {legal : RBank → Bool} {mk : RBank → Instr} (hc : P c) :
    (stage4R rb legal mk c).Ends P := by
  cases rb with
  | none => exact hc
  | some b => exact stage4_ends hc

theorem readRow_ends (h : ReadsKeep P) (d : DigestTable) (row : Row) (hc : P c) : (readRow d row c).Ends P := by
  have one {f : Byte → Cursor → CurOut Instr} {c : Cursor} (hc : P c) (hf : ∀ b c, P c → (f b c).Ends P) :
      ((operandByte c).bind f).Ends P := (h.u8 c hc).bind hf
  cases row with
  | f0 => exact hc
  | fj => exact (h.u16 c hc).bind fun _ _ hc => hc
  | fl => exact (h.block32 c hc).bind fun _ c hc => (h.u16 c hc).bind fun _ _ hc => hc
  | fx => exact one hc fun _ _ hc => one hc fun _ _ hc => one hc fun _ _ hc => stage4_ends hc
  | fa => exact one hc fun _ _ hc => stage4_ends hc
  | fr => exact one hc fun _ _ hc => stage4R_ends hc
  | fs => exact one hc fun _ _ hc => stage4_ends hc
  | fal => exact one hc fun _ c hc => (h.slice c hc).bind fun _ _ hc => stage4_ends hc
  | frl => exact one hc fun _ c hc => (h.slice c hc).bind fun _ _ hc => stage4R_ends hc
  | fsl => exact one hc fun _ c hc => (h.slice c hc).bind fun _ _ hc => stage4_ends hc
  | fa2 => exact one hc fun _ _ hc => one hc fun _ _ hc => stage4_ends hc
  | fr2 => exact one hc fun _ _ hc => one hc fun _ _ hc => stage4R_ends hc
  | fm2 => exact one hc fun _ _ hc => one hc fun _ _ hc => one hc fun _ _ hc => stage4_ends hc
  | fm1 => exact one hc fun _ _ hc => one hc fun _ _ hc => stage4_ends hc
  | fb3 => exact one hc fun _ _ hc => one hc fun _ _ hc => stage4_ends hc
  | fd => exact one hc fun _ _ hc => one hc fun _ c hc => (h.u16 c hc).bind fun _ _ hc => stage4R_ends hc
  | fe2 => exact one hc fun _ _ hc => hc
  | fe3 => exact one hc fun _ _ hc => one hc fun _ _ hc => stage4_ends hc
  | fe3f => exact one hc fun _ _ hc => one hc fun _ _ hc => stage4_ends hc

/-- What every read keeps, a decode keeps, whether it yields an instruction or stops. -/
theorem decode_ends (h : ReadsKeep P) (d : DigestTable) (hc : P c) : (decode d c).Ends P :=
  (h.u8 c hc).bind fun op c hc => by
    cases opcodeRow d op with
    | none => exact hc
    | some row => exact readRow_ends h d row hc

end DecodeEnds

/-- A cursor as it stands at an instruction boundary of a run: on a byte boundary (R100), and under the sentinel only at
offset 65535 (R64). -/
structure Cursor.AtBoundary (c : Cursor) : Prop where
  aligned : c.bit = 0
  eofAtEnd : c.eof = true → c.pos.toNat = Config.posMax

theorem Cursor.AtBoundary.advance {c : Cursor} (h : c.AtBoundary) (he : c.eof = false) (n : Nat) :
    (c.advance n).AtBoundary := by
  refine ⟨by simp [h.aligned], ?_⟩
  unfold Cursor.advance
  split
  · exact h.eofAtEnd
  · split
    next hn => exact fun _ => hn.2
    · simp [he]

theorem decode_atBoundary (d : DigestTable) {c : Cursor} (h : c.AtBoundary) : (decode d c).Ends Cursor.AtBoundary :=
  decode_ends (readsKeep_of_advance fun _ n hc he _ => hc.advance he n) d h

/-! ### The values a slot can be given -/

theorem zeroValue_fits (b : Bank) : b.fits (zeroValue b) = true := by
  unfold zeroValue
  split
  next m hb => exact Bank.fits_of_length hb (by simp)
  next hb => exact Bank.fits_of_var hb (by simp)

/-- A `Reshape` that succeeds gives a value of the destination's bank (R161). -/
theorem reshape_fits {b b' : Bank} {x y : Bytes} {f : Bool} (hx : b.fits x = true)
    (h : reshape x b'.bytes f = some y) : b'.fits y = true := by
  cases hb : b'.bytes with
  | none =>
    simp only [reshape, hb, Option.some.injEq] at h
    exact Bank.fits_of_var hb (h ▸ Bank.length_le_of_fits hx)
  | some m =>
    refine Bank.fits_of_length hb ?_
    simp only [reshape, hb] at h
    split at h
    next hle => cases h; exact extend_length hle f
    next hgt =>
      split at h
      · cases h; rw [List.length_take]; omega
      · cases h

/-- A result that is written, in fixed width or in `ap`, is a value of the bank (R204, R205). -/
theorem putResult_fits {z : Int} {m : Mode} {b : ABank} {v : Bytes} (h : putResult z m b = some v) :
    b.toBank.fits v = true := by
  unfold putResult at h
  split at h
  next n hb =>
    unfold putFixed at h
    split at h
    · cases h
    · cases h; exact Bank.fits_of_length hb (leInt_length n z)
  next hb =>
    unfold putAP at h
    split at h
    · cases h
    · split at h
      · cases h
      next hl => cases h; exact Bank.fits_of_var hb (by rw [leInt_length]; omega)

/-- Every slot holds a value of its bank or nothing (R21 to R24). -/
def State.SlotsFit (s : State) : Prop := ∀ b i v, s.slot b i = some v → b.fits v = true

theorem State.SlotsFit.kept {s t : State} (hs : s.SlotsFit) (h : SlotsKeptBut [] s t) : t.SlotsFit :=
  fun b i v hv => hs b i v (h b i (by simp) ▸ hv)

theorem State.SlotsFit.clear {s : State} (hs : s.SlotsFit) (b : Bank) (i : Fin 32) : (s.setSlot b i none).SlotsFit := by
  intro b' i' x hx
  rw [State.slot_setSlot] at hx
  split at hx
  · cases hx
  · exact hs b' i' x hx

theorem State.SlotsFit.set {s : State} (hs : s.SlotsFit) {b : Bank} {v : Bytes} (hv : b.fits v = true) (i : Fin 32) :
    (s.setSlot b i (some v)).SlotsFit := by
  intro b' i' x hx
  rw [State.slot_setSlot] at hx
  split at hx
  next he => cases hx; exact he.1 ▸ hv
  · exact hs b' i' x hx

/-- A next state that the meaning answers has its slots in order. -/
structure AnswersFit (r : Result) : Prop where
  fit : ∀ t, r = .next t → t.SlotsFit

theorem answersFit_next {t : State} (ht : t.SlotsFit) : AnswersFit (.next t) := ⟨fun _ h => next_inj.1 h ▸ ht⟩

section SlotValues

variable {s : State}

theorem answersFit_raised (hs : s.SlotsFit) (e : EngineError) : AnswersFit (raised e s) :=
  answersFit_next (t := s.raise e) hs

theorem answersFit_failed (hs : s.SlotsFit) : AnswersFit (operandFailed s) :=
  answersFit_next (t := s.operandFail) hs

theorem withSlot_fits (hs : s.SlotsFit) {b : Bank} {i : Fin 32} {k : Bytes → Result}
    (hk : ∀ v, b.fits v = true → AnswersFit (k v)) : AnswersFit (s.withSlot b i k) := by
  cases hv : s.slot b i with
  | none => rw [withSlot_unset hv]; exact answersFit_failed hs
  | some v => rw [withSlot_set hv]; exact hk v (hs b i v hv)

theorem withSlots_fits (hs : s.SlotsFit) {b1 b2 : Bank} {i1 i2 : Fin 32} {k : Bytes → Bytes → Result}
    (hk : ∀ v1 v2, b1.fits v1 = true → b2.fits v2 = true → AnswersFit (k v1 v2)) :
    AnswersFit (s.withSlots b1 i1 b2 i2 k) :=
  withSlot_fits hs fun v1 h1 => withSlot_fits hs fun v2 h2 => hk v1 v2 h1 h2

theorem writeResult_fits (hs : s.SlotsFit) (z : Int) (m : Mode) (b : ABank) (i : Fin 32) :
    AnswersFit (writeResult z m b i s) := by
  unfold writeResult
  split
  next v hv => exact answersFit_next (hs.set (putResult_fits hv) i)
  · exact answersFit_raised hs _

theorem withMode_fits (hs : s.SlotsFit) {m : Mode} {b : ABank} {k : Result} (hk : AnswersFit k) :
    AnswersFit (withMode m b s k) := by
  unfold withMode
  split
  · exact answersFit_raised hs _
  · split
    · exact answersFit_raised hs _
    · exact hk

theorem binaryOp_fits (hs : s.SlotsFit) (op : Int → Int → Int) (m : Mode) (b : ABank) (i1 i2 : Fin 32) :
    AnswersFit (binaryOp op m b i1 i2 s) :=
  withMode_fits hs (withSlots_fits hs fun _ _ _ _ => writeResult_fits hs ..)

theorem divisionOp_fits (hs : s.SlotsFit) (op : Int → Int → Int) (m : Mode) (b : ABank) (i1 i2 : Fin 32) :
    AnswersFit (divisionOp op m b i1 i2 s) :=
  withMode_fits hs (withSlots_fits hs fun _ _ _ _ => by
    split
    · exact answersFit_raised hs _
    · exact writeResult_fits hs ..)

theorem unaryOp_fits (hs : s.SlotsFit) (op : Int → Int) (m : Mode) (b : ABank) (i1 i2 : Fin 32) :
    AnswersFit (unaryOp op m b i1 i2 s) :=
  withMode_fits hs (withSlot_fits hs fun _ _ => writeResult_fits hs ..)

theorem withWidth_fits (hs : s.SlotsFit) {b : ABank} {k : Nat → Result}
    (hk : ∀ m, b.toBank.bytes = some m → AnswersFit (k (8 * m))) : AnswersFit (withWidth b s k) := by
  unfold withWidth
  split
  next m hb => exact hk m hb
  · exact answersFit_raised hs _

theorem writeBits_fits (hs : s.SlotsFit) {b : ABank} {m : Nat} (hb : b.toBank.bytes = some m) (z : Nat) (i : Fin 32) :
    AnswersFit (writeBits (8 * m) z b i s) :=
  answersFit_next (hs.set (Bank.fits_of_length hb (by rw [leNat_length]; omega)) i)

theorem bitwiseOp_fits (hs : s.SlotsFit) (f : Nat → Nat → Nat → Nat) (b : ABank) (i1 i2 : Fin 32) (d : Fin 8) :
    AnswersFit (bitwiseOp f b i1 i2 d s) :=
  withWidth_fits hs fun _ hb => withSlots_fits hs fun _ _ _ _ => writeBits_fits hs hb ..

theorem execNot_fits (hs : s.SlotsFit) (b : ABank) (i : Fin 32) : AnswersFit (execNot b i s) :=
  withWidth_fits hs fun _ hb => withSlot_fits hs fun _ _ => writeBits_fits hs hb ..

theorem measureSlot_fits (hs : s.SlotsFit) (f : Nat → Nat) (b : Bank) (i1 i2 : Fin 32) :
    AnswersFit (measureSlot f b i1 i2 s) :=
  withSlot_fits hs fun _ _ => answersFit_next (hs.set (Bank.fits_of_length rfl (leNat_length 4 _)) i2)

theorem writeZero_fits (hs : s.SlotsFit) (b : Bank) (i : Fin 32) : AnswersFit (writeZero b i s) :=
  answersFit_next (hs.set (zeroValue_fits b) i)

theorem clear_fits (hs : s.SlotsFit) (b : Bank) (i : Fin 32) : AnswersFit (.next (s.setSlot b i none)) :=
  answersFit_next (hs.clear b i)

theorem writeLiteral_fits (hs : s.SlotsFit) (b : Bank) (i : Fin 32) (lit : Bytes) :
    AnswersFit (writeLiteral b i lit s) := by
  unfold writeLiteral
  split
  next hf => exact answersFit_next (hs.set hf i)
  · exact answersFit_raised hs _

theorem writePoint_fits (hs : s.SlotsFit) (q : Option (Vector Byte 64)) (d : Fin 8) : AnswersFit (writePoint q d s) := by
  unfold writePoint
  split
  next p => exact answersFit_next (hs.set (Bank.fits_of_length rfl (by simp)) _)
  · exact answersFit_failed hs

theorem execSwp_fits (hs : s.SlotsFit) (r1 r2 : RegRef) (x1 x2 : Bool) : AnswersFit (execSwp r1 r2 x1 x2 s) :=
  withSlots_fits hs fun _ _ h1 h2 => by
    split
    next hy2 hy1 => exact answersFit_next ((hs.set (reshape_fits h2 hy1) _).set (reshape_fits h1 hy2) _)
    · exact answersFit_failed hs

theorem execMov_fits (hs : s.SlotsFit) (src dst : RegRef) (x dup : Bool) : AnswersFit (execMov src dst x dup s) :=
  withSlot_fits hs fun _ hv => by
    split
    next y hy =>
      have hset := hs.set (reshape_fits hv hy) dst.idx
      refine answersFit_next ?_
      split
      · exact hset.clear _ _
      · exact hset
    · exact answersFit_failed hs

theorem clearSource_fits (hs : s.SlotsFit) (clr : Bool) (i : Fin 32) : (clearSource clr i s).SlotsFit := by
  unfold clearSource
  split
  · exact hs.clear _ _
  · exact hs

theorem execDgst_fits (hs : s.SlotsFit) (alg src : Fin 32) (off : Offset) (b : RBank) (dst : Fin 32) (clr : Bool) :
    AnswersFit (execDgst alg src off b dst clr s) := by
  unfold execDgst
  split
  · refine withSlot_fits hs fun x _ => ?_
    split
    · exact answersFit_failed hs
    · exact answersFit_next
        (clearSource_fits (hs.set (Bank.fits_of_length b.toBank_bytes (Vector.length_toList ..)) dst) clr src)
  · exact answersFit_raised hs _

/-- Every value a data instruction writes is one of its slot's bank. -/
theorem exec_data_fits (hs : s.SlotsFit) {i : Instr} (hi : isData i = true) : AnswersFit (exec i s) := by
  cases i with
  | fail => cases hi
  | succ => cases hi
  | jmp => cases hi
  | jif => cases hi
  | routine => cases hi
  | call => cases hi
  | exec => cases hi
  | ret => cases hi
  | cmpa => cases hi
  | cmpr => cases hi
  | eqa => cases hi
  | eqr => cases hi
  | swp => exact execSwp_fits hs ..
  | mov => exact execMov_fits hs ..
  | zeroa => exact writeZero_fits hs ..
  | zeror => exact writeZero_fits hs ..
  | zeros => exact writeZero_fits hs ..
  | cleana => exact clear_fits hs ..
  | cleanr => exact clear_fits hs ..
  | cleans => exact clear_fits hs ..
  | puta => exact writeLiteral_fits hs ..
  | putr => exact writeLiteral_fits hs ..
  | puts => exact writeLiteral_fits hs ..
  | lena => exact measureSlot_fits hs ..
  | lenr => exact measureSlot_fits hs ..
  | cnta => exact measureSlot_fits hs ..
  | cntr => exact measureSlot_fits hs ..
  | add => exact binaryOp_fits hs ..
  | sub => exact binaryOp_fits hs ..
  | mul => exact binaryOp_fits hs ..
  | div => exact divisionOp_fits hs ..
  | mod => exact divisionOp_fits hs ..
  | neg => exact unaryOp_fits hs ..
  | abs => exact unaryOp_fits hs (fun z => (z.natAbs : Int)) ..
  | and => exact bitwiseOp_fits hs (fun _ x y => x &&& y) ..
  | or => exact bitwiseOp_fits hs (fun _ x y => x ||| y) ..
  | xor => exact bitwiseOp_fits hs (fun _ x y => x ^^^ y) ..
  | not => exact execNot_fits hs ..
  | shl => exact bitwiseOp_fits hs ..
  | shr => exact bitwiseOp_fits hs ..
  | scl => exact bitwiseOp_fits hs ..
  | scr => exact bitwiseOp_fits hs ..
  | dgst => exact execDgst_fits hs ..
  | secpgen => exact withSlot_fits hs fun _ _ => writePoint_fits hs ..
  | secpneg => exact withSlot_fits hs fun _ _ => writePoint_fits hs ..
  | edgen => exact withSlot_fits hs fun _ _ => writePoint_fits hs ..
  | edneg => exact withSlot_fits hs fun _ _ => writePoint_fits hs ..
  | secpmul => exact withSlots_fits hs fun _ _ _ _ => writePoint_fits hs ..
  | secpadd => exact withSlots_fits hs fun _ _ _ _ => writePoint_fits hs ..
  | edmul => exact withSlots_fits hs fun _ _ _ _ => writePoint_fits hs ..
  | edadd => exact withSlots_fits hs fun _ _ _ _ => writePoint_fits hs ..

end SlotValues

/-- Every instruction keeps the slots in order. -/
theorem exec_slotsFit {s t : State} {i : Instr} (hs : s.SlotsFit) (h : exec i s = .next t) : t.SlotsFit := by
  cases hi : isData i with
  | true => exact (exec_data_fits hs hi).fit t h
  | false => exact hs.kept (exec_slots_of_not_data hi h)

/-! ### The invariant of a run -/

theorem Inv.flt_none {s : State} (h : Inv s) (hr : s.run = .running) : s.flt = none := by
  simpa [FaultRecorded, hr] using h.fault

/-- The record goes with the engine after every instruction of a running engine (R42). -/
theorem exec_faultRecorded {s t : State} {i : Instr} (hr : s.run = .running) (hf : s.flt = none)
    (h : exec i s = .next t) : FaultRecorded t := by
  obtain ⟨hrun, hflt⟩ | ⟨e, rfl⟩ | ⟨b, rfl⟩ := exec_engine h
  · simp [FaultRecorded, hrun, hr, hflt, hf]
  · exact ⟨_, rfl, rfl⟩
  · exact hf

/-- What the invariant says of the cursor and the control state, over the buffers of the launch: what a transfer has to
keep. -/
structure ControlInv (s : State) : Prop where
  aligned : s.bit = 0
  eofAtEnd : s.eof = true → s.pos.toNat = Config.posMax
  current : (s.buffer s.curlib).isSome = true
  stacked : ∀ e ∈ s.cs0, (s.buffer e.lib).isSome = true
  depth : s.cp0 ≤ s.cy0.toNat
  libdepth : s.libdepth.toNat ≤ s.cy0.toNat

theorem Inv.control {s : State} (h : Inv s) : ControlInv s :=
  ⟨h.aligned, h.eofAtEnd, h.current, h.stacked, h.depth, h.libdepth⟩

/-- The invariant, from its part on control and what the rest of a step keeps. -/
theorem Inv.of_control {s t : State} (h : Inv s) (hl : LaunchKept s t) (hc : ControlInv t) (hs : t.SlotsFit)
    (hf : FaultRecorded t) : Inv t where
  aligned := hc.aligned
  eofAtEnd := hc.eofAtEnd
  current := hc.current
  stacked := hc.stacked
  depth := hc.depth
  libdepth := hc.libdepth
  slots := hs
  code := hl.code ▸ h.code
  libs := hl.libs ▸ h.libs
  fault := hf

theorem ControlInv.kept {s t : State} (h : ControlInv s) (hl : LaunchKept s t) (hcur : CursorKept s t)
    (hctl : ControlKept s t) : ControlInv t := by
  obtain ⟨hpos, hbit, heof, -⟩ := hcur
  obtain ⟨hcy, hcs, hld, hlib⟩ := hctl
  exact
    { aligned := hbit ▸ h.aligned
      eofAtEnd := heof ▸ hpos ▸ h.eofAtEnd
      current := by rw [hl.buffer, hlib]; exact h.current
      stacked := by simpa only [hl.buffer, hcs] using h.stacked
      depth := by simpa only [State.cp0, hcs, hcy] using h.depth
      libdepth := by simpa only [hld, hcy] using h.libdepth }

/-- A jump counter that passed its check has room for one more (R34). -/
theorem countTransfer_toNat {s : State} (h : s.countCheck = none) : s.countTransfer.cy0.toNat = s.cy0.toNat + 1 := by
  have hne : s.cy0.toNat ≠ 65535 := by simpa [State.countCheck] using h
  rw [State.countTransfer_cy0]
  bv_omega

theorem ControlInv.countTransfer {s : State} (h : ControlInv s) (hc : s.countCheck = none) :
    ControlInv s.countTransfer where
  aligned := h.aligned
  eofAtEnd := h.eofAtEnd
  current := h.current
  stacked := h.stacked
  depth := by rw [countTransfer_toNat hc]; exact Nat.le_succ_of_le h.depth
  libdepth := by rw [countTransfer_toNat hc]; exact Nat.le_succ_of_le h.libdepth

/-- A push keeps to the counter where the stack is below it. -/
theorem ControlInv.pushReturn {s : State} (h : ControlInv s) (hd : s.cp0 < s.cy0.toNat) : ControlInv s.pushReturn where
  aligned := h.aligned
  eofAtEnd := h.eofAtEnd
  current := h.current
  stacked := List.forall_mem_cons.2 ⟨h.current, h.stacked⟩
  depth := hd
  libdepth := h.libdepth

/-- So does one more library level where the depth is below it. -/
theorem ControlInv.deepen {s : State} (h : ControlInv s) (hd : s.libdepth.toNat < s.cy0.toNat) :
    ControlInv s.deepen where
  aligned := h.aligned
  eofAtEnd := h.eofAtEnd
  current := h.current
  stacked := h.stacked
  depth := h.depth
  libdepth := by rw [State.deepen_libdepth, State.deepen_cy0]; bv_omega

theorem ControlInv.pop {s : State} {e : StackEntry} {rest : List StackEntry} (h : ControlInv s)
    (hs : s.cs0 = e :: rest) : ControlInv { s with cs0 := rest } where
  aligned := h.aligned
  eofAtEnd := h.eofAtEnd
  current := h.current
  stacked := fun e' he => h.stacked e' (hs ▸ List.mem_cons_of_mem e he)
  depth := by
    have hd : rest.length + 1 ≤ s.cy0.toNat := by simpa [State.cp0, hs] using h.depth
    exact Nat.le_of_succ_le hd
  libdepth := h.libdepth

/-- A `Goto` whose check passed leads to a library that has a buffer, with the sentinel clear. -/
theorem gotoCheck_spec {s : State} {l : Option LibId} (hcur : (s.buffer s.curlib).isSome = true)
    (g : s.gotoCheck l = none) (o : Offset) : (s.buffer l).isSome = true ∧ (s.goto l o).eof = false := by
  rw [State.goto_eof]
  unfold State.gotoCheck at g
  by_cases hl : l = s.curlib
  · subst hl
    simpa [hcur] using g
  · simpa [hl, Option.isSome_iff_ne_none] using g

theorem ControlInv.goto {s : State} {l : Option LibId} (h : ControlInv s) (g : s.gotoCheck l = none) (o : Offset) :
    ControlInv (s.goto l o) := by
  obtain ⟨hbuf, heof⟩ := gotoCheck_spec h.current g o
  exact
    { aligned := rfl
      eofAtEnd := fun he => by rw [heof] at he; cases he
      current := hbuf
      stacked := h.stacked
      depth := h.depth
      libdepth := h.libdepth }

/-- Every transfer keeps the control state in order: the checks it makes are the ones this needs. -/
theorem TransferEffect.controlInv {s t : State} {i : Instr} (e : TransferEffect s i t) (h : ControlInv s) :
    ControlInv t := by
  have roomToPush (hc : s.countCheck = none) : s.cp0 < s.countTransfer.cy0.toNat := by
    rw [countTransfer_toNat hc]; exact Nat.lt_succ_of_le h.depth
  have roomToDeepen (hc : s.countCheck = none) : s.libdepth.toNat < s.countTransfer.cy0.toNat := by
    rw [countTransfer_toNat hc]; exact Nat.lt_succ_of_le h.libdepth
  cases e with
  | raised _ e =>
    obtain ⟨-, -, -, -, hctl, hcur, -⟩ := raises_raise s e
    exact h.kept (TransferEffect.raised i e).launchKept hcur hctl
  | jmp off hc g => exact (h.countTransfer hc).goto g off
  | jifTaken off _ hc g => exact (h.countTransfer hc).goto g off
  | jifNot => exact h
  | routine off hc g => exact ((h.countTransfer hc).pushReturn (roomToPush hc)).goto g off
  | call lib off hc g =>
    exact (((h.countTransfer hc).pushReturn (roomToPush hc)).deepen (roomToDeepen hc)).goto g off
  | exec lib off g => exact h.goto g off
  | ret e rest hs g => exact (h.pop hs).goto g e.off

theorem exec_controlInv {s t : State} {i : Instr} (hs : ControlInv s) (h : exec i s = .next t) : ControlInv t := by
  cases hi : isTransfer i with
  | true => exact (transfer_cases hi h).controlInv hs
  | false =>
    obtain ⟨hcur, hctl⟩ := exec_frame_of_not_transfer hi h
    exact hs.kept (exec_launchKept h) hcur hctl

/-- Every instruction of a running engine keeps the invariant. -/
theorem exec_inv {s t : State} {i : Instr} (hs : Inv s) (hr : s.run = .running) (h : exec i s = .next t) : Inv t :=
  hs.of_control (exec_launchKept h) (exec_controlInv hs.control h) (exec_slotsFit hs.slots h)
    (exec_faultRecorded hr (hs.flt_none hr) h)

theorem Inv.cursor {s : State} (h : Inv s) (m : Memory) : (s.cursorOn m).AtBoundary := ⟨h.aligned, h.eofAtEnd⟩

theorem launchKept_fetched (s : State) (c : Cursor) : LaunchKept s (s.fetched c) := ⟨rfl, rfl, rfl, rfl⟩

theorem launchKept_stopWith (s : State) (why : Stop) : LaunchKept s (s.stopWith why) := by
  cases why <;> exact ⟨rfl, rfl, rfl, rfl⟩

/-- The cursor a decode leaves behind is one the invariant allows. -/
theorem Inv.fetched {s : State} (h : Inv s) {c : Cursor} (hc : c.AtBoundary) : Inv (s.fetched c) :=
  h.of_control (launchKept_fetched s c)
    { aligned := hc.aligned
      eofAtEnd := hc.eofAtEnd
      current := h.current
      stacked := h.stacked
      depth := h.depth
      libdepth := h.libdepth }
    h.slots h.fault

/-- A stopped decode of a running engine keeps the invariant: the record is written exactly when it raises. -/
theorem Inv.stopWith {s : State} (h : Inv s) (hr : s.run = .running) (why : Stop) : Inv (s.stopWith why) := by
  have hl := launchKept_stopWith s why
  have hf := h.flt_none hr
  cases why with
  | fail e => exact h.of_control hl (h.control.kept hl ⟨rfl, rfl, rfl, rfl⟩ ⟨rfl, rfl, rfl, rfl⟩) h.slots ⟨_, rfl, rfl⟩
  | abort v => exact h.of_control hl (h.control.kept hl ⟨rfl, rfl, rfl, rfl⟩ ⟨rfl, rfl, rfl, rfl⟩) h.slots hf

/-- What a step that answers a next state did, down to the decode: it ran the instruction decoded in the current
library's buffer, or entered the state a stopped decode ends in (R276). -/
theorem step_decoded {s t : State} (h : step s = .next t) :
    s.run = .running ∧ ∃ m, s.buffer s.curlib = some m ∧
      ((∃ i c, decode s.digest (s.cursorOn m) = .ok i c ∧ exec i (s.fetched c) = .next t) ∨
        ∃ why c, decode s.digest (s.cursorOn m) = .stop why c ∧ t = (s.fetched c).stopWith why) := by
  obtain ⟨hr, ⟨i, s', hf, h⟩ | hf⟩ := step_cases h
  · obtain ⟨m, c, hm, hd, rfl⟩ := fetch_eq_instr.1 hf
    exact ⟨hr, m, hm, .inl ⟨i, c, hd, h⟩⟩
  · obtain ⟨m, why, c, hm, hd, rfl⟩ := fetch_eq_ended.1 hf
    exact ⟨hr, m, hm, .inr ⟨why, c, hd, rfl⟩⟩

theorem step_launchKept {s t : State} (h : step s = .next t) : LaunchKept s t := by
  obtain ⟨-, m, -, ⟨i, c, -, h⟩ | ⟨why, c, -, rfl⟩⟩ := step_decoded h
  · exact (launchKept_fetched s c).trans (exec_launchKept h)
  · exact (launchKept_fetched s c).trans (launchKept_stopWith _ why)

theorem step_inv {s t : State} (hs : Inv s) (h : step s = .next t) : Inv t := by
  obtain ⟨hr, m, -, hd⟩ := step_decoded h
  have hc := decode_atBoundary s.digest (hs.cursor m)
  obtain ⟨i, c, hd, h⟩ | ⟨why, c, hd, rfl⟩ := hd
  · rw [hd] at hc
    exact exec_inv (hs.fetched hc) hr h
  · rw [hd] at hc
    exact (hs.fetched hc).stopWith hr why

/-! ### What one instruction does to the counters -/

/-- A transfer raises, or counts as its kind says (R34, R36, R37). -/
theorem TransferEffect.counters {s t : State} {i : Instr} (e : TransferEffect s i t) :
    (∃ e, Raises e s t) ∨
      (t.cy0 = s.cy0 + BitVec.ofNat 16 (cyTick s i) ∧ t.cp0 + pops i = s.cp0 + pushes i ∧
        t.libdepth = s.libdepth + BitVec.ofNat 16 (deepens i)) := by
  cases e with
  | raised _ e => exact .inl ⟨e, raises_raise s e⟩
  | jmp => exact .inr ⟨rfl, rfl, by simp [deepens]⟩
  | jifTaken _ hst => exact .inr ⟨by simp [cyTick, hst], rfl, by simp [deepens]⟩
  | jifNot _ hst => exact .inr ⟨by simp [cyTick, hst], rfl, by simp [deepens]⟩
  | routine => exact .inr ⟨rfl, rfl, by simp [deepens]⟩
  | call => exact .inr ⟨rfl, rfl, rfl⟩
  | exec => exact .inr ⟨by simp [cyTick], rfl, by simp [deepens]⟩
  | ret e rest hs => exact .inr ⟨by simp [cyTick], by simp [State.cp0, pops, pushes, hs], by simp [deepens]⟩

end Sys2Proof.Machine

/-! ## The statements about the state -/

namespace Sys2Proof.Proofs

open Sys2Proof.Machine

/-- Settles O15: a fetch leaves the cursor where the invariant allows it, and what follows keeps each of its parts. -/
theorem stepKeepsTheInvariant : Obligations.StepKeepsTheInvariant := by
  unfold Obligations.StepKeepsTheInvariant
  exact fun _ _ => step_inv

/-- Settles O19: the buffers are computed from launch parameters, and no step writes one. -/
theorem stepNeverWritesMemory : Obligations.StepNeverWritesMemory := by
  unfold Obligations.StepNeverWritesMemory
  intro s t h
  have hl := step_launchKept h
  exact ⟨hl.code, hl.libs, hl.memory⟩

/-- Settles O24, by the kind of the instruction. -/
theorem statusFlagWriters : Obligations.StatusFlagWriters := by
  unfold Obligations.StatusFlagWriters
  intro i s t h hne
  cases exec_kind h with
  | data _ e =>
    obtain ⟨-, -, -, -, hst | hfail⟩ := e.frame
    · exact absurd hst hne
    · exact .inr (.inr (.inr hfail))
  | halt hi _ _ => exact .inl hi
  | compare _ e =>
    obtain rfl | ⟨f, rfl⟩ := e
    · exact .inr (.inr (.inr (failsOperand_operandFail s)))
    · exact absurd (State.setCm0_st0 s f) hne
  | equate hi _ => exact .inr (hi.imp_right .inl)
  | transfer hi => exact absurd (transfer_cases hi h).dataKept.1.1 hne

/-- Settles O25, by the kind of the instruction: each kind but the comparisons leaves `cm0` alone. -/
theorem orderingFlagWriters : Obligations.OrderingFlagWriters := by
  unfold Obligations.OrderingFlagWriters
  intro i s t h hne
  cases exec_kind h with
  | data _ e =>
    obtain ⟨-, -, -, hcm, -⟩ := e.frame
    exact absurd hcm hne
  | halt _ success e => subst e; exact absurd (State.halt_cm0 s success) hne
  | compare hi e =>
    obtain rfl | ⟨f, rfl⟩ := e
    · exact absurd (State.operandFail_cm0 s) hne
    · exact ⟨hi, State.setCm0_st0 s f, onlyFlags_setCm0 s f⟩
  | equate _ e =>
    obtain rfl | ⟨f, rfl⟩ := e
    · exact absurd (State.operandFail_cm0 s) hne
    · exact absurd (State.setSt0_cm0 s f) hne
  | transfer hi => exact absurd (transfer_cases hi h).dataKept.1.2 hne

/-- Settles O26: a transfer counts as its effect says, and any other instruction keeps the control state. -/
theorem countersCountTransfers : Obligations.CountersCountTransfers := by
  unfold Obligations.CountersCountTransfers
  intro i s t h
  cases hi : isTransfer i with
  | true => exact (transfer_cases hi h).counters
  | false =>
    obtain ⟨-, hcy, hcs, hld, -⟩ := exec_frame_of_not_transfer hi h
    obtain ⟨htick, hpush, hpop, hdeep⟩ := counts_of_not_transfer hi s
    exact .inr (by simp [htick, hpush, hpop, hdeep, hcy, hcs, hld, State.cp0])

/-- Settles O12: each field as R45 lists it. -/
theorem resetState : Obligations.ResetState := by
  unfold Obligations.ResetState
  exact ⟨State.slot_reset, rfl, rfl, rfl, rfl, rfl, rfl, rfl, rfl, rfl, rfl, rfl, rfl, rfl⟩

/-- Settles O13: no slot is set, no entry is on the stack, and the launch buffer is the empty one. -/
theorem resetMeetsTheInvariant : Obligations.ResetMeetsTheInvariant := by
  unfold Obligations.ResetMeetsTheInvariant
  exact
    { aligned := rfl
      eofAtEnd := nofun
      current := rfl
      stacked := nofun
      depth := Nat.zero_le _
      libdepth := Nat.zero_le _
      slots := fun b i v hv => by rw [State.slot_reset] at hv; cases hv
      code := State.reset_code_wf
      libs := nofun
      fault := rfl }

/-- Settles O17: `step` looks at `run` first. -/
theorem terminalStatesHaveNoStep : Obligations.TerminalStatesHaveNoStep := by
  unfold Obligations.TerminalStatesHaveNoStep
  intro s hr
  cases h : s.run with
  | running => exact absurd h hr
  | halted b => simp [step, h]
  | faulted e => simp [step, h]
  | aborted v => simp [step, h]

end Sys2Proof.Proofs

/-! ## Proofs: the memory and the cursor (spec/20_memory.md)

How each cursor primitive stops, what a stopped decode did, and the writes read back; from these the statements about
the cursor, and that only a misaligned cursor aborts a step. -/

namespace Sys2Proof.Machine

/-! ### The access check, and the reads it stops -/

/-- The access check looks at the sentinel first (R65 step 1). -/
theorem Cursor.checkBytes_eof {c : Cursor} (h : c.eof = true) (n : Nat) :
    c.checkBytes n = some (.fail .endOfBuffer) := by simp [Cursor.checkBytes, h]

/-- Inside a byte it aborts (R65 step 2). -/
theorem Cursor.checkBytes_misaligned {c : Cursor} {n : Nat} (he : c.eof = false) (hn : n ≠ 0) (hb : c.bit ≠ 0) :
    c.checkBytes n = some (.abort .misalignedAccess) := by
  simp [Cursor.checkBytes, he, hn, show ¬ c.bit = 0#3 from hb]

/-- It aborts inside a byte only (R65). -/
theorem Cursor.bit_ne_zero_of_checkBytes {c : Cursor} {n : Nat} {v : Violation}
    (h : c.checkBytes n = some (.abort v)) : c.bit ≠ 0 := by
  intro hb
  simp only [Cursor.checkBytes, hb, ne_eq, not_true, if_false] at h
  repeat' split at h
  all_goals cases h

/-- How `CurU8()` stops (R67). -/
theorem curU8_eq_stop {c c' : Cursor} {why : Stop} :
    curU8 c = .stop why c' ↔ c.checkBytes 1 = some why ∧ c = c' := by
  unfold curU8
  cases c.checkBytes 1 <;> simp

/-- How `CurU16()` stops (R68). -/
theorem curU16_eq_stop {c c' : Cursor} {why : Stop} :
    curU16 c = .stop why c' ↔ c.checkBytes 2 = some why ∧ c = c' := by
  unfold curU16
  cases c.checkBytes 2 <;> simp

/-- How `CurBlock32()` stops (R70). -/
theorem curBlock32_eq_stop {c c' : Cursor} {why : Stop} :
    curBlock32 c = .stop why c' ↔ c.checkBytes 32 = some why ∧ c = c' := by
  unfold curBlock32
  cases c.checkBytes 32 <;> simp

/-- `CurSlice()` aborts by the check of its length alone (R71). -/
theorem checkBytes_of_curSlice_abort {c c' : Cursor} {v : Violation} (h : curSlice c = .stop (.abort v) c') :
    c.checkBytes 2 = some (.abort v) := by
  unfold curSlice at h
  split at h
  next hs => cases h; exact hs
  next =>
    dsimp only [failAt] at h
    split at h
    · cases h
    · split at h <;> cases h

/-! ### A primitive that stops returns the cursor it was given (R74) -/

/-- If the operation stops, it returns the cursor `c`. -/
structure CurOut.StopsAt {α : Type} (c : Cursor) (r : CurOut α) : Prop where
  cursor : ∀ why c', r = .stop why c' → c' = c

theorem CurOut.StopsAt.ok {α : Type} (c : Cursor) (a : α) (c' : Cursor) : CurOut.StopsAt c (.ok a c') := ⟨nofun⟩

theorem CurOut.StopsAt.stop {α : Type} (why : Stop) (c : Cursor) : CurOut.StopsAt c (.stop why c : CurOut α) :=
  ⟨fun _ _ h => by cases h; rfl⟩

theorem CurOut.StopsAt.ite {α : Type} {c : Cursor} {p : Prop} [Decidable p] {r r' : CurOut α} (h : r.StopsAt c)
    (h' : r'.StopsAt c) : (if p then r else r').StopsAt c := by
  split
  · exact h
  · exact h'

section Atomic

variable (c : Cursor)

theorem curBytes_stopsAt (n : Nat) : (curBytes n c).StopsAt c := by
  unfold curBytes
  split
  · exact .stop ..
  · exact .ok ..

theorem curPutBytes_stopsAt (x : Bytes) : (curPutBytes x c).StopsAt c := by
  unfold curPutBytes
  split
  · exact .stop ..
  · exact .ok ..

theorem curBits_stopsAt (fw : FieldWidth) : (curBits fw c).StopsAt c :=
  .ite (.stop ..) <| .ite (.stop ..) <| .ite (.ite (.ok ..) (.ok ..)) <| .ite (.stop ..) <| .ite (.stop ..) (.ok ..)

theorem curPutBits_stopsAt (fw : FieldWidth) (v : Nat) : (curPutBits fw v c).StopsAt c :=
  .ite (.stop ..) <| .ite (.stop ..) <| .ite (.ite (.ok ..) (.ok ..)) <| .ite (.stop ..) <| .ite (.stop ..) (.ok ..)

/-- `CurI16()` stops where `CurU16()` does. -/
theorem curI16_stopsAt : (curI16 c).StopsAt c := ⟨fun _ _ h => by
  obtain h | ⟨_, _, -, h⟩ := CurOut.bind_eq_stop.1 h
  · exact curU16_stop h
  · cases h⟩

theorem curRegValue_stopsAt (b : Bank) : (curRegValue b c).StopsAt c := by
  unfold curRegValue
  split
  · exact curBytes_stopsAt ..
  · exact ⟨fun _ _ => curSlice_stop⟩

theorem curPutSlice_stopsAt (x : Bytes) : (curPutSlice x c).StopsAt c :=
  .ite (.stop ..) <| .ite (.stop ..) <| .ite (.stop ..) <| .ite (.stop ..) <| .ite (.stop ..) <|
    .ite (.stop ..) (.ok ..)

theorem curPutRegValue_stopsAt (b : Bank) (x : Bytes) (sg : Bool) : (curPutRegValue b x sg c).StopsAt c := by
  unfold curPutRegValue
  split
  · exact .ite (.stop ..) (curPutBytes_stopsAt ..)
  · exact curPutSlice_stopsAt ..

theorem curSeek_stopsAt (o : Offset) : (curSeek o c).StopsAt c := .ite (.stop ..) (.ok ..)

end Atomic

/-! ### Under the sentinel (R65 step 1) -/

section Sentinel

variable {c : Cursor}

theorem curBytes_eof (h : c.eof = true) (n : Nat) : curBytes n c = .stop (.fail .endOfBuffer) c := by
  rw [curBytes, Cursor.checkBytes_eof h]

theorem curU16_eof (h : c.eof = true) : curU16 c = .stop (.fail .endOfBuffer) c :=
  curU16_eq_stop.2 ⟨Cursor.checkBytes_eof h 2, rfl⟩

theorem curSlice_eof (h : c.eof = true) : curSlice c = .stop (.fail .endOfBuffer) c := by
  rw [curSlice, Cursor.checkBytes_eof h]

theorem curRegValue_eof (h : c.eof = true) (b : Bank) : curRegValue b c = .stop (.fail .endOfBuffer) c := by
  unfold curRegValue
  split
  · exact curBytes_eof h _
  · exact curSlice_eof h

theorem curPutBytes_eof (h : c.eof = true) (x : Bytes) : curPutBytes x c = .stop (.fail .endOfBuffer) c := by
  rw [curPutBytes, Cursor.checkBytes_eof h]

theorem curPutSlice_eof (h : c.eof = true) (x : Bytes) : curPutSlice x c = .stop (.fail .endOfBuffer) c := by
  simp [curPutSlice, h, failAt]

/-- A value no longer than its register meets the sentinel (R81). -/
theorem curPutRegValue_eof (h : c.eof = true) {b : Bank} {x : Bytes} (hx : ∀ m, b.bytes = some m → x.length ≤ m)
    (sg : Bool) : curPutRegValue b x sg c = .stop (.fail .endOfBuffer) c := by
  unfold curPutRegValue
  split
  next m hm => rw [if_neg (Nat.not_lt.2 (hx m hm)), curPutBytes_eof h]
  next => exact curPutSlice_eof h x

/-- A longer one aborts before anything else is looked at (R81). -/
theorem curPutRegValue_tooLong {b : Bank} {x : Bytes} {m : Nat} (hb : b.bytes = some m) (hx : m < x.length)
    (sg : Bool) : curPutRegValue b x sg c = .stop (.abort .valueTooLong) c := by
  simp [curPutRegValue, hb, hx]

end Sentinel

/-! ### What a stopped decode did -/

/-- How a decode can stop: it rejects what it has read (R111, R113), or one of its reads stops at the cursor where the
decode ends. -/
inductive DecodeStop : Stop → Cursor → Prop
  | unknownOpcode (c : Cursor) : DecodeStop (.fail .unknownOpcode) c
  | u8 {why : Stop} {c : Cursor} (h : curU8 c = .stop why c) : DecodeStop why c
  | u16 {why : Stop} {c : Cursor} (h : curU16 c = .stop why c) : DecodeStop why c
  | block32 {why : Stop} {c : Cursor} (h : curBlock32 c = .stop why c) : DecodeStop why c
  | slice {why : Stop} {c : Cursor} (h : curSlice c = .stop why c) : DecodeStop why c

/-- If the operation stops, it stops as a decode can. -/
structure CurOut.StopsInDecode {α : Type} (r : CurOut α) : Prop where
  decodeStop : ∀ why c, r = .stop why c → DecodeStop why c

theorem CurOut.StopsInDecode.ok {α : Type} (a : α) (c : Cursor) : (CurOut.ok a c).StopsInDecode := ⟨nofun⟩

theorem CurOut.StopsInDecode.bind {α β : Type} {r : CurOut α} {f : α → Cursor → CurOut β}
    (hr : r.StopsInDecode) (hf : ∀ a c, (f a c).StopsInDecode) : (r.bind f).StopsInDecode := ⟨fun why c h => by
  obtain h | ⟨a, c1, -, h⟩ := CurOut.bind_eq_stop.1 h
  · exact hr.decodeStop why c h
  · exact (hf a c1).decodeStop why c h⟩

theorem curU8_stopsInDecode (c : Cursor) : (curU8 c).StopsInDecode :=
  ⟨fun _ _ h => by obtain rfl := curU8_stop h; exact .u8 h⟩

theorem curU16_stopsInDecode (c : Cursor) : (curU16 c).StopsInDecode :=
  ⟨fun _ _ h => by obtain rfl := curU16_stop h; exact .u16 h⟩

theorem curBlock32_stopsInDecode (c : Cursor) : (curBlock32 c).StopsInDecode :=
  ⟨fun _ _ h => by obtain rfl := curBlock32_stop h; exact .block32 h⟩

theorem curSlice_stopsInDecode (c : Cursor) : (curSlice c).StopsInDecode :=
  ⟨fun _ _ h => by obtain rfl := curSlice_stop h; exact .slice h⟩

theorem unknownOpcode_stopsInDecode (c : Cursor) :
    (failAt .unknownOpcode c : CurOut Instr).StopsInDecode := ⟨fun _ _ h => by cases h; exact .unknownOpcode c⟩

theorem stage4_stopsInDecode (legal : Bool) (i : Instr) (c : Cursor) : (stage4 legal i c).StopsInDecode := by
  cases legal with
  | true => exact .ok i c
  | false => exact unknownOpcode_stopsInDecode c

theorem stage4R_stopsInDecode (rb : Option RBank) (legal : RBank → Bool) (mk : RBank → Instr) (c : Cursor) :
    (stage4R rb legal mk c).StopsInDecode := by
  cases rb with
  | none => exact unknownOpcode_stopsInDecode c
  | some b => exact stage4_stopsInDecode ..

theorem readRow_stopsInDecode (d : DigestTable) (row : Row) (c : Cursor) : (readRow d row c).StopsInDecode := by
  have one {f : Byte → Cursor → CurOut Instr} {c : Cursor} (hf : ∀ b c, (f b c).StopsInDecode) :
      ((operandByte c).bind f).StopsInDecode := (curU8_stopsInDecode c).bind hf
  cases row with
  | f0 => exact .ok ..
  | fj => exact (curU16_stopsInDecode c).bind fun _ _ => .ok ..
  | fl => exact (curBlock32_stopsInDecode c).bind fun _ c => (curU16_stopsInDecode c).bind fun _ _ => .ok ..
  | fx => exact one fun _ _ => one fun _ _ => one fun _ _ => stage4_stopsInDecode ..
  | fa => exact one fun _ _ => stage4_stopsInDecode ..
  | fr => exact one fun _ _ => stage4R_stopsInDecode ..
  | fs => exact one fun _ _ => stage4_stopsInDecode ..
  | fal => exact one fun _ c => (curSlice_stopsInDecode c).bind fun _ _ => stage4_stopsInDecode ..
  | frl => exact one fun _ c => (curSlice_stopsInDecode c).bind fun _ _ => stage4R_stopsInDecode ..
  | fsl => exact one fun _ c => (curSlice_stopsInDecode c).bind fun _ _ => stage4_stopsInDecode ..
  | fa2 => exact one fun _ _ => one fun _ _ => stage4_stopsInDecode ..
  | fr2 => exact one fun _ _ => one fun _ _ => stage4R_stopsInDecode ..
  | fm2 => exact one fun _ _ => one fun _ _ => one fun _ _ => stage4_stopsInDecode ..
  | fm1 => exact one fun _ _ => one fun _ _ => stage4_stopsInDecode ..
  | fb3 => exact one fun _ _ => one fun _ _ => stage4_stopsInDecode ..
  | fd => exact one fun _ _ => one fun _ c => (curU16_stopsInDecode c).bind fun _ _ => stage4R_stopsInDecode ..
  | fe2 => exact one fun _ _ => .ok ..
  | fe3 => exact one fun _ _ => one fun _ _ => stage4_stopsInDecode ..
  | fe3f => exact one fun _ _ => one fun _ _ => stage4_stopsInDecode ..

theorem decode_stopsInDecode (d : DigestTable) (c : Cursor) : (decode d c).StopsInDecode :=
  (curU8_stopsInDecode c).bind fun op c => by
    cases opcodeRow d op with
    | none => exact unknownOpcode_stopsInDecode c
    | some row => exact readRow_stopsInDecode d row c

/-- A stopped decode has rejected what it read, or is the stop of one of its reads (R102). -/
theorem decodeStop_of_decode {d : DigestTable} {c c' : Cursor} {why : Stop} (h : decode d c = .stop why c') :
    DecodeStop why c' := (decode_stopsInDecode d c).decodeStop why c' h

/-- A decode aborts inside a byte only (R297). -/
theorem DecodeStop.bit_ne_zero {v : Violation} {c : Cursor} (h : DecodeStop (.abort v) c) : c.bit ≠ 0 := by
  cases h with
  | u8 h => exact Cursor.bit_ne_zero_of_checkBytes (curU8_eq_stop.1 h).1
  | u16 h => exact Cursor.bit_ne_zero_of_checkBytes (curU16_eq_stop.1 h).1
  | block32 h => exact Cursor.bit_ne_zero_of_checkBytes (curBlock32_eq_stop.1 h).1
  | slice h => exact Cursor.bit_ne_zero_of_checkBytes (checkBytes_of_curSlice_abort h)

/-! ### The bit offset through a step -/

/-- A decode that begins on a byte boundary ends on one (R100). -/
theorem decode_bit (d : DigestTable) {c : Cursor} (h : c.bit = 0) : (decode d c).Ends fun c' => c'.bit = 0 :=
  decode_ends (P := fun c' => c'.bit = 0)
    (readsKeep_of_advance fun c n hc _ _ => (Cursor.advance_bit c n).trans hc) d h

theorem TransferEffect.bit_eq_zero {s t : State} {i : Instr} (e : TransferEffect s i t) (h : s.bit = 0) :
    t.bit = 0 := by
  cases e with
  | raised => exact h
  | jifNot => exact h
  | _ => rfl

/-- An instruction run on a byte boundary ends on one. -/
theorem exec_bit {s t : State} {i : Instr} (hs : s.bit = 0) (h : exec i s = .next t) : t.bit = 0 := by
  cases hi : isTransfer i with
  | true => exact (transfer_cases hi h).bit_eq_zero hs
  | false =>
    obtain ⟨⟨-, hbit, -, -⟩, -⟩ := exec_frame_of_not_transfer hi h
    exact hbit.trans hs

/-- No instruction of a running engine aborts (R279). -/
theorem exec_run_ne_aborted {s t : State} {i : Instr} (hr : s.run = .running) (h : exec i s = .next t)
    (v : Violation) : t.run ≠ .aborted v := by
  obtain ⟨hrun, -⟩ | ⟨e, rfl⟩ | ⟨b, rfl⟩ := exec_engine h
  · rw [hrun, hr]; exact nofun
  · exact nofun
  · exact nofun

/-- A decode that begins inside a byte aborts at once (R65 step 2, R297). -/
theorem decode_misaligned (d : DigestTable) {c : Cursor} (he : c.eof = false) (hb : c.bit ≠ 0) :
    decode d c = .stop (.abort .misalignedAccess) c := by
  rw [decode, curU8_eq_stop.2 ⟨Cursor.checkBytes_misaligned he one_ne_zero hb, rfl⟩, CurOut.bind_stop]

/-- A step that begins on a byte boundary ends on one and does not abort. -/
theorem step_aligned {s t : State} (hs : s.bit = 0) (h : step s = .next t) :
    t.bit = 0 ∧ ∀ v, t.run ≠ .aborted v := by
  obtain ⟨hr, m, -, ⟨i, c, hd, h⟩ | ⟨why, c, hd, rfl⟩⟩ := step_decoded h
  all_goals
    have hbit := decode_bit s.digest (c := s.cursorOn m) hs
    rw [hd] at hbit
  · exact ⟨exec_bit (s := s.fetched c) hbit h, exec_run_ne_aborted (s := s.fetched c) hr h⟩
  · cases why with
    | fail e => exact ⟨hbit, nofun⟩
    | abort v => exact absurd hbit (decodeStop_of_decode hd).bit_ne_zero

/-- A step that begins inside a byte, with bytes to read, aborts. -/
theorem step_misaligned {s : State} {m : Memory} (hr : s.run = .running) (hb : s.bit ≠ 0) (he : s.eof = false)
    (hm : s.buffer s.curlib = some m) :
    step s = .next ((s.fetched (s.cursorOn m)).abort .misalignedAccess) := by
  have hf := fetch_eq_ended.2 ⟨m, _, _, hm, decode_misaligned s.digest (c := s.cursorOn m) he hb, rfl⟩
  simp only [step, hr, hf, State.stopWith]

/-! ### Byte strings read back (R82) -/

/-- The cursor with its buffer replaced: what a write has made of it before it moves. -/
def Cursor.withBuf (c : Cursor) (m : Memory) : Cursor := { c with buf := m }

@[simp] theorem Cursor.withBuf_buf (c : Cursor) (m : Memory) : (c.withBuf m).buf = m := rfl
@[simp] theorem Cursor.withBuf_pos (c : Cursor) (m : Memory) : (c.withBuf m).pos = c.pos := rfl
@[simp] theorem Cursor.withBuf_bit (c : Cursor) (m : Memory) : (c.withBuf m).bit = c.bit := rfl
@[simp] theorem Cursor.withBuf_eof (c : Cursor) (m : Memory) : (c.withBuf m).eof = c.eof := rfl

/-- What it takes for a byte string to be written, and where that leaves the cursor. -/
theorem curPutBytes_ok {x : Bytes} {c c' : Cursor} (hx : 1 ≤ x.length) (h : curPutBytes x c = .ok () c') :
    c.eof = false ∧ c.bit = 0 ∧ (2 ≤ x.length → c.pos.toNat + x.length ≤ Config.posMax) ∧
      c.pos.toNat + x.length ≤ c.buf.len ∧ c' = (c.withBuf (c.buf.putBytes c.pos.toNat x)).past x.length := by
  unfold curPutBytes at h
  split at h
  · cases h
  next hs =>
    obtain ⟨he, hb, hp, hl⟩ := (Cursor.checkBytes_eq_none hx).1 hs
    have hc' : (c.withBuf (c.buf.putBytes c.pos.toNat x)).advance x.length = c' := (CurOut.ok.inj h).2
    rw [advance_eq_past (c := c.withBuf (c.buf.putBytes c.pos.toNat x)) (by omega) hp] at hc'
    exact ⟨he, hb, hp, hl, hc'.symm⟩

/-- What has been written stands at the cursor that wrote it. -/
theorem at_putBytes {c : Cursor} {x : Bytes} (hm : c.buf.wf) (he : c.eof = false) (hb : c.bit = 0)
    (hl : c.pos.toNat + x.length ≤ c.buf.len) :
    At (c.withBuf (c.buf.putBytes c.pos.toNat x)) 0 x where
  bit := hb
  eof := he
  start := Nat.le_of_lt_succ c.pos.isLt
  room := Nat.le_trans hl hm.1
  inside := by simpa using hl
  bytes := Memory.slice_putBytes hm hl

/-- A cursor that wrote and moved without meeting the sentinel, put back where it was. -/
theorem Cursor.past_rewind {c c' : Cursor} {m : Memory} {n : Nat} (h : c' = (c.withBuf m).past n)
    (he : c'.eof = false) : { c' with pos := c.pos } = c.withBuf m := by
  subst h
  unfold Cursor.past at he ⊢
  by_cases hn : (c.withBuf m).pos.toNat + n = Config.codeMax
  · rw [if_pos hn] at he; cases he
  · rw [if_neg hn]; rfl

/-- A byte string that a write put stands where the write began. -/
theorem at_of_curPutBytes {x : Bytes} {c c' : Cursor} (hx : 1 ≤ x.length) (hm : c.buf.wf)
    (h : curPutBytes x c = .ok () c') (he' : c'.eof = false) :
    At { c' with pos := c.pos } 0 x ∧ c' = Cursor.past { c' with pos := c.pos } x.length ∧
      (2 ≤ x.length → c.pos.toNat + x.length ≤ Config.posMax) := by
  obtain ⟨he, hb, hp, hl, hc'⟩ := curPutBytes_ok hx h
  rw [Cursor.past_rewind hc' he']
  exact ⟨at_putBytes hm he hb hl, hc', hp⟩

theorem curU16_of_curPutU16 {u : Offset} {c c' : Cursor} (hm : c.buf.wf) (h : curPutU16 u c = .ok () c')
    (he : c'.eof = false) : curU16 { c' with pos := c.pos } = .ok u c' := by
  obtain ⟨hat, hc', hp⟩ := at_of_curPutBytes (x := bytes16 u) (by simp) hm h he
  have hread := At.curU16 (x := []) (by simpa using hat) (hp le_rfl)
  rwa [Cursor.past_zero, ← show (bytes16 u).length = 0 + 2 from rfl, ← hc'] at hread

theorem curBlock32_of_curPutBlock32 {k : Block32} {c c' : Cursor} (hm : c.buf.wf)
    (h : curPutBlock32 k c = .ok () c') (he : c'.eof = false) :
    curBlock32 { c' with pos := c.pos } = .ok k c' := by
  have hk := k.len
  obtain ⟨hat, hc', hp⟩ := at_of_curPutBytes (x := k.bytes) (by omega) hm h he
  rw [hk] at hc' hp
  have hread := At.curBlock32 (x := []) (by simpa using hat) (hp (by omega))
  rwa [Cursor.past_zero, ← hc'] at hread

/-- A signed value is the two's complement reading of its 16-bit form (R69, R78). -/
theorem ofInt_signed {z : Int} (hlo : -32768 ≤ z) (hhi : z < 32768) :
    (if 32768 ≤ (BitVec.ofInt 16 z).toNat then ((BitVec.ofInt 16 z).toNat : Int) - 65536
      else (BitVec.ofInt 16 z).toNat) = z := by
  rw [BitVec.toNat_ofInt]
  split <;> omega

/-- Past a slice's length and then its payload (R71, R80). -/
theorem Cursor.advance_advance_eq_past {c : Cursor} {l : Nat} (hp : c.pos.toNat + 2 ≤ Config.posMax)
    (hl : 2 ≤ l → c.pos.toNat + 2 + l ≤ Config.posMax) : (c.advance 2).advance l = c.past (2 + l) := by
  rw [advance_eq_past two_ne_zero fun _ => hp, Cursor.advance_past hp hl]

/-- What it takes for a slice to be written, and where that leaves the cursor (R80). -/
theorem curPutSlice_ok {x : Bytes} {c c' : Cursor} (h : curPutSlice x c = .ok () c') :
    c.eof = false ∧ c.bit = 0 ∧ c.pos.toNat + 2 ≤ Config.posMax ∧
      (2 ≤ x.length → c.pos.toNat + 2 + x.length ≤ Config.posMax) ∧ c.pos.toNat + 2 + x.length ≤ c.buf.len ∧
      c' = (c.withBuf (c.buf.putBytes c.pos.toNat (encLit x))).past (2 + x.length) := by
  simp only [curPutSlice, failAt] at h
  split at h
  · cases h
  next he =>
  split at h
  · cases h
  next hb =>
  split at h
  · cases h
  split at h
  · cases h
  next hpre =>
  split at h
  · cases h
  next hpay =>
  split at h
  · cases h
  next hl =>
  have hp : c.pos.toNat + 2 ≤ Config.posMax := Nat.not_lt.1 hpre
  have hp2 : 2 ≤ x.length → c.pos.toNat + 2 + x.length ≤ Config.posMax := fun h2 => by omega
  have hc' : ((c.withBuf (c.buf.putBytes c.pos.toNat (encLit x))).advance 2).advance x.length = c' :=
    (CurOut.ok.inj h).2
  rw [Cursor.advance_advance_eq_past (c := c.withBuf (c.buf.putBytes c.pos.toNat (encLit x))) hp hp2] at hc'
  exact ⟨by simpa using he, by simpa using hb, hp, hp2, by omega, hc'.symm⟩

theorem encLit_length (x : Bytes) : (encLit x).length = 2 + x.length := by simp [encLit, bytes16]; omega

theorem curSlice_of_curPutSlice {x : Bytes} {c c' : Cursor} (hm : c.buf.wf) (h : curPutSlice x c = .ok () c')
    (he' : c'.eof = false) :
    curSlice { c' with pos := c.pos } = .ok x c' ∧ c'.pos.toNat = c.pos.toNat + 2 + x.length := by
  obtain ⟨he, hb, hp, hp2, hl, hc'⟩ := curPutSlice_ok h
  have hroom := hm.1
  have hend : c.pos.toNat + (2 + x.length) ≤ Config.posMax := by
    by_cases hn : c.pos.toNat + (2 + x.length) = Config.codeMax
    · rw [hc', Cursor.past, Cursor.withBuf_pos, if_pos hn] at he'; cases he'
    · simp only [Config.codeMax, Config.posMax] at *; omega
  have hat := at_putBytes (x := encLit x) hm he hb (by rw [encLit_length]; omega)
  have hread := At.curSlice (lit := x) (x := []) (by simp only [Config.posMax] at hend; omega) (by simpa using hat)
    (.inl (by rw [Cursor.withBuf_pos]; omega))
  rw [Cursor.past_zero, Nat.zero_add, ← hc', ← Cursor.past_rewind hc' he'] at hread
  refine ⟨hread, ?_⟩
  rw [hc', (Cursor.past_toNat (c := c.withBuf (c.buf.putBytes c.pos.toNat (encLit x))) hend).1, Cursor.withBuf_pos,
    Nat.add_assoc]

/-! ### Bit-fields read back (R82) -/

/-- A field cut out from its upper end first, so that the bits above it, which `setField` keeps, fall away. -/
theorem bitField_eq (b : Byte) (lo bits : Nat) : bitField b lo bits = b.toNat % 2 ^ (lo + bits) / 2 ^ lo := by
  rw [bitField, Nat.pow_add, Nat.mod_mul_right_div_self]

/-- A field of a byte reads back as the bits deposited in it (R75). -/
theorem bitField_setField (b : Byte) {lo bits : Nat} (u : Nat) (h : lo + bits ≤ 8) :
    bitField (setField b lo bits u) lo bits = u % 2 ^ bits := by
  have hdvd : 2 ^ (lo + bits) ∣ 2 ^ 8 := Nat.pow_dvd_pow 2 h
  have hlow : b.toNat % 2 ^ lo < 2 ^ lo := Nat.mod_lt _ (Nat.two_pow_pos lo)
  have hfield : u % 2 ^ bits < 2 ^ bits := Nat.mod_lt _ (Nat.two_pow_pos bits)
  have hsum : b.toNat % 2 ^ lo + u % 2 ^ bits * 2 ^ lo < 2 ^ (lo + bits) := by
    calc b.toNat % 2 ^ lo + u % 2 ^ bits * 2 ^ lo
      _ < (u % 2 ^ bits + 1) * 2 ^ lo := by rw [Nat.succ_mul]; omega
      _ ≤ 2 ^ bits * 2 ^ lo := Nat.mul_le_mul_right _ hfield
      _ = 2 ^ (lo + bits) := by rw [Nat.add_comm, Nat.pow_add]
  rw [bitField_eq, setField, BitVec.toNat_ofNat, Nat.mod_mod_of_dvd _ hdvd, Nat.add_mul_mod_self_right,
    Nat.mod_eq_of_lt hsum, Nat.add_mul_div_right _ _ (Nat.two_pow_pos lo), Nat.div_eq_of_lt hlow, Nat.zero_add]

/-- The buffer after the low `w` bits of `v` are written at the cursor, where they end in its byte (R75). -/
def Cursor.putField (c : Cursor) (w v : Nat) : Memory :=
  c.buf.put c.pos.toNat (setField (c.buf.byte c.pos.toNat) c.bit.toNat w v)

/-- The buffer after they are written where they run into the next byte (R75). -/
def Cursor.putFieldAcross (c : Cursor) (w v : Nat) : Memory :=
  (c.putField (8 - c.bit.toNat) v).put (c.pos.toNat + 1)
    (setField (c.buf.byte (c.pos.toNat + 1)) 0 (w - (8 - c.bit.toNat)) (v / 2 ^ (8 - c.bit.toNat)))

@[simp] theorem Cursor.putField_len (c : Cursor) (w v : Nat) : (c.putField w v).len = c.buf.len := Memory.put_len ..

@[simp] theorem Cursor.putFieldAcross_len (c : Cursor) (w v : Nat) : (c.putFieldAcross w v).len = c.buf.len := by
  simp [Cursor.putFieldAcross]

theorem Cursor.bitField_putField {c : Cursor} {w : Nat} (hm : c.buf.wf) (hl : c.pos.toNat < c.buf.len)
    (hw : c.bit.toNat + w ≤ 8) (v : Nat) :
    bitField ((c.putField w v).byte c.pos.toNat) c.bit.toNat w = v % 2 ^ w := by
  rw [Cursor.putField, Memory.byte_put hm hl, if_pos rfl, bitField_setField _ _ hw]

/-- A field across two bytes leaves its low bits in the first of them and the others in the second. -/
theorem Cursor.bitField_putFieldAcross {c : Cursor} {w : Nat} (hm : c.buf.wf) (hl : c.pos.toNat + 1 < c.buf.len)
    (hw : w - (8 - c.bit.toNat) ≤ 8) (v : Nat) :
    bitField ((c.putFieldAcross w v).byte c.pos.toNat) c.bit.toNat (8 - c.bit.toNat) = v % 2 ^ (8 - c.bit.toNat) ∧
      bitField ((c.putFieldAcross w v).byte (c.pos.toNat + 1)) 0 (w - (8 - c.bit.toNat)) =
        v / 2 ^ (8 - c.bit.toNat) % 2 ^ (w - (8 - c.bit.toNat)) := by
  have hbit := c.bit.isLt
  have hlow := Cursor.bitField_putField hm (Nat.lt_of_succ_lt hl) (w := 8 - c.bit.toNat) (by omega) v
  have hm' : (c.putField (8 - c.bit.toNat) v).wf := Memory.put_wf hm ..
  have hl' : c.pos.toNat + 1 < (c.putField (8 - c.bit.toNat) v).len := by rwa [Cursor.putField_len]
  constructor
  · rwa [Cursor.putFieldAcross, Memory.byte_put hm' hl', if_neg (Nat.ne_of_lt (Nat.lt_succ_self _))]
  · rw [Cursor.putFieldAcross, Memory.byte_put hm' hl', if_pos rfl, bitField_setField _ _ (by omega)]

/-- The cursor after a bit-field of `w` bits that ends in the cursor's byte (R66). -/
def Cursor.afterField (c : Cursor) (w : Nat) : Cursor :=
  if c.bit.toNat + w = 8 then { c with bit := 0 }.advance 1 else { c with bit := BitVec.ofNat 3 (c.bit.toNat + w) }

/-- The cursor after a bit-field of `w` bits that runs into the next byte (R66). -/
def Cursor.acrossField (c : Cursor) (w : Nat) : Cursor :=
  { c with pos := c.pos + 1, bit := BitVec.ofNat 3 (w - (8 - c.bit.toNat)) }

section Fields

variable {c : Cursor} {fw : FieldWidth}

/-- A bit-field that ends in the cursor's byte (R66). -/
theorem curBits_inside (he : c.eof = false) (hl : c.pos.toNat < c.buf.len) (hw : c.bit.toNat + fw.w ≤ 8) :
    curBits fw c = .ok (bitField (c.buf.byte c.pos.toNat) c.bit.toNat fw.w) (c.afterField fw.w) := by
  simp only [curBits, he, Bool.false_eq_true, if_false, if_neg (Nat.not_le.2 hl), if_pos hw, Cursor.afterField]
  split <;> rfl

/-- A bit-field that runs into the next byte: its low bits are in the first one (R66). -/
theorem curBits_across (he : c.eof = false) (hl : c.pos.toNat + 1 < c.buf.len) (hw : 8 < c.bit.toNat + fw.w)
    (hp : c.pos.toNat ≠ Config.posMax) :
    curBits fw c = .ok (bitField (c.buf.byte c.pos.toNat) c.bit.toNat (8 - c.bit.toNat) +
        bitField (c.buf.byte (c.pos.toNat + 1)) 0 (fw.w - (8 - c.bit.toNat)) * 2 ^ (8 - c.bit.toNat))
      (c.acrossField fw.w) := by
  have hl0 : c.pos.toNat < c.buf.len := by omega
  simp only [curBits, he, Bool.false_eq_true, if_false, if_neg (Nat.not_le.2 hl0), if_neg (Nat.not_le.2 hw), if_neg hp,
    if_neg (Nat.not_le.2 hl), Cursor.acrossField]

/-- A bit-field that is written ends in the cursor's byte, or runs into the next one, which the buffer then has
(R75). -/
theorem curPutBits_cases {v : Nat} {c' : Cursor} (h : curPutBits fw v c = .ok () c') :
    c.eof = false ∧
      ((c.bit.toNat + fw.w ≤ 8 ∧ c.pos.toNat < c.buf.len ∧
          c' = (c.withBuf (c.putField fw.w (v % 2 ^ fw.w))).afterField fw.w) ∨
        (8 < c.bit.toNat + fw.w ∧ c.pos.toNat + 1 < c.buf.len ∧ c.pos.toNat ≠ Config.posMax ∧
          c' = (c.withBuf (c.putFieldAcross fw.w (v % 2 ^ fw.w))).acrossField fw.w)) := by
  simp only [curPutBits, failAt] at h
  split at h
  · cases h
  next he =>
  refine ⟨by simpa using he, ?_⟩
  split at h
  · cases h
  next hl =>
  split at h
  next hw =>
    refine .inl ⟨hw, Nat.not_le.1 hl, ?_⟩
    split at h
    next h8 => cases h; exact (if_pos h8).symm
    next h8 => cases h; exact (if_neg h8).symm
  next hw =>
    split at h
    · cases h
    next hp =>
    split at h
    · cases h
    next hl1 => exact .inr ⟨Nat.not_le.1 hw, Nat.not_le.1 hl1, hp, (CurOut.ok.inj h).2.symm⟩

/-- A cursor that wrote a field and moved past it without meeting the sentinel, put back where it was. -/
theorem Cursor.afterField_rewind {c' : Cursor} {m : Memory} {w : Nat} (h : c' = (c.withBuf m).afterField w)
    (he : c'.eof = false) : { c' with pos := c.pos, bit := c.bit } = c.withBuf m := by
  subst h
  unfold Cursor.afterField at he ⊢
  split
  next h8 =>
    rw [if_pos h8] at he
    unfold Cursor.advance at he ⊢
    rw [if_neg one_ne_zero] at he ⊢
    split at he
    · cases he
    next hp => rw [if_neg hp]; rfl
  · rfl

theorem Cursor.acrossField_rewind {c' : Cursor} {m : Memory} {w : Nat} (h : c' = (c.withBuf m).acrossField w) :
    { c' with pos := c.pos, bit := c.bit } = c.withBuf m := by subst h; rfl

/-- A value is its low bits and the bits above them, in two fields. -/
theorem low_add_high {v w lo : Nat} (hv : v < 2 ^ w) (hlo : lo ≤ w) :
    v % 2 ^ lo + v / 2 ^ lo % 2 ^ (w - lo) * 2 ^ lo = v := by
  rw [Nat.mul_comm, ← Nat.mod_mul, ← Nat.pow_add, Nat.add_sub_cancel' hlo, Nat.mod_eq_of_lt hv]

theorem curBits_of_curPutBits {v : Nat} {c' : Cursor} (hm : c.buf.wf) (hv : v < 2 ^ fw.w)
    (h : curPutBits fw v c = .ok () c') (he' : c'.eof = false) :
    curBits fw { c' with pos := c.pos, bit := c.bit } = .ok v c' := by
  have hfw := fw.le
  obtain ⟨he, ⟨hw, hl, hc'⟩ | ⟨hw, hl, hp, hc'⟩⟩ := curPutBits_cases h
  all_goals rw [Nat.mod_eq_of_lt hv] at hc'
  · have hfield := Cursor.bitField_putField hm hl hw v
    rw [Cursor.afterField_rewind hc' he', curBits_inside (c := c.withBuf (c.putField fw.w v)) he (by simpa using hl) hw,
      ← hc', Cursor.withBuf_buf, Cursor.withBuf_pos, Cursor.withBuf_bit, hfield, Nat.mod_eq_of_lt hv]
  · obtain ⟨hlow, hhigh⟩ := Cursor.bitField_putFieldAcross hm hl (w := fw.w) (by omega) v
    rw [Cursor.acrossField_rewind hc',
      curBits_across (c := c.withBuf (c.putFieldAcross fw.w v)) he (by simpa using hl) hw hp, ← hc',
      Cursor.withBuf_buf, Cursor.withBuf_pos, Cursor.withBuf_bit, hlow, hhigh, low_add_high hv (by omega)]

end Fields

/-! ### Reads that would end on byte 65535 (R327 (a)) -/

section LastByte

variable {d : DigestTable} {c : Cursor}

/-- A 16-bit read that would end on byte 65535 is out of boundaries. -/
theorem curU16_past_end {k : Nat} (hk : c.pos.toNat + k + 2 = Config.codeMax) (he : c.eof = false) (hb : c.bit = 0) :
    curU16 (c.past k) = .stop (.fail (.outOfBoundaries 65536)) (c.past k) :=
  curU16_eq_stop.2 ⟨Cursor.checkBytes_two_end hk he hb, rfl⟩

theorem readRow_fj_end {mk : Offset → Instr} {off : Offset} (h : At c 1 (encOff off))
    (hend : c.pos.toNat + 3 = Config.codeMax) :
    readRow d (.fj mk) (c.past 1) = .stop (.fail (.outOfBoundaries 65536)) (c.past 1) := by
  rw [readRow, curU16_past_end hend h.eof h.bit, CurOut.bind_stop]

theorem readRow_fl_end {mk : LibId → Offset → Instr} {lib : LibId} {off : Offset}
    (h : At c 1 (lib.bytes ++ encOff off)) (hend : c.pos.toNat + 35 = Config.codeMax) :
    readRow d (.fl mk) (c.past 1) = .stop (.fail (.outOfBoundaries 65536)) (c.past 33) := by
  have h1 := At.curBlock32 h (by simp only [Config.codeMax, Config.posMax] at *; omega)
  have h2 := curU16_past_end (k := 33) hend h.eof h.bit
  simp only [Nat.reduceAdd] at h1
  simp only [readRow, h1, h2, CurOut.bind_ok, CurOut.bind_stop]

theorem readRow_fd_end {alg src : Fin 32} {off : Offset} {b : RBank} {dst : Fin 32} {clr : Bool}
    (h : At c 1 (byteOf (src.val + 32 * bitOf clr) :: selIdx b.code dst :: encOff off))
    (hend : c.pos.toNat + 5 = Config.codeMax) :
    readRow d (.fd alg) (c.past 1) = .stop (.fail (.outOfBoundaries 65536)) (c.past 3) := by
  have h1 := h.curU8
  have h2 := h.next.curU8
  have h3 := curU16_past_end (k := 3) hend h.eof h.bit
  simp only [Nat.reduceAdd] at h1 h2
  simp only [readRow, operandByte, h1, h2, h3, CurOut.bind_ok, CurOut.bind_stop]

/-- An operand byte and then a literal that ends on byte 65535, but for a payload of one byte. -/
theorem byte_slice_end {α : Type} {b : Byte} {lit : Bytes} (f : Byte → Bytes → Cursor → CurOut α)
    (hlen : lit.length < 65536) (h : At c 1 (b :: encLit lit)) (h1 : lit.length ≠ 1)
    (hend : c.pos.toNat + (4 + lit.length) = Config.codeMax) :
    ((operandByte (c.past 1)).bind fun b c => (curSlice c).bind fun lit c => f b lit c) =
      .stop (.fail (.outOfBoundaries 65536)) (c.past 2) := by
  have hb := h.curU8
  have hs := At.curSlice_end (k := 2) (x := []) hlen
    (by rw [List.append_nil]; exact At.tail (x := [b]) h (by simp [encLit, bytes16])) h1 (by omega)
  simp only [Nat.reduceAdd] at hb
  simp only [operandByte, hb, hs, CurOut.bind_ok, CurOut.bind_stop]

theorem readRow_fal_end {mk : ABank → Fin 32 → Bytes → Instr} {b : ABank} {i : Fin 32} {lit : Bytes}
    (hl : litOk b.bytes lit = true) (h : At c 1 (selIdx b.code i :: encLit lit)) (h1 : lit.length ≠ 1)
    (hend : c.pos.toNat + (4 + lit.length) = Config.codeMax) :
    readRow d (.fal mk) (c.past 1) = .stop (.fail (.outOfBoundaries 65536)) (c.past 2) :=
  byte_slice_end _ (litOk_spec hl).1 h h1 hend

theorem readRow_frl_end {mk : RBank → Fin 32 → Bytes → Instr} {b : RBank} {i : Fin 32} {lit : Bytes}
    (hl : litOk (some b.bytes) lit = true) (h : At c 1 (selIdx b.code i :: encLit lit)) (h1 : lit.length ≠ 1)
    (hend : c.pos.toNat + (4 + lit.length) = Config.codeMax) :
    readRow d (.frl mk) (c.past 1) = .stop (.fail (.outOfBoundaries 65536)) (c.past 2) :=
  byte_slice_end _ (litOk_spec hl).1 h h1 hend

theorem readRow_fsl_end {mk : Fin 32 → Bytes → Instr} {i : Fin 32} {lit : Bytes}
    (hl : litOk none lit = true) (h : At c 1 (idxByte i :: encLit lit)) (h1 : lit.length ≠ 1)
    (hend : c.pos.toNat + (4 + lit.length) = Config.codeMax) :
    readRow d (.fsl mk) (c.past 1) = .stop (.fail (.outOfBoundaries 65536)) (c.past 2) :=
  byte_slice_end _ (litOk_spec hl).1 h h1 hend

/-- An instruction whose opcode byte has the row `row`, and whose operand bytes stop that row, stops the decode. -/
theorem decode_stop_of_row {op : Byte} {row : Row} {x : Bytes} {why : Stop} {c' : Cursor}
    (hr : opcodeRow d op = some row) (h : At c 0 (op :: x)) (hx : readRow d row (c.past 1) = .stop why c') :
    decode d c = .stop why c' := by
  have h1 := h.curU8
  simp only [Cursor.past_zero, Nat.reduceAdd] at h1
  simp only [decode, h1, CurOut.bind_ok, hr, hx]

/-- The bytes a buffer holds at an aligned cursor, up to byte 65535. -/
theorem at_of_read {x : Bytes} (hb : c.bit = 0) (he : c.eof = false) (hroom : c.pos.toNat + x.length ≤ Config.codeMax)
    (h : c.buf.read c.pos.toNat x.length = some x) : At c 0 x := by
  obtain ⟨hl, hx⟩ := Memory.read_eq_some.1 h
  exact ⟨hb, he, Nat.le_of_lt_succ c.pos.isLt, hroom, hl, hx.symm⟩

theorem bitField_opByte_dgst : ∀ alg : Fin 32, bitField (opByte 5 alg.val) 5 3 = 5 ∧
    Fin.ofNat 32 (bitField (opByte 5 alg.val) 0 5) = alg := by decide

/-- Every defined `alg` has its opcode byte (R111). -/
theorem opcodeRow_dgst {alg : Fin 32} {b : RBank} (h : d[alg] = some b) :
    opcodeRow d (opByte 5 alg.val) = some (.fd alg) := by
  obtain ⟨hcat, hsub⟩ := bitField_opByte_dgst alg
  simp only [opcodeRow, hcat, hsub, digestRow, h, Option.isSome_some, if_true]

/-- The bytes of an instruction that end on byte 65535 where its last read takes more than that byte, or is a literal's
length: the decode stops at that read. -/
theorem decode_wide_end {i : Instr} (hw : i.wf = true) (hs : i.supported d = true) (hi : endsOnByte i = false)
    (hat : At c 0 (encode i)) (hend : c.pos.toNat + (encode i).length = Config.codeMax) :
    ∃ c', decode d c = .stop (.fail (.outOfBoundaries 65536)) c' := by
  cases i with
  | jmp off => exact ⟨_, decode_stop_of_row rfl hat (readRow_fj_end hat.next hend)⟩
  | jif off => exact ⟨_, decode_stop_of_row rfl hat (readRow_fj_end hat.next hend)⟩
  | routine off => exact ⟨_, decode_stop_of_row rfl hat (readRow_fj_end hat.next hend)⟩
  | call lib off =>
    rw [Laws.EncodedSize.call] at hend
    exact ⟨_, decode_stop_of_row rfl hat (readRow_fl_end (At.tail (x := [_]) hat (by simp [encOff, bytes16])) hend)⟩
  | exec lib off =>
    rw [Laws.EncodedSize.exec] at hend
    exact ⟨_, decode_stop_of_row rfl hat (readRow_fl_end (At.tail (x := [_]) hat (by simp [encOff, bytes16])) hend)⟩
  | dgst alg src off b dst clr =>
    have hrow := opcodeRow_dgst (d := d) (alg := alg) (b := b) (by simpa [Instr.supported] using hs)
    exact ⟨_, decode_stop_of_row hrow hat (readRow_fd_end hat.next hend)⟩
  | puta b i lit =>
    rw [Laws.EncodedSize.puta] at hend
    exact ⟨_, decode_stop_of_row rfl hat (readRow_fal_end hw hat.next (by simpa [endsOnByte] using hi) hend)⟩
  | putr b i lit =>
    rw [Laws.EncodedSize.putr] at hend
    exact ⟨_, decode_stop_of_row rfl hat (readRow_frl_end hw hat.next (by simpa [endsOnByte] using hi) hend)⟩
  | puts i lit =>
    rw [Laws.EncodedSize.puts] at hend
    exact ⟨_, decode_stop_of_row rfl hat (readRow_fsl_end hw hat.next (by simpa [endsOnByte] using hi) hend)⟩
  | _ => cases hi

end LastByte

end Sys2Proof.Machine

/-! ## The statements about the memory and the cursor -/

namespace Sys2Proof.Proofs

open Sys2Proof.Machine

/-- Settles O18: the decode and the instruction keep the byte boundary, and the only abort is that of an access inside
a byte. -/
theorem onlyMisalignmentAborts : Obligations.OnlyMisalignmentAborts := by
  unfold Obligations.OnlyMisalignmentAborts
  refine ⟨fun s t => step_aligned, fun s hr hb he hbuf => ?_⟩
  obtain ⟨m, hm⟩ := Option.isSome_iff_exists.1 hbuf
  exact ⟨_, step_misaligned hr hb he hm, rfl⟩

/-- Settles O8, primitive by primitive: the checks come before the first write and the first move. -/
theorem cursorFailureIsAtomic : Obligations.CursorFailureIsAtomic := by
  unfold Obligations.CursorFailureIsAtomic
  rintro c c' why fw n z v u k x b sg (h | h | h | h | h | h | h | h | h | h | h | h | h | h | h)
  · exact (curBits_stopsAt c fw).cursor why c' h
  · exact curU8_stop h
  · exact curU16_stop h
  · exact (curI16_stopsAt c).cursor why c' h
  · exact curBlock32_stop h
  · exact curSlice_stop h
  · exact (curRegValue_stopsAt c b).cursor why c' h
  · exact (curPutBits_stopsAt c fw n).cursor why c' h
  · exact (curPutBytes_stopsAt c [v]).cursor why c' h
  · exact (curPutBytes_stopsAt c (bytes16 u)).cursor why c' h
  · exact (curPutBytes_stopsAt c (bytes16 (BitVec.ofInt 16 z))).cursor why c' h
  · exact (curPutBytes_stopsAt c k.bytes).cursor why c' h
  · exact (curPutSlice_stopsAt c x).cursor why c' h
  · exact (curPutRegValue_stopsAt c b x sg).cursor why c' h
  · exact (curSeek_stopsAt c u).cursor why c' h

/-- Settles O9: `CurU8()` may take byte 65535 and sets the sentinel there, a wider read may not reach it, and every
primitive looks at the sentinel first, but for the length check of `CurPutRegValue`. -/
theorem sentinelEndsTheBuffer : Obligations.SentinelEndsTheBuffer := by
  unfold Obligations.SentinelEndsTheBuffer
  refine ⟨fun c hb he hp hl => ?_, fun c hb he hp => ?_, fun c fw n z v u k x b sg he => ?_⟩
  · have hp : c.pos.toNat = 65535 := by rw [hp]; rfl
    exact curU8_eq_ok.2 ⟨he, hb, by omega, by rw [hp], (Cursor.advance_sentinel hp).symm⟩
  · have hp : c.pos.toNat + 0 + 2 = Config.codeMax := by rw [hp]; rfl
    have hc := curU16_past_end (k := 0) hp he hb
    rwa [Cursor.past_zero] at hc
  · have hBits : curBits fw c = .stop (.fail .endOfBuffer) c := by simp [curBits, he, failAt]
    have hU8 : curU8 c = .stop (.fail .endOfBuffer) c := curU8_eq_stop.2 ⟨Cursor.checkBytes_eof he 1, rfl⟩
    have hI16 : curI16 c = .stop (.fail .endOfBuffer) c := by rw [curI16, curU16_eof he, CurOut.bind_stop]
    have hBlock : curBlock32 c = .stop (.fail .endOfBuffer) c :=
      curBlock32_eq_stop.2 ⟨Cursor.checkBytes_eof he 32, rfl⟩
    have hPutBits : curPutBits fw n c = .stop (.fail .endOfBuffer) c := by simp [curPutBits, he, failAt]
    have hSeek : curSeek u c = .stop (.fail .endOfBuffer) c := by simp [curSeek, he, failAt]
    exact ⟨hBits, hU8, curU16_eof he, hI16, hBlock, curSlice_eof he, curRegValue_eof he b, hPutBits,
      curPutBytes_eof he _, curPutBytes_eof he _, curPutBytes_eof he _, curPutBytes_eof he _, curPutSlice_eof he x,
      hSeek, fun hx => curPutRegValue_eof he hx sg, fun m hb hx => curPutRegValue_tooLong hb hx sg⟩

/-- Settles O10: each write leaves its value's bytes at the cursor it began at, which is where the read begins. -/
theorem writesReadBack : Obligations.WritesReadBack := by
  unfold Obligations.WritesReadBack
  refine ⟨fun fw v c c' hm hv => curBits_of_curPutBits hm hv, fun u c c' => curU16_of_curPutU16,
    fun z c c' hm hlo hhi h he => ?_, fun k c c' => curBlock32_of_curPutBlock32,
    fun x c c' hm h => ⟨?_, curSlice_of_curPutSlice hm h⟩⟩
  · rw [curI16, curU16_of_curPutU16 hm h he, CurOut.bind_ok, ofInt_signed hlo hhi]
  · obtain ⟨-, -, hp, hp2, -⟩ := curPutSlice_ok h
    simp only [Config.posMax] at hp hp2
    omega

/-- Settles O59, by the formats that end in an `off16` or a literal. -/
theorem wideReadsStopShortOfTheLastByte : Obligations.WideReadsStopShortOfTheLastByte := by
  unfold Obligations.WideReadsStopShortOfTheLastByte
  intro d c i hw hs hb he hi hend hread
  exact decode_wide_end hw hs hi (at_of_read hb he hend.le hread) hend

end Sys2Proof.Proofs

/-! ## Proofs: the encoding (spec/30_encoding.md)

The encoder against the decoder in both directions, format by format and then instruction by instruction; the opcode
bytes without a row; an operand byte read field by field. -/

namespace Sys2Proof.Machine

/-! ### The decoder reads the bytes of an instruction -/

section DecodeEncode

variable {d : DigestTable} {c : Cursor} {i : Instr}

/-- Where a literal after two bytes may end, by the size of its instruction. -/
theorem literal_end {lit : Bytes}
    (h : c.pos.toNat + (4 + lit.length) ≤ Config.posMax ∨ (lit.length == 1) = true) :
    c.pos.toNat + 4 + lit.length ≤ Config.posMax ∨ lit.length = 1 := by
  rwa [Nat.add_assoc, ← beq_iff_eq]

/-- Every legal instruction whose bytes stand at the cursor decodes, by the format of its row (R109, R110). An `off16`
or a literal's length at the end is read as two bytes and stops short of byte 65535 (R327). -/
theorem decode_of_at (hw : i.wf = true) (hs : i.supported d = true) (hat : At c 0 (encode i))
    (hend : c.pos.toNat + (encode i).length ≤ Config.posMax ∨ endsOnByte i = true) :
    decode d c = .ok i (c.past (encode i).length) := by
  cases i with
  | fail | succ | ret => exact decode_of_row rfl hat rfl
  | jmp off | jif off | routine off =>
    have hp := hend.resolve_right Bool.false_ne_true
    exact decode_of_row rfl hat (readRow_fj hat.next hp)
  | call lib off =>
    have hp := hend.resolve_right Bool.false_ne_true
    rw [Laws.EncodedSize.call] at hp ⊢
    exact decode_of_row rfl hat (readRow_fl (At.tail (x := [_]) hat (by simp [encOff, bytes16])) hp)
  | exec lib off =>
    have hp := hend.resolve_right Bool.false_ne_true
    rw [Laws.EncodedSize.exec] at hp ⊢
    exact decode_of_row rfl hat (readRow_fl (At.tail (x := [_]) hat (by simp [encOff, bytes16])) hp)
  | swp r1 r2 f1 f2 | mov r1 r2 f1 f2 => exact decode_of_row rfl hat (readRow_fx (op := 0) hat.next)
  | zeroa b j | cleana b j => exact decode_of_row rfl hat (readRow_fa rfl hat.next)
  | zeror b j | cleanr b j => exact decode_of_row rfl hat (readRow_fr hat.next)
  | zeros j | cleans j => exact decode_of_row rfl hat (readRow_fs hat.next)
  | puta b j lit =>
    rw [Laws.EncodedSize.puta] at hend ⊢
    exact decode_of_row rfl hat (readRow_fal hw hat.next (literal_end hend))
  | putr b j lit =>
    rw [Laws.EncodedSize.putr] at hend ⊢
    exact decode_of_row rfl hat (readRow_frl hw hat.next (literal_end hend))
  | puts j lit =>
    rw [Laws.EncodedSize.puts] at hend ⊢
    exact decode_of_row rfl hat (readRow_fsl hw hat.next (literal_end hend))
  | cmpa b i1 i2 | eqa b i1 i2 | lena b i1 i2 | cnta b i1 i2 => exact decode_of_row rfl hat (readRow_fa2 hat.next)
  | cmpr b i1 i2 | eqr b i1 i2 | lenr b i1 i2 | cntr b i1 i2 => exact decode_of_row rfl hat (readRow_fr2 hat.next)
  | add m b i1 i2 | sub m b i1 i2 | mul m b i1 i2 | div m b i1 i2 | mod m b i1 i2 | abs m b i1 i2 =>
    exact decode_of_row rfl hat (readRow_fm2 hw hat.next)
  | neg m b i1 => exact decode_of_row rfl hat (readRow_fm1 hw hat.next)
  | and b i1 i2 dst | or b i1 i2 dst | xor b i1 i2 dst | shl b i1 i2 dst | shr b i1 i2 dst | scl b i1 i2 dst
  | scr b i1 i2 dst => exact decode_of_row rfl hat (readRow_fb3 hw hat.next)
  | not b i1 => exact decode_of_row rfl hat (readRow_fa (apLegal := false) hw hat.next)
  | dgst alg src off b dst clr =>
    have hd : d[alg] = some b := by simpa [Instr.supported] using hs
    exact decode_of_row (opcodeRow_dgst hd) hat (readRow_fd hd hat.next (hend.resolve_right Bool.false_ne_true))
  | secpgen i1 dst | secpneg i1 dst | edgen i1 dst | edneg i1 dst => exact decode_of_row rfl hat (readRow_fe2 hat.next)
  | secpmul i1 i2 dst | edmul i1 i2 dst => exact decode_of_row rfl hat (readRow_fe3 (op := 0) hat.next)
  | secpadd i1 i2 dst ovf | edadd i1 i2 dst ovf => exact decode_of_row rfl hat (readRow_fe3f (op := 0) hat.next)

end DecodeEncode

/-! ### What decodes is the bytes of an instruction -/

/-- The cursor stood at the bytes of `i`, which is legal under `d`, and `c'` is the cursor after them. -/
structure DecodesLegal (d : DigestTable) (c : Cursor) (i : Instr) (c' : Cursor) : Prop where
  reads : Reads c (encode i) c'
  wf : i.wf = true
  supported : i.supported d = true

/-- After the opcode byte `op`, the row `row` reads the operand bytes of legal instructions with that opcode. -/
structure RowSpells (d : DigestTable) (op : Byte) (row : Row) : Prop where
  decodesLegal : ∀ c c1 i c', Reads c [op] c1 → readRow d row c1 = .ok i c' → DecodesLegal d c i c'

/-- The instruction `i` is legal under `d`, and its bytes are the opcode byte `op` and `x`. -/
structure IsSpelled (d : DigestTable) (op : Byte) (x : Bytes) (i : Instr) : Prop where
  bytes : encode i = op :: x
  wf : i.wf = true
  supported : i.supported d = true

theorem IsSpelled.decodesLegal {d : DigestTable} {op : Byte} {x : Bytes} {i : Instr} {c c1 c' : Cursor}
    (h : IsSpelled d op x i) (h1 : Reads c [op] c1) (hx : Reads c1 x c') : DecodesLegal d c i c' :=
  ⟨h.bytes ▸ h1.trans hx, h.wf, h.supported⟩

/-- The operands begin at offset 1 or later. -/
theorem Reads.one_le_pos {c c1 : Cursor} {op : Byte} (h : Reads c [op] c1) : 1 ≤ c1.pos.toNat := by
  cases he : c1.eof with
  | false => have := (h.pos he).2; simp only [List.length_singleton] at this; omega
  | true =>
    rw [h.after] at he ⊢
    unfold Cursor.past at he ⊢
    split at he
    next hp => rw [if_pos hp]; exact Nat.le_of_ble_eq_true rfl
    next => exact absurd h.eof (by simp [show c.eof = true from he])

section Spells

variable {d : DigestTable} {op : Byte}

/-- A row without operands: the opcode byte is the instruction, on byte 65535 as well. -/
theorem rowSpells_f0 {i : Instr} (h : IsSpelled d op [] i) : RowSpells d op (.f0 i) := ⟨fun _ _ _ _ h1 hr => by
  cases hr
  exact ⟨h.bytes ▸ h1, h.wf, h.supported⟩⟩

theorem rowSpells_fj {mk : Offset → Instr} (h : ∀ off, IsSpelled d op (encOff off) (mk off)) :
    RowSpells d op (.fj mk) := ⟨fun _ _ _ _ h1 hr => by
  obtain ⟨off, rfl, hx⟩ := readRow_fj_reads hr
  exact (h off).decodesLegal h1 hx⟩

theorem rowSpells_fl {mk : LibId → Offset → Instr}
    (h : ∀ lib off, IsSpelled d op (lib.bytes ++ encOff off) (mk lib off)) :
    RowSpells d op (.fl mk) := ⟨fun _ _ _ _ h1 hr => by
  obtain ⟨lib, off, rfl, hx⟩ := readRow_fl_reads hr
  exact (h lib off).decodesLegal h1 hx⟩

theorem rowSpells_fx {mk : RegRef → RegRef → Bool → Bool → Instr}
    (h : ∀ r1 r2 f1 f2, IsSpelled d op (encFX op r1 r2 f1 f2).tail (mk r1 r2 f1 f2)) :
    RowSpells d op (.fx mk) := ⟨fun _ _ _ _ h1 hr => by
  obtain ⟨r1, r2, f1, f2, rfl, hx⟩ := readRow_fx_reads (op := op) hr
  exact (h r1 r2 f1 f2).decodesLegal h1 hx⟩

theorem rowSpells_fa {apLegal : Bool} {mk : ABank → Fin 32 → Instr}
    (h : ∀ b j, (apLegal || b != .ap) = true → IsSpelled d op [selIdx b.code j] (mk b j)) :
    RowSpells d op (.fa apLegal mk) := ⟨fun _ _ _ _ h1 hr => by
  obtain ⟨b, j, rfl, hl, hx⟩ := readRow_fa_reads hr
  exact (h b j hl).decodesLegal h1 hx⟩

theorem rowSpells_fr {mk : RBank → Fin 32 → Instr} (h : ∀ b j, IsSpelled d op [selIdx b.code j] (mk b j)) :
    RowSpells d op (.fr mk) := ⟨fun _ _ _ _ h1 hr => by
  obtain ⟨b, j, rfl, hx⟩ := readRow_fr_reads hr
  exact (h b j).decodesLegal h1 hx⟩

theorem rowSpells_fs {mk : Fin 32 → Instr} (h : ∀ j, IsSpelled d op [idxByte j] (mk j)) :
    RowSpells d op (.fs mk) := ⟨fun _ _ _ _ h1 hr => by
  obtain ⟨j, rfl, hx⟩ := readRow_fs_reads hr
  exact (h j).decodesLegal h1 hx⟩

theorem rowSpells_fal {mk : ABank → Fin 32 → Bytes → Instr}
    (h : ∀ b j lit, litOk b.bytes lit = true → IsSpelled d op (selIdx b.code j :: encLit lit) (mk b j lit)) :
    RowSpells d op (.fal mk) := ⟨fun _ _ _ _ h1 hr => by
  obtain ⟨b, j, lit, rfl, hl, hx⟩ := readRow_fal_reads h1.one_le_pos hr
  exact (h b j lit hl).decodesLegal h1 hx⟩

theorem rowSpells_frl {mk : RBank → Fin 32 → Bytes → Instr}
    (h : ∀ b j lit, litOk (some b.bytes) lit = true → IsSpelled d op (selIdx b.code j :: encLit lit) (mk b j lit)) :
    RowSpells d op (.frl mk) := ⟨fun _ _ _ _ h1 hr => by
  obtain ⟨b, j, lit, rfl, hl, hx⟩ := readRow_frl_reads h1.one_le_pos hr
  exact (h b j lit hl).decodesLegal h1 hx⟩

theorem rowSpells_fsl {mk : Fin 32 → Bytes → Instr}
    (h : ∀ j lit, litOk none lit = true → IsSpelled d op (idxByte j :: encLit lit) (mk j lit)) :
    RowSpells d op (.fsl mk) := ⟨fun _ _ _ _ h1 hr => by
  obtain ⟨j, lit, rfl, hl, hx⟩ := readRow_fsl_reads h1.one_le_pos hr
  exact (h j lit hl).decodesLegal h1 hx⟩

theorem rowSpells_fa2 {mk : ABank → Fin 32 → Fin 32 → Instr}
    (h : ∀ b i1 i2, IsSpelled d op [selIdx b.code i1, idxByte i2] (mk b i1 i2)) :
    RowSpells d op (.fa2 mk) := ⟨fun _ _ _ _ h1 hr => by
  obtain ⟨b, i1, i2, rfl, hx⟩ := readRow_fa2_reads hr
  exact (h b i1 i2).decodesLegal h1 hx⟩

theorem rowSpells_fr2 {mk : RBank → Fin 32 → Fin 32 → Instr}
    (h : ∀ b i1 i2, IsSpelled d op [selIdx b.code i1, idxByte i2] (mk b i1 i2)) :
    RowSpells d op (.fr2 mk) := ⟨fun _ _ _ _ h1 hr => by
  obtain ⟨b, i1, i2, rfl, hx⟩ := readRow_fr2_reads hr
  exact (h b i1 i2).decodesLegal h1 hx⟩

theorem rowSpells_fm2 {mk : Mode → ABank → Fin 32 → Fin 32 → Instr}
    (h : ∀ m b i1 i2, m.agrees b = true → IsSpelled d op [modeByte m, selIdx b.code i1, idxByte i2] (mk m b i1 i2)) :
    RowSpells d op (.fm2 mk) := ⟨fun _ _ _ _ h1 hr => by
  obtain ⟨m, b, i1, i2, rfl, hl, hx⟩ := readRow_fm2_reads hr
  exact (h m b i1 i2 hl).decodesLegal h1 hx⟩

theorem rowSpells_fm1 {mk : Mode → ABank → Fin 32 → Instr}
    (h : ∀ m b i1, m.agrees b = true → IsSpelled d op [modeByte m, selIdx b.code i1] (mk m b i1)) :
    RowSpells d op (.fm1 mk) := ⟨fun _ _ _ _ h1 hr => by
  obtain ⟨m, b, i1, rfl, hl, hx⟩ := readRow_fm1_reads hr
  exact (h m b i1 hl).decodesLegal h1 hx⟩

theorem rowSpells_fb3 {mk : ABank → Fin 32 → Fin 32 → Fin 8 → Instr}
    (h : ∀ b i1 i2 dst, (b != .ap) = true → IsSpelled d op [selIdx b.code i1, idxDest i2 dst] (mk b i1 i2 dst)) :
    RowSpells d op (.fb3 mk) := ⟨fun _ _ _ _ h1 hr => by
  obtain ⟨b, i1, i2, dst, rfl, hl, hx⟩ := readRow_fb3_reads hr
  exact (h b i1 i2 dst hl).decodesLegal h1 hx⟩

/-- A `dgst` is read only with the bank `DIGEST(alg)` fills (R113 (e)). -/
theorem rowSpells_fd (alg : Fin 32) : RowSpells d (opByte 5 alg.val) (.fd alg) := ⟨fun _ _ _ _ h1 hr => by
  obtain ⟨src, off, b, dst, clr, rfl, hd, hx⟩ := readRow_fd_reads hr
  exact IsSpelled.decodesLegal ⟨rfl, rfl, by simp [Instr.supported, hd]⟩ h1 hx⟩

theorem rowSpells_fe2 {mk : Fin 32 → Fin 8 → Instr} (h : ∀ j dst, IsSpelled d op [idxDest j dst] (mk j dst)) :
    RowSpells d op (.fe2 mk) := ⟨fun _ _ _ _ h1 hr => by
  obtain ⟨j, dst, rfl, hx⟩ := readRow_fe2_reads hr
  exact (h j dst).decodesLegal h1 hx⟩

theorem rowSpells_fe3 {mk : Fin 32 → Fin 32 → Fin 8 → Instr}
    (h : ∀ i1 i2 dst, IsSpelled d op (encFE3 op i1 i2 dst false).tail (mk i1 i2 dst)) :
    RowSpells d op (.fe3 mk) := ⟨fun _ _ _ _ h1 hr => by
  obtain ⟨i1, i2, dst, rfl, hx⟩ := readRow_fe3_reads (op := op) hr
  exact (h i1 i2 dst).decodesLegal h1 hx⟩

theorem rowSpells_fe3f {mk : Fin 32 → Fin 32 → Fin 8 → Bool → Instr}
    (h : ∀ i1 i2 dst f, IsSpelled d op (encFE3 op i1 i2 dst f).tail (mk i1 i2 dst f)) :
    RowSpells d op (.fe3f mk) := ⟨fun _ _ _ _ h1 hr => by
  obtain ⟨i1, i2, dst, f, rfl, hx⟩ := readRow_fe3f_reads (op := op) hr
  exact (h i1 i2 dst f).decodesLegal h1 hx⟩

/-! #### The rows of R110, category by category -/

variable {row : Row} {sub : Nat}

theorem controlRow_spells (h : controlRow sub = some row) : RowSpells d (opByte 0 sub) row := by
  unfold controlRow at h
  split at h <;> cases h
  case h_1 | h_2 | h_8 => exact rowSpells_f0 ⟨rfl, rfl, rfl⟩
  case h_3 | h_4 | h_5 => exact rowSpells_fj fun _ => ⟨rfl, rfl, rfl⟩
  case h_6 | h_7 => exact rowSpells_fl fun _ _ => ⟨rfl, rfl, rfl⟩

theorem registerRow_spells (h : registerRow sub = some row) : RowSpells d (opByte 1 sub) row := by
  unfold registerRow at h
  split at h <;> cases h
  case h_1 | h_2 => exact rowSpells_fx fun _ _ _ _ => ⟨rfl, rfl, rfl⟩
  case h_3 | h_6 => exact rowSpells_fa fun _ _ _ => ⟨rfl, rfl, rfl⟩
  case h_4 | h_7 => exact rowSpells_fr fun _ _ => ⟨rfl, rfl, rfl⟩
  case h_5 | h_8 => exact rowSpells_fs fun _ => ⟨rfl, rfl, rfl⟩
  case h_9 => exact rowSpells_fal fun _ _ _ hl => ⟨rfl, hl, rfl⟩
  case h_10 => exact rowSpells_frl fun _ _ _ hl => ⟨rfl, hl, rfl⟩
  case h_11 => exact rowSpells_fsl fun _ _ hl => ⟨rfl, hl, rfl⟩

theorem comparisonRow_spells (h : comparisonRow sub = some row) : RowSpells d (opByte 2 sub) row := by
  unfold comparisonRow at h
  split at h <;> cases h
  case h_1 | h_3 | h_5 | h_7 => exact rowSpells_fa2 fun _ _ _ => ⟨rfl, rfl, rfl⟩
  case h_2 | h_4 | h_6 | h_8 => exact rowSpells_fr2 fun _ _ _ => ⟨rfl, rfl, rfl⟩

theorem arithmeticRow_spells (h : arithmeticRow sub = some row) : RowSpells d (opByte 3 sub) row := by
  unfold arithmeticRow at h
  split at h <;> cases h
  case h_5 => exact rowSpells_fm1 fun _ _ _ hl => ⟨rfl, hl, rfl⟩
  all_goals exact rowSpells_fm2 fun _ _ _ _ hl => ⟨rfl, hl, rfl⟩

theorem bitwiseRow_spells (h : bitwiseRow sub = some row) : RowSpells d (opByte 4 sub) row := by
  unfold bitwiseRow at h
  split at h <;> cases h
  case h_4 => exact rowSpells_fa fun _ _ hl => ⟨rfl, hl, rfl⟩
  all_goals exact rowSpells_fb3 fun _ _ _ _ hl => ⟨rfl, hl, rfl⟩

theorem digestRow_spells {alg : Fin 32} (h : digestRow d alg = some row) : RowSpells d (opByte 5 alg.val) row := by
  unfold digestRow at h
  split at h <;> cases h
  exact rowSpells_fd alg

theorem secpRow_spells (h : secpRow sub = some row) : RowSpells d (opByte 6 sub) row := by
  unfold secpRow at h
  split at h <;> cases h
  case h_1 | h_4 => exact rowSpells_fe2 fun _ _ => ⟨rfl, rfl, rfl⟩
  case h_2 => exact rowSpells_fe3 fun _ _ _ => ⟨rfl, rfl, rfl⟩
  case h_3 => exact rowSpells_fe3f fun _ _ _ _ => ⟨rfl, rfl, rfl⟩

theorem edRow_spells (h : edRow sub = some row) : RowSpells d (opByte 7 sub) row := by
  unfold edRow at h
  split at h <;> cases h
  case h_1 | h_4 => exact rowSpells_fe2 fun _ _ => ⟨rfl, rfl, rfl⟩
  case h_2 => exact rowSpells_fe3 fun _ _ _ => ⟨rfl, rfl, rfl⟩
  case h_3 => exact rowSpells_fe3f fun _ _ _ _ => ⟨rfl, rfl, rfl⟩

/-- The row of every opcode byte spells the instructions that begin with that byte. -/
theorem opcodeRow_spells (h : opcodeRow d op = some row) : RowSpells d op row := by
  have hop := opByte_fields op
  have hcat : bitField op 5 3 < 8 := Nat.mod_lt _ (by decide)
  have hsub : bitField op 0 5 < 32 := Nat.mod_lt _ (by decide)
  unfold opcodeRow at h
  generalize bitField op 0 5 = sub at *
  generalize bitField op 5 3 = cat at *
  subst hop
  interval_cases cat
  · exact controlRow_spells h
  · exact registerRow_spells h
  · exact comparisonRow_spells h
  · exact arithmeticRow_spells h
  · exact bitwiseRow_spells h
  · have hs := digestRow_spells h
    rwa [Fin.val_ofNat, Nat.mod_eq_of_lt hsub] at hs
  · exact secpRow_spells h
  · exact edRow_spells h

end Spells

/-- What decodes is legal, and the bytes read are exactly those of its encoding. -/
theorem decodesLegal_of_decode {d : DigestTable} {c c' : Cursor} {i : Instr} (h : decode d c = .ok i c') :
    DecodesLegal d c i c' := by
  obtain ⟨op, row, c1, h1, hrow, hr⟩ := decode_eq_ok h
  exact (opcodeRow_spells hrow).decodesLegal _ _ _ _ h1 hr

/-! ### Opcode bytes without a row (R111) -/

/-- The bytes R111 reserves: in each category the sub-opcodes past the last row, and every `alg` on which `DIGEST` is
undefined. -/
def Reserved (d : DigestTable) (op : Nat) : Prop :=
  (0x08 ≤ op ∧ op ≤ 0x1F) ∨ (0x2B ≤ op ∧ op ≤ 0x3F) ∨ (0x48 ≤ op ∧ op ≤ 0x5F) ∨ (0x67 ≤ op ∧ op ≤ 0x7F) ∨
    (0x88 ≤ op ∧ op ≤ 0x9F) ∨ (0xC4 ≤ op ∧ op ≤ 0xDF) ∨ (0xE4 ≤ op ∧ op ≤ 0xFF) ∨
    ∃ alg : Fin 32, op = 0xA0 + alg.val ∧ d[alg] = none

/-- The category and the sub-opcode of a byte (R101). -/
theorem opcode_fields {op : Byte} {cat sub : Nat} (h : op.toNat = 32 * cat + sub) (hsub : sub < 32) :
    bitField op 5 3 = cat ∧ bitField op 0 5 = sub := by
  have hop := op.isLt
  simp only [bitField]
  omega

/-- In a category whose rows end before sub-opcode `n`, the bytes from there on have no row. -/
theorem opcodeRow_past_rows {d : DigestTable} {op : Byte} (rows : Nat → Option Row) (cat n : Nat)
    (hrows : bitField op 5 3 = cat → opcodeRow d op = rows (bitField op 0 5)) (hend : ∀ k, rows (k + n) = none)
    (h : 32 * cat + n ≤ op.toNat ∧ op.toNat ≤ 32 * cat + 31) : opcodeRow d op = none := by
  obtain ⟨k, hk⟩ := Nat.exists_eq_add_of_le' h.1
  obtain ⟨hcat, hsub⟩ := opcode_fields (op := op) (cat := cat) (sub := k + n) (by omega) (by omega)
  rw [hrows hcat, hsub, hend]

/-- A byte whose `alg` has no digest has no row (R111). -/
theorem opcodeRow_no_digest {d : DigestTable} {op : Byte} {alg : Fin 32} (h : op.toNat = 0xA0 + alg.val)
    (hd : d[alg] = none) : opcodeRow d op = none := by
  obtain ⟨hcat, hsub⟩ := opcode_fields (op := op) (cat := 5) h alg.isLt
  simp [opcodeRow, hcat, hsub, digestRow, hd]

/-- Every byte R111 reserves is without a row, category by category. -/
theorem opcodeRow_eq_none {d : DigestTable} {op : Byte} (h : Reserved d op.toNat) : opcodeRow d op = none := by
  obtain h | h | h | h | h | h | h | ⟨alg, h, hd⟩ := h
  · exact opcodeRow_past_rows controlRow 0 8 (fun hcat => by simp only [opcodeRow, hcat]) (fun _ => rfl) h
  · exact opcodeRow_past_rows registerRow 1 11 (fun hcat => by simp only [opcodeRow, hcat]) (fun _ => rfl) h
  · exact opcodeRow_past_rows comparisonRow 2 8 (fun hcat => by simp only [opcodeRow, hcat]) (fun _ => rfl) h
  · exact opcodeRow_past_rows arithmeticRow 3 7 (fun hcat => by simp only [opcodeRow, hcat]) (fun _ => rfl) h
  · exact opcodeRow_past_rows bitwiseRow 4 8 (fun hcat => by simp only [opcodeRow, hcat]) (fun _ => rfl) h
  · exact opcodeRow_past_rows secpRow 6 4 (fun hcat => by simp only [opcodeRow, hcat]) (fun _ => rfl) h
  · exact opcodeRow_past_rows edRow 7 4 (fun hcat => by simp only [opcodeRow, hcat]) (fun _ => rfl) h
  · exact opcodeRow_no_digest h hd

/-- A byte without a row stops the decode past that byte alone (R102 stage 2, R111). -/
theorem decode_of_no_row {d : DigestTable} {c : Cursor} (he : c.eof = false) (hb : c.bit = 0)
    (hl : c.pos.toNat < c.buf.len) (hrow : opcodeRow d (c.buf.byte c.pos.toNat) = none) :
    decode d c = .stop (.fail .unknownOpcode) (c.advance 1) := by
  have h1 : curU8 c = .ok (c.buf.byte c.pos.toNat) (c.advance 1) := curU8_eq_ok.2 ⟨he, hb, hl, rfl, rfl⟩
  rw [decode, h1, CurOut.bind_ok, hrow]
  rfl

/-- A stopped decode ends a running engine's step in the state the stop leads to (R276). -/
theorem step_of_decode_stop {s : State} {m : Memory} {why : Stop} {c : Cursor} (hr : s.run = .running)
    (hm : s.buffer s.curlib = some m) (h : decode s.digest (s.cursorOn m) = .stop why c) :
    step s = .next ((s.fetched c).stopWith why) := by
  simp only [step, hr, fetch_eq_ended.2 ⟨m, _, _, hm, h, rfl⟩]

/-! ### An operand byte read field by field (R109) -/

/-- Under the sentinel, or past the buffer's end, a field fails as `CurU8()` does. -/
theorem curBits_stop_of_checkBytes {c : Cursor} {fw : FieldWidth} {why : Stop} (hb : c.bit = 0)
    (h : c.checkBytes 1 = some why) : curBits fw c = .stop why c := by
  cases he : c.eof with
  | true =>
    rw [Cursor.checkBytes_eof he] at h
    cases h
    simp [curBits, he, failAt]
  | false =>
    have hl : c.buf.len ≤ c.pos.toNat := by
      by_contra hn
      rw [(Cursor.checkBytes_eq_none le_rfl).2 ⟨he, hb, by omega, by omega⟩] at h
      cases h
    obtain rfl : .fail .endOfBuffer = why := by
      simpa [Cursor.checkBytes, he, hb, show c.buf.len < c.pos.toNat + 1 by omega] using h
    simp [curBits, he, hl, failAt]

/-- No field is empty. -/
theorem eq_nil_of_widths_sum_eq_zero {ws : List FieldWidth} (h : (ws.map FieldWidth.w).sum = 0) : ws = [] := by
  cases ws with
  | nil => rfl
  | cons fw rest => have := fw.pos; simp at h; omega

/-- The fields that fill the cursor's byte from its bit offset upward are cut out of that byte, and the cursor moves
past it. -/
theorem readFields_in_byte (ws : List FieldWidth) {c : Cursor} (he : c.eof = false) (hl : c.pos.toNat < c.buf.len)
    (h : c.bit.toNat + (ws.map FieldWidth.w).sum = 8) :
    readFields ws c =
      .ok (sliceFields (c.buf.byte c.pos.toNat) ws c.bit.toNat) ({ c with bit := 0 }.advance 1) := by
  induction ws generalizing c with
  | nil =>
    have := c.bit.isLt
    simp at h
    omega
  | cons fw rest ih =>
    rw [List.map_cons, List.sum_cons, ← Nat.add_assoc] at h
    rw [readFields, curBits_inside he hl (by omega), CurOut.bind_ok, sliceFields]
    by_cases h8 : c.bit.toNat + fw.w = 8
    · obtain rfl := eq_nil_of_widths_sum_eq_zero (ws := rest) (by omega)
      rw [Cursor.afterField, if_pos h8]
      rfl
    · have hbit : (BitVec.ofNat 3 (c.bit.toNat + fw.w)).toNat = c.bit.toNat + fw.w := by
        rw [BitVec.toNat_ofNat]; omega
      have hrest := ih (c := { c with bit := BitVec.ofNat 3 (c.bit.toNat + fw.w) }) he hl (by rw [hbit]; exact h)
      rw [hbit] at hrest
      rw [Cursor.afterField, if_neg h8, hrest]
      rfl

end Sys2Proof.Machine

/-! ## The statements about the encoding -/

namespace Sys2Proof.Proofs

open Sys2Proof.Machine

/-- Settles O1: the bytes stand at the cursor, and each format reads what the encoder writes for it. -/
theorem decodeInvertsEncode : Obligations.DecodeInvertsEncode := by
  unfold Obligations.DecodeInvertsEncode
  intro d c i hw hs hb he hend hread
  have hroom : c.pos.toNat + (encode i).length ≤ Config.codeMax := by
    simp only [Config.codeMax, Config.posMax] at *; omega
  exact decode_of_at hw hs (at_of_read hb he hroom hread) (hend.imp_right And.left)

/-- Settles O2: every row reads exactly the bytes that the encoder writes for its instructions. -/
theorem decodedBytesAreTheEncoding : Obligations.DecodedBytesAreTheEncoding := by
  unfold Obligations.DecodedBytesAreTheEncoding
  intro d c c' i h
  have hr := (decodesLegal_of_decode h).reads
  exact Memory.read_eq_some.2 ⟨hr.inside, hr.bytes.symm⟩

/-- Settles O3: every row's legality checks are those of `wf` and `supported`, and its reads end where the bytes do. -/
theorem decodedInstructionsAreLegal : Obligations.DecodedInstructionsAreLegal := by
  unfold Obligations.DecodedInstructionsAreLegal
  intro d c c' i h
  have hd := decodesLegal_of_decode h
  exact ⟨hd.wf, hd.supported, hd.reads.after⟩

/-- Settles O4: the decode stops past the opcode byte, and the stop raises. -/
theorem reservedOpcodesAreUnknown : Obligations.ReservedOpcodesAreUnknown := by
  unfold Obligations.ReservedOpcodesAreUnknown
  rintro s m op hr hb he hm hl rfl hop
  have hdec := decode_of_no_row (d := s.digest) (c := s.cursorOn m) he hb hl (opcodeRow_eq_none hop)
  exact ⟨_, step_of_decode_stop hr hm hdec, raises_raise ..⟩

/-- Settles O7: an operand byte stops its first field as it stops `CurU8()`, and otherwise holds every field. -/
theorem operandBytesAreBitFields : Obligations.OperandBytesAreBitFields := by
  unfold Obligations.OperandBytesAreBitFields
  intro ws c hsum hb
  cases hu : curU8 c with
  | ok b c' =>
    obtain ⟨he, -, hl, rfl, rfl⟩ := curU8_eq_ok.1 hu
    have hrb := readFields_in_byte ws he hl (by rw [hb, hsum]; rfl)
    have hc : { c with bit := 0 } = c := by rw [← hb]
    rw [hrb, hc, hb]
    rfl
  | stop why c' =>
    obtain ⟨hs, rfl⟩ := curU8_eq_stop.1 hu
    cases ws with
    | nil => cases hsum
    | cons fw rest => rw [readFields, curBits_stop_of_checkBytes hb hs]; rfl

/-- Settles O6, by evaluating the decoder on the six words. -/
theorem knownWordsDecode : Obligations.KnownWordsDecode := by
  unfold Obligations.KnownWordsDecode
  decide

end Sys2Proof.Proofs

/-! ## Proofs: control flow (spec/40_control_flow.md)

When each check of a transfer passes and what it raises otherwise, where a `Goto` that passed its check leads, and one
equation per transfer; from these the statements about the control-flow instructions. -/

namespace Sys2Proof.Machine

/-! ### An instruction's checks in order -/

section Checks

variable {e : EngineError} {s s' : State} {check : Option EngineError} {rest : List (Option EngineError)}

theorem raised_raises (e : EngineError) (s : State) : ∃ t, raised e s = .next t ∧ Raises e s t :=
  ⟨_, rfl, raises_raise s e⟩

/-- The first check that fails decides which error is raised, whatever the later ones say (R141). -/
theorem afterChecks_raises (h : check = some e) : ∃ t, afterChecks (check :: rest) s s' = .next t ∧ Raises e s t := by
  subst h
  exact raised_raises e s

/-- A check that passes hands over to the next one. -/
theorem afterChecks_raises_later (h : check = none) (hr : ∃ t, afterChecks rest s s' = .next t ∧ Raises e s t) :
    ∃ t, afterChecks (check :: rest) s s' = .next t ∧ Raises e s t := by
  subst h
  exact hr

end Checks

/-! ### The checks of R141 -/

section Goto

variable {s : State} {l : Option LibId}

theorem countCheck_pass (h : s.cy0 ≠ 65535) : s.countCheck = none :=
  if_neg fun hcy => h (BitVec.eq_of_toNat_eq hcy)

theorem countCheck_exhausted (h : s.cy0 = 65535) : s.countCheck = some .counterExhausted :=
  if_pos (congrArg BitVec.toNat h)

theorem stackCheck_pass (h : s.cp0 < Config.stackCap) : s.stackCheck = none := if_neg (Nat.not_le.2 h)

theorem stackCheck_full (h : Config.stackCap ≤ s.cp0) : s.stackCheck = some .callStackOverflow := if_pos h

/-- `Goto` passes for a seek with the sentinel clear and for another library that has a buffer. -/
theorem gotoCheck_eq_none : s.gotoCheck l = none ↔
    (l = s.curlib ∧ s.eof = false) ∨ (l ≠ s.curlib ∧ (s.buffer l).isSome = true) := by
  unfold State.gotoCheck
  by_cases hl : l = s.curlib
  · simp [hl]
  · simp [hl, Option.isSome_iff_ne_none]

theorem gotoCheck_seek (he : s.eof = false) : s.gotoCheck s.curlib = none := gotoCheck_eq_none.2 (.inl ⟨rfl, he⟩)

theorem gotoCheck_sentinel (hl : l = s.curlib) (he : s.eof = true) : s.gotoCheck l = some .endOfBuffer := by
  simp [State.gotoCheck, hl, he]

theorem gotoCheck_unresolved (hl : l ≠ s.curlib) (hb : s.buffer l = none) :
    s.gotoCheck l = some (.libraryUnresolved l) := by
  simp [State.gotoCheck, hl, hb]

/-- With the sentinel clear, a buffer is all that `Goto` needs. -/
theorem gotoCheck_of_buffer (he : s.eof = false) (hb : (s.buffer l).isSome = true) : s.gotoCheck l = none :=
  gotoCheck_eq_none.2 ((eq_or_ne l s.curlib).imp (⟨·, he⟩) (⟨·, hb⟩))

/-! ### Where a `Goto` leads -/

/-- A seek in the current library leaves the sentinel as it is. -/
theorem goto_curlib (s : State) (o : Offset) : s.goto s.curlib o = { s with pos := o, bit := 0 } := by
  simp [State.goto]

/-- A `Goto` that passed its check leads to the library with the sentinel clear, by a seek or over a fresh cursor. -/
theorem goto_of_check (g : s.gotoCheck l = none) (o : Offset) :
    s.goto l o = { s with curlib := l, pos := o, bit := 0, eof := false } := by
  have hseek : l = s.curlib → s.eof = false := fun hl =>
    (gotoCheck_eq_none.1 g).elim And.right fun hne => absurd hl hne.1
  simpa [State.goto] using hseek

end Goto

/-! ### The transfers, one equation each (R144 to R149) -/

theorem exec_jmp (off : Offset) (s : State) : exec (.jmp off) s =
    afterChecks [s.countCheck, s.gotoCheck s.curlib] s (s.countTransfer.goto s.curlib off) := rfl

theorem exec_jif_taken {s : State} (h : s.st0 = true) (off : Offset) : exec (.jif off) s = exec (.jmp off) s := if_pos h

theorem exec_jif_not_taken {s : State} (h : s.st0 = false) (off : Offset) : exec (.jif off) s = .next s :=
  if_neg (Bool.eq_false_iff.1 h)

theorem exec_routine (off : Offset) (s : State) : exec (.routine off) s =
    afterChecks [s.countCheck, s.stackCheck, s.gotoCheck s.curlib] s (s.pushReturn.countTransfer.goto s.curlib off) := rfl

theorem exec_call (lib : LibId) (off : Offset) (s : State) : exec (.call lib off) s =
    afterChecks [s.countCheck, s.stackCheck, s.gotoCheck (some lib)] s
      (s.pushReturn.countTransfer.deepen.goto (some lib) off) := rfl

theorem exec_exec (lib : LibId) (off : Offset) (s : State) : exec (.exec lib off) s =
    afterChecks [s.gotoCheck (some lib)] s (s.goto (some lib) off) := rfl

theorem exec_ret_empty {s : State} (h : s.cs0 = []) : exec .ret s = raised .callStackUnderflow s := by
  simp only [exec, execRet, h]

theorem exec_ret_top {s : State} {e : StackEntry} {rest : List StackEntry} (h : s.cs0 = e :: rest) :
    exec .ret s = afterChecks [s.gotoCheck e.lib] s (State.goto { s with cs0 := rest } e.lib e.off) := by
  simp only [exec, execRet, h]

/-- A `ret` whose check passes resumes at the top entry and pops it (R149). -/
theorem exec_ret_pass {s : State} {e : StackEntry} {rest : List StackEntry} (h : s.cs0 = e :: rest)
    (g : s.gotoCheck e.lib = none) :
    exec .ret s = .next { s with cs0 := rest, curlib := e.lib, pos := e.off, bit := 0, eof := false } := by
  rw [exec_ret_top h, afterChecks_pass _ _ (by simpa using g), goto_of_check (s := { s with cs0 := rest }) g]

/-! ### Subroutines -/

/-- A `routine` or `call` that did not raise left the caller's library and `npc` on top of the stack (R146, R147). -/
theorem exec_pushes_return {i : Instr} {s t : State} (hi : (∃ off, i = .routine off) ∨ ∃ lib off, i = .call lib off)
    (h : exec i s = .next t) (hr : t.run = .running) : t.cs0 = ⟨s.curlib, s.pos⟩ :: s.cs0 := by
  obtain ⟨off, rfl⟩ | ⟨lib, off, rfl⟩ := hi
  · cases transfer_cases rfl h with
    | raised _ e => cases hr
    | routine => rfl
  · cases transfer_cases rfl h with
    | raised _ e => cases hr
    | call => rfl

/-- The buffers are computed from three of the launch parameters (assumption 5). -/
theorem State.buffer_congr {s t : State} (hcode : t.code = s.code) (hlaunch : t.launchLib = s.launchLib)
    (hlibs : t.libs = s.libs) (l : Option LibId) : t.buffer l = s.buffer l := by
  simp only [State.buffer, hcode, hlaunch, hlibs]

end Sys2Proof.Machine

/-! ## The statements about control flow -/

namespace Sys2Proof.Proofs

open Sys2Proof.Machine

/-- Settles O37: the call leaves the caller's place on top of the stack, the invariant gives that place a buffer, and
the buffers are still there when `ret` finds the entry. -/
theorem returnsGoBackToTheCaller : Obligations.ReturnsGoBackToTheCaller := by
  unfold Obligations.ReturnsGoBackToTheCaller
  intro i s t u hi hinv _ h hrun hcs hcode hlaunch hlibs heof
  have htop : u.cs0 = ⟨s.curlib, s.pos⟩ :: s.cs0 := hcs.trans (exec_pushes_return hi h hrun)
  have hbuf : (u.buffer s.curlib).isSome = true := by
    rw [State.buffer_congr hcode hlaunch hlibs, (exec_launchKept h).buffer]
    exact hinv.current
  exact ⟨_, exec_ret_pass htop (gotoCheck_of_buffer heof hbuf), rfl, rfl, rfl, rfl, rfl⟩

/-- Settles O30: both arms are the `halt` of their own flag. -/
theorem failAndSuccHalt : Obligations.FailAndSuccHalt := by
  unfold Obligations.FailAndSuccHalt
  exact fun s => ⟨rfl, rfl⟩

/-- Settles O31, check by check. -/
theorem jmpCountsAndTransfers : Obligations.JmpCountsAndTransfers := by
  unfold Obligations.JmpCountsAndTransfers
  intro off s
  rw [exec_jmp]
  refine ⟨fun he hcy => ?_, fun hcy => ?_, fun hcy he => ?_⟩
  · rw [afterChecks_pass _ _ (by simp [countCheck_pass hcy, gotoCheck_seek he])]
    exact congrArg _ (goto_curlib s.countTransfer off)
  · exact afterChecks_raises (countCheck_exhausted hcy)
  · exact afterChecks_raises_later (countCheck_pass hcy) (afterChecks_raises (gotoCheck_sentinel rfl he))

/-- Settles O32: a `jif` taken is a `jmp`. -/
theorem jifFollowsTheStatusFlag : Obligations.JifFollowsTheStatusFlag := by
  unfold Obligations.JifFollowsTheStatusFlag
  intro off s
  obtain ⟨hmoves, hexhausted, hsentinel⟩ := jmpCountsAndTransfers off s
  refine ⟨fun hf => exec_jif_not_taken hf off, fun ht => ?_, fun ht => ?_, fun ht => ?_⟩ <;> rw [exec_jif_taken ht]
  · exact hmoves
  · exact hexhausted
  · exact hsentinel

/-- Settles O33, check by check. -/
theorem routinePushesAndTransfers : Obligations.RoutinePushesAndTransfers := by
  unfold Obligations.RoutinePushesAndTransfers
  intro off s
  rw [exec_routine]
  refine ⟨fun he hcy hcp => ?_, fun hcy => ?_, fun hcy hcp => ?_, fun hcy hcp he => ?_⟩
  · rw [afterChecks_pass _ _ (by simp [countCheck_pass hcy, stackCheck_pass hcp, gotoCheck_seek he])]
    exact congrArg _ (goto_curlib s.pushReturn.countTransfer off)
  · exact afterChecks_raises (countCheck_exhausted hcy)
  · exact afterChecks_raises_later (countCheck_pass hcy) (afterChecks_raises (stackCheck_full hcp))
  · exact afterChecks_raises_later (countCheck_pass hcy)
      (afterChecks_raises_later (stackCheck_pass hcp) (afterChecks_raises (gotoCheck_sentinel rfl he)))

/-- Settles O34, check by check. -/
theorem callPushesAndEntersTheLibrary : Obligations.CallPushesAndEntersTheLibrary := by
  unfold Obligations.CallPushesAndEntersTheLibrary
  intro lib off s
  rw [exec_call, eq_comm (a := s.curlib), ne_comm (a := s.curlib), ← gotoCheck_eq_none]
  refine ⟨fun hcy hcp g => ?_, fun hcy => ?_, fun hcy hcp => ?_, fun hcy hcp hl hb => ?_, fun hcy hcp hl he => ?_⟩
  · rw [afterChecks_pass _ _ (by simp [countCheck_pass hcy, stackCheck_pass hcp, g])]
    exact congrArg _ (goto_of_check (s := s.pushReturn.countTransfer.deepen) g off)
  · exact afterChecks_raises (countCheck_exhausted hcy)
  · exact afterChecks_raises_later (countCheck_pass hcy) (afterChecks_raises (stackCheck_full hcp))
  · exact afterChecks_raises_later (countCheck_pass hcy)
      (afterChecks_raises_later (stackCheck_pass hcp) (afterChecks_raises (gotoCheck_unresolved hl hb)))
  · exact afterChecks_raises_later (countCheck_pass hcy)
      (afterChecks_raises_later (stackCheck_pass hcp) (afterChecks_raises (gotoCheck_sentinel hl he)))

/-- Settles O35: the check inside `Goto` is the only one. -/
theorem execTransfersUncounted : Obligations.ExecTransfersUncounted := by
  unfold Obligations.ExecTransfersUncounted
  intro lib off s
  rw [exec_exec, eq_comm (a := s.curlib), ne_comm (a := s.curlib), ← gotoCheck_eq_none]
  refine ⟨fun g => ?_, fun hl hb => ?_, fun hl he => ?_⟩
  · rw [afterChecks_pass _ _ (by simpa using g), goto_of_check g]
  · exact afterChecks_raises (gotoCheck_unresolved hl hb)
  · exact afterChecks_raises (gotoCheck_sentinel hl he)

/-- Settles O36, by the stack and then by the check inside `Goto`. -/
theorem retPopsAndResumes : Obligations.RetPopsAndResumes := by
  unfold Obligations.RetPopsAndResumes
  intro s e rest
  refine ⟨fun hcs hg => exec_ret_pass hcs (gotoCheck_eq_none.2 hg), fun hcs => ?_, fun hcs hl he => ?_,
    fun hcs hl hb => ?_⟩
  · rw [exec_ret_empty hcs]
    exact raised_raises ..
  · rw [exec_ret_top hcs]
    exact afterChecks_raises (gotoCheck_sentinel hl he)
  · rw [exec_ret_top hcs]
    exact afterChecks_raises (gotoCheck_unresolved hl hb)

end Sys2Proof.Proofs

/-! ## Proofs: register manipulation (spec/41_register_ops.md)

What cutting and extending do to the two readings of a byte string, `Reshape` and the literals case by case, and one
equation per outcome of `swp`, `mov` and the `put` family; from these the statements about the register-manipulation
instructions. -/

namespace Sys2Proof.Machine

/-! ### Byte strings cut and extended (spec/00_scope.md R11) -/

@[simp] theorem extend_self (x : Bytes) (f : Bool) : extend x x.length f = x := by simp [extend]

theorem take_extend (x : Bytes) (m : Nat) (f : Bool) : (extend x m f).take x.length = x := List.take_left

/-- A byte string of value 0 holds only zero bytes. -/
theorem all_zero_iff (x : Bytes) : x.all (· == 0) = true ↔ uval x = 0 := by
  induction x with
  | nil => simp
  | cons b rest ih =>
    have hb : b = 0 ↔ b.toNat = 0 := BitVec.toNat_inj.symm
    simp only [List.all_cons, Bool.and_eq_true, beq_iff_eq, ih, uval_cons, hb]
    omega

theorem uval_drop (x : Bytes) (m : Nat) : uval (x.drop m) = uval x / 256 ^ m := by
  induction x generalizing m with
  | nil => simp
  | cons b rest ih =>
    cases m with
    | zero => simp
    | succ m =>
      have hb := b.isLt
      have htail : (b.toNat + 256 * uval rest) / 256 = uval rest := by omega
      rw [List.drop_succ_cons, ih, uval_cons, Nat.pow_succ', ← Nat.div_div_eq_div_mul, htail]

/-- The bytes beyond the first `m` are all 0 exactly when the value fits in `m` bytes. -/
theorem drop_all_zero_iff (x : Bytes) (m : Nat) : (x.drop m).all (· == 0) = true ↔ uval x < 256 ^ m := by
  rw [all_zero_iff, uval_drop, Nat.div_eq_zero_iff]
  simp

/-- Sign extension of a negative value adds the bytes of 255 on top. -/
theorem uval_extend_true {x : Bytes} {m : Nat} (h : x.length ≤ m) (ht : topBit x = true) :
    uval (extend x m true) + 256 ^ x.length = uval x + 256 ^ m := by
  have hff := uval_replicate_ff (m - x.length)
  calc uval (extend x m true) + 256 ^ x.length
      = uval x + 256 ^ x.length * (uval (List.replicate (m - x.length) 255) + 1) := by
        simp only [extend, ht, Bool.and_self, if_true, uval_append]; ring
    _ = uval x + 256 ^ m := by rw [hff, ← pow_add, Nat.add_sub_cancel' h]

/-- Sign extension of a nonnegative value is zero extension. -/
theorem extend_true_of_not_topBit {x : Bytes} (m : Nat) (ht : topBit x = false) :
    extend x m true = extend x m false := by simp [extend, ht]

/-- Sign extension keeps the signed value. -/
theorem sval_extend_true {x : Bytes} {m : Nat} (h : x.length ≤ m) : sval (extend x m true) = sval x := by
  have hpow : 256 ^ x.length ≤ 256 ^ m := Nat.pow_le_pow_right (by decide) h
  have htop := topBit_iff x
  rw [sval_eq, sval_eq, extend_length h]
  cases ht : topBit x with
  | true =>
    have hx := htop.1 ht
    have hu := uval_extend_true h ht
    rw [if_pos hx, if_pos (by omega)]
    zify at hu
    omega
  | false =>
    have hx : ¬ 256 ^ x.length ≤ 2 * uval x := fun hc => by simp [htop.2 hc] at ht
    rw [extend_true_of_not_topBit m ht, uval_extend_false, if_neg hx, if_neg (by omega)]

/-! ### `Reshape` case by case (R161) -/

section Reshape

variable {x : Bytes} {m : Nat}

theorem reshape_var (x : Bytes) (f : Bool) : reshape x none f = some x := rfl

theorem reshape_widen (h : x.length ≤ m) (f : Bool) : reshape x (some m) f = some (extend x m f) := if_pos h

theorem reshape_same_length (h : x.length = m) (f : Bool) : reshape x (some m) f = some x := by
  subst h
  rw [reshape_widen le_rfl, extend_self]

theorem reshape_truncate (h : m < x.length) : reshape x (some m) true = some (x.take m) := by
  simp [reshape, Nat.not_le.2 h]

theorem reshape_lossless (h : m < x.length) (hv : uval x < 256 ^ m) : reshape x (some m) false = some (x.take m) := by
  rw [reshape, if_neg (Nat.not_le.2 h), if_pos]
  rw [(drop_all_zero_iff x m).2 hv, Bool.or_true]

theorem reshape_lossy (h : m < x.length) (hv : 256 ^ m ≤ uval x) : reshape x (some m) false = none := by
  rw [reshape, if_neg (Nat.not_le.2 h), if_neg]
  rw [Bool.false_or, drop_all_zero_iff]
  exact Nat.not_lt.2 hv

/-- A value of a bank goes to a slot of its own bank as it is. -/
theorem reshape_own_bank {b : Bank} (h : b.fits x = true) (f : Bool) : reshape x b.bytes f = some x := by
  cases hb : b.bytes with
  | none => exact reshape_var x f
  | some n => exact reshape_same_length (by simpa [Bank.fits, hb] using h) f

end Reshape

/-! ### Zero values and literals (R164 to R166, R168) -/

theorem zeroValue_length {b : Bank} {n : Nat} (h : b.bytes = some n) : (zeroValue b).length = n := by
  simp [zeroValue, h]

theorem zeroValue_var {b : Bank} (h : b.bytes = none) : zeroValue b = [] := by simp [zeroValue, h]

theorem uval_zeroValue (b : Bank) : uval (zeroValue b) = 0 := by
  cases hb : b.bytes with
  | none => rw [zeroValue_var hb, uval_nil]
  | some n => simp [zeroValue, hb]

/-- A literal that is legal for a bank is written as a value of that bank. -/
theorem literalValue_fits {b : Bank} {lit : Bytes} (h : litOk b.bytes lit = true) :
    b.fits (literalValue b.bytes lit) = true := by
  cases hb : b.bytes <;> simp only [litOk, hb, Bool.and_eq_true, decide_eq_true_eq] at h
  case none => exact Bank.fits_of_var hb (h.1.trans (by decide))
  case some n => exact Bank.fits_of_length hb (extend_length h.2 false)

theorem writeLiteral_of_litOk {b : Bank} {lit : Bytes} (h : litOk b.bytes lit = true) (i : Fin 32) (s : State) :
    writeLiteral b i lit s = .next (s.setSlot b i (some (literalValue b.bytes lit))) :=
  if_pos (literalValue_fits h)

/-! ### Slots written twice, and with what they held -/

theorem slot_setSlot_of_ne (s : State) {r r' : RegRef} (h : r ≠ r') (v : Slot) :
    (s.setSlot r.bank r.idx v).slot r'.bank r'.idx = s.slot r'.bank r'.idx := by
  rw [State.slot_setSlot, if_neg]
  exact fun ⟨hb, hi⟩ => h (by cases r; cases r'; cases hb; cases hi; rfl)

/-- To write a slot what it holds changes nothing. -/
theorem onlySlots_setSlot_held {s : State} {b : Bank} {i : Fin 32} {v : Slot} (h : s.slot b i = v) :
    OnlySlots [] s (s.setSlot b i v) := by
  obtain ⟨-, hrest⟩ := onlySlots_setSlot s b i v
  refine ⟨fun b' i' _ => ?_, hrest⟩
  rw [State.slot_setSlot]
  split
  next he => obtain ⟨rfl, rfl⟩ := he; exact h.symm
  · rfl

/-! ### `swp` outcome by outcome (R162) -/

section Swp

variable {r1 r2 : RegRef} {x1 x2 : Bool} {s : State} {v1 v2 y1 y2 : Bytes}

theorem exec_swp_reshaped (h1 : s.slot r1.bank r1.idx = some v1) (h2 : s.slot r2.bank r2.idx = some v2)
    (hy2 : reshape v1 r2.bank.bytes x1 = some y2) (hy1 : reshape v2 r1.bank.bytes x2 = some y1) :
    exec (.swp r1 r2 x1 x2) s =
      .next ((s.setSlot r1.bank r1.idx (some y1)).setSlot r2.bank r2.idx (some y2)) := by
  simp only [exec, execSwp, withSlots_set h1 h2, hy1, hy2]

theorem exec_swp_failed (h1 : s.slot r1.bank r1.idx = some v1) (h2 : s.slot r2.bank r2.idx = some v2)
    (h : reshape v1 r2.bank.bytes x1 = none ∨ reshape v2 r1.bank.bytes x2 = none) :
    exec (.swp r1 r2 x1 x2) s = .next s.operandFail := by
  simp only [exec, execSwp, withSlots_set h1 h2]
  split
  next hy2 hy1 => simp [hy1, hy2] at h
  · rfl

end Swp

/-! ### `mov` outcome by outcome (R163) -/

section Mov

variable {src dst : RegRef} {x dup : Bool} {s : State} {v y : Bytes}

theorem exec_mov_kept (hv : s.slot src.bank src.idx = some v) (hy : reshape v dst.bank.bytes x = some y)
    (h : dup = true ∨ src = dst) : exec (.mov src dst x dup) s = .next (s.setSlot dst.bank dst.idx (some y)) := by
  simp only [exec, execMov, withSlot_set hv, hy]
  rw [if_neg]
  obtain rfl | rfl := h <;> simp

theorem exec_mov_moved (hv : s.slot src.bank src.idx = some v) (hy : reshape v dst.bank.bytes x = some y)
    (h : src ≠ dst) : exec (.mov src dst x false) s =
      .next ((s.setSlot dst.bank dst.idx (some y)).setSlot src.bank src.idx none) := by
  simp only [exec, execMov, withSlot_set hv, hy]
  rw [if_pos]
  simpa using h

theorem exec_mov_failed (hv : s.slot src.bank src.idx = some v) (hy : reshape v dst.bank.bytes x = none) :
    exec (.mov src dst x dup) s = .next s.operandFail := by
  simp only [exec, execMov, withSlot_set hv, hy, operandFailed]

end Mov

end Sys2Proof.Machine

/-! ## The statements about register manipulation -/

namespace Sys2Proof.Proofs

open Sys2Proof.Machine

/-- Settles O38, case by case of the lengths, with the value each case keeps. -/
theorem reshapeContract : Obligations.ReshapeContract := by
  unfold Obligations.ReshapeContract
  intro x m
  refine ⟨reshape_var x, reshape_same_length, fun hw => ?_, fun hw => ?_, fun hn => ?_, fun hn hv => ?_,
    reshape_lossy⟩
  · exact ⟨_, reshape_widen hw.le false, extend_length hw.le false, uval_extend_false x m⟩
  · exact ⟨_, reshape_widen hw.le true, extend_length hw.le true, sval_extend_true hw.le⟩
  · exact ⟨_, reshape_truncate hn, List.length_take_of_le hn.le, uval_take x m⟩
  · exact ⟨_, reshape_lossless hn hv, List.length_take_of_le hn.le, (uval_take x m).trans (Nat.mod_eq_of_lt hv)⟩

/-- Settles O39: on one slot both writes are of the value it holds, since a value of its bank reshapes to itself. -/
theorem swpExchangesReshapedValues : Obligations.SwpExchangesReshapedValues := by
  unfold Obligations.SwpExchangesReshapedValues
  intro r1 r2 x1 x2 s v1 v2 h1 h2
  refine ⟨fun y1 y2 hne hy2 hy1 => ?_, fun heq hfits => ?_, fun h => ?_⟩
  · refine ⟨_, exec_swp_reshaped h1 h2 hy2 hy1, ?_, State.slot_setSlot_self .., onlySlots_setSlot_setSlot ..⟩
    rw [slot_setSlot_of_ne _ hne.symm, State.slot_setSlot_self]
  · subst heq
    obtain rfl : v1 = v2 := Option.some.inj (h1.symm.trans h2)
    exact ⟨_, exec_swp_reshaped h1 h1 (reshape_own_bank hfits x1) (reshape_own_bank hfits x2),
      (onlySlots_setSlot_held h1).trans (onlySlots_setSlot_held (State.slot_setSlot_self ..))⟩
  · exact ⟨_, exec_swp_failed h1 h2 h, failsOperand_operandFail s⟩

/-- Settles O40, outcome by outcome. -/
theorem movCopiesOrMoves : Obligations.MovCopiesOrMoves := by
  unfold Obligations.MovCopiesOrMoves
  intro src dst x dup s v hv
  refine ⟨fun y hy hkeep => ?_, fun y hy hdup hne => ?_, fun hy => ?_⟩
  · exact ⟨_, exec_mov_kept hv hy hkeep, State.slot_setSlot_self .., onlySlots_setSlot ..⟩
  · subst hdup
    refine ⟨_, exec_mov_moved hv hy hne, ?_, State.slot_setSlot_self .., onlySlots_setSlot_setSlot ..⟩
    rw [slot_setSlot_of_ne _ hne, State.slot_setSlot_self]
  · exact ⟨_, exec_mov_failed hv hy, failsOperand_operandFail s⟩

/-- Settles O42: a well-formed put has a literal that is legal for its bank, so the literal is written. -/
theorem putWritesTheLiteral : Obligations.PutWritesTheLiteral := by
  unfold Obligations.PutWritesTheLiteral
  intro i b j lit s hwf hi
  obtain ⟨hok, hexec⟩ : litOk b.bytes lit = true ∧ exec i s = writeLiteral b j lit s := by
    obtain ⟨a, rfl, rfl⟩ | ⟨r, rfl, rfl⟩ | ⟨rfl, rfl⟩ := hi
    · exact ⟨hwf, rfl⟩
    · exact ⟨r.toBank_bytes ▸ hwf, rfl⟩
    · exact ⟨hwf, rfl⟩
  refine ⟨_, _, hexec.trans (writeLiteral_of_litOk hok j s), State.slot_setSlot_self .., fun n hb => ?_, fun hb => ?_,
    onlySlots_setSlot ..⟩
  · rw [hb] at hok ⊢
    exact ⟨extend_length (of_decide_eq_true (litOk_spec hok).2) false, take_extend lit n false,
      uval_extend_false lit n⟩
  · rw [hb]; rfl

/-- Settles O41: each family is one write, of the zero value of the bank or of nothing. -/
theorem zeroAndCleanIgnoreTheOldValue : Obligations.ZeroAndCleanIgnoreTheOldValue := by
  unfold Obligations.ZeroAndCleanIgnoreTheOldValue
  intro i b j s
  refine ⟨fun hi => ?_, fun hi => ?_⟩
  · have hexec : exec i s = writeZero b j s := by
      obtain ⟨a, rfl, rfl⟩ | ⟨r, rfl, rfl⟩ | ⟨rfl, rfl⟩ := hi <;> rfl
    exact ⟨_, _, hexec, State.slot_setSlot_self .., fun _ => zeroValue_length, zeroValue_var, uval_zeroValue b,
      onlySlots_setSlot ..⟩
  · have hexec : exec i s = .next (s.setSlot b j none) := by
      obtain ⟨a, rfl, rfl⟩ | ⟨r, rfl, rfl⟩ | ⟨rfl, rfl⟩ := hi <;> rfl
    exact ⟨_, hexec, State.slot_setSlot_self .., onlySlots_setSlot ..⟩

end Sys2Proof.Proofs

/-! ## Proofs: comparison and measurement (spec/42_comparison.md)

The two flags as relations between the unsigned values, the bounds that keep a measure within the four bytes of `a32`,
and one equation for each of the three shared operations on set slots; from these the statements about the comparison
and measurement instructions. -/

namespace Sys2Proof.Machine

/-! ### The flags as relations (R181, R183) -/

theorem threeWay_eq_less_iff (v1 v2 : Bytes) : threeWay v1 v2 = .less ↔ uval v1 < uval v2 := by
  unfold threeWay
  split
  next hlt => simp [hlt]
  next hge => split <;> simp [hge]

theorem threeWay_eq_equal_iff (v1 v2 : Bytes) : threeWay v1 v2 = .equal ↔ uval v1 = uval v2 := by
  unfold threeWay
  split
  next hlt => simp [hlt.ne]
  next =>
    split
    next heq => simp [heq]
    next hne => simp [hne]

theorem threeWay_eq_greater_iff (v1 v2 : Bytes) : threeWay v1 v2 = .greater ↔ uval v2 < uval v1 := by
  unfold threeWay
  split
  next hlt => simp [hlt.le]
  next hge =>
    split
    next heq => simp [heq]
    next hne => simpa using lt_of_le_of_ne (Nat.le_of_not_lt hge) (Ne.symm hne)

theorem equalValues_iff (v1 v2 : Bytes) : equalValues v1 v2 = true ↔ uval v1 = uval v2 := beq_iff_eq

/-- Between strings of one length, as in an `R` bank, equality of values is equality of strings (R184). -/
theorem uval_eq_iff {v1 v2 : Bytes} (h : v1.length = v2.length) : uval v1 = uval v2 ↔ v1 = v2 :=
  ⟨uval_inj h, congrArg uval⟩

/-! ### The two measures (R185, R187) -/

theorem bitlen_uval_le (v : Bytes) : bitlen (uval v) ≤ 8 * v.length := by
  refine bitlen_le ?_
  calc uval v < 256 ^ v.length := uval_lt v
    _ = 2 ^ (8 * v.length) := (Nat.pow_mul 2 8 v.length).symm

theorem popcount_le_bitlen (z : Nat) : popcount z ≤ bitlen z :=
  List.countP_le_length.trans_eq List.length_range

/-- The bits above `bitlen(z)` are 0, so the 1 bits can be counted over any range that is long enough. -/
theorem popcount_eq_filter_range {z n : Nat} (h : bitlen z ≤ n) :
    popcount z = ((List.range n).filter fun k => z.testBit k).length := by
  obtain ⟨d, rfl⟩ := Nat.exists_eq_add_of_le h
  have hhigh : ((List.range d).map (bitlen z + ·)).countP (fun k => z.testBit k) = 0 := by
    simp only [List.countP_eq_zero, List.mem_map]
    rintro _ ⟨j, -, rfl⟩
    have hz : z < 2 ^ (bitlen z + j) :=
      (lt_two_pow_bitlen z).trans_le (Nat.pow_le_pow_right (by decide) (Nat.le_add_right ..))
    simp [Nat.testBit_lt_two_pow hz]
  rw [← List.countP_eq_length_filter, List.range_add, List.countP_append, hhigh, Nat.add_zero, popcount]

/-! ### The shared operations on set slots -/

section Operations

variable {b : Bank} {i1 i2 : Fin 32} {s : State} {v v1 v2 : Bytes}

theorem compareSlots_set (h1 : s.slot b i1 = some v1) (h2 : s.slot b i2 = some v2) :
    compareSlots b i1 i2 s = .next (s.setCm0 (threeWay v1 v2)) := withSlots_set h1 h2 _

theorem equateSlots_set (h1 : s.slot b i1 = some v1) (h2 : s.slot b i2 = some v2) :
    equateSlots b i1 i2 s = .next (s.setSt0 (equalValues v1 v2)) := withSlots_set h1 h2 _

/-- A measure of at most the bit length of a value within the capacity of R22 is below `2^32`: `a32` holds it exactly. -/
theorem measureSlot_set {f : Nat → Nat} (hf : ∀ z, f z ≤ bitlen z) (h : s.slot b i1 = some v)
    (hv : v.length ≤ 65535) :
    ∃ w, measureSlot f b i1 i2 s = .next (s.setSlot .a32 i2 (some w)) ∧ w.length = 4 ∧ uval w = f (uval v) := by
  refine ⟨_, withSlot_set h _, leNat_length .., ?_⟩
  have hbits : f (uval v) ≤ 8 * v.length := (hf _).trans (bitlen_uval_le v)
  rw [uval_leNat, Nat.mod_eq_of_lt (by omega)]

end Operations

end Sys2Proof.Machine

/-! ## The statements about comparison and measurement -/

namespace Sys2Proof.Proofs

open Sys2Proof.Machine

/-- Settles O45: the bit length is at most `8 * 65535`, so the four bytes of `a32` hold it. -/
theorem measureBitLength : Obligations.MeasureBitLength := by
  unfold Obligations.MeasureBitLength
  intro i b i1 i2 s v hi h hv
  have hexec : exec i s = measureSlot bitlen b i1 i2 s := by
    obtain ⟨a, rfl, rfl⟩ | ⟨r, rfl, rfl⟩ := hi <;> rfl
  obtain ⟨w, hnext, hlen, hw⟩ := measureSlot_set (fun _ => le_rfl) h hv
  refine ⟨_, w, hexec.trans hnext, State.slot_setSlot_self .., hlen, ?_, fun k hk => ?_, onlySlots_setSlot ..⟩
  · exact hw ▸ lt_two_pow_bitlen _
  · exact hw ▸ bitlen_le hk

/-- Settles O46: the bits of the value above its bit length are 0, so to count over all its positions adds nothing. -/
theorem measurePopulation : Obligations.MeasurePopulation := by
  unfold Obligations.MeasurePopulation
  intro i b i1 i2 s v hi h hv
  have hexec : exec i s = measureSlot popcount b i1 i2 s := by
    obtain ⟨a, rfl, rfl⟩ | ⟨r, rfl, rfl⟩ := hi <;> rfl
  obtain ⟨w, hnext, hlen, hw⟩ := measureSlot_set popcount_le_bitlen h hv
  exact ⟨_, w, hexec.trans hnext, State.slot_setSlot_self .., hlen,
    hw.trans (popcount_eq_filter_range (bitlen_uval_le v)), onlySlots_setSlot ..⟩

/-- Settles O43: both families write `cm0` with the three-way comparison, and nothing else. -/
theorem compareSetsTheOrder : Obligations.CompareSetsTheOrder := by
  unfold Obligations.CompareSetsTheOrder
  intro i b i1 i2 s v1 v2 hi h1 h2
  have hexec : exec i s = compareSlots b i1 i2 s := by
    obtain ⟨a, rfl, rfl⟩ | ⟨r, rfl, rfl⟩ := hi <;> rfl
  exact ⟨_, hexec.trans (compareSlots_set h1 h2), threeWay_eq_less_iff v1 v2, threeWay_eq_equal_iff v1 v2,
    threeWay_eq_greater_iff v1 v2, State.setCm0_st0 .., onlyFlags_setCm0 ..⟩

/-- Settles O44: both families write `st0` with the equality of the values, and nothing else. -/
theorem equalSetsTheStatus : Obligations.EqualSetsTheStatus := by
  unfold Obligations.EqualSetsTheStatus
  intro i b i1 i2 s v1 v2 hi h1 h2
  have hexec : exec i s = equateSlots b i1 i2 s := by
    obtain ⟨a, rfl, rfl⟩ | ⟨r, rfl, rfl⟩ := hi <;> rfl
  have hst0 := equalValues_iff v1 v2
  exact ⟨_, hexec.trans (equateSlots_set h1 h2), hst0, fun hl => hst0.trans (uval_eq_iff hl), State.setSt0_cm0 ..,
    onlyFlags_setSt0 ..⟩

end Sys2Proof.Proofs

/-! ## Proofs: arithmetic (spec/43_arithmetic.md)

The integers that `n` bytes hold under a signedness, which the range check of R204 and the least length of R205 are
both about; what a write of an exact result does on a fixed width and on `ap`; and one equation for each of the shared
operations. From these the statements about the arithmetic instructions. -/

namespace Sys2Proof

/-! ### The fixed widths (R202) -/

theorem ABank.bytes_pos {b : ABank} {n : Nat} (hb : b.bytes = some n) : 0 < n := by
  cases b <;> cases hb <;> decide

/-- The two fixed-width modes go with every bank that has a width. -/
theorem Mode.agrees_of_bytes {k : Kind} {b : ABank} {n : Nat} (sg : Bool) (hk : k = .checked ∨ k = .wrapping)
    (hb : b.bytes = some n) : Mode.agrees ⟨k, sg⟩ b = true := by
  have hne : b ≠ .ap := fun h => by subst h; cases hb
  obtain rfl | rfl := hk <;> exact bne_iff_ne.2 hne

theorem Kind.ne_float {k : Kind} (hk : k = .checked ∨ k = .wrapping) : k ≠ .float := by
  obtain rfl | rfl := hk <;> decide

end Sys2Proof

namespace Sys2Proof.Machine

/-! ### What `n` bytes hold (spec/00_scope.md R11, spec/43_arithmetic.md R201) -/

theorem bitlen_le_iff {z k : Nat} : bitlen z ≤ k ↔ z < 2 ^ k :=
  ⟨fun h => (lt_two_pow_bitlen z).trans_le (Nat.pow_le_pow_right (by decide) h), bitlen_le⟩

/-- `z` is the reading of some string of `n` bytes (`representable_iff`). The signed bounds are doubled, so that they
say for `n = 0` that `z = 0`. -/
def Representable (n : Nat) (sg : Bool) (z : Int) : Prop :=
  if sg then -(256 ^ n : Int) ≤ 2 * z ∧ 2 * z < 256 ^ n else 0 ≤ z ∧ z < 256 ^ n

theorem representable_signed {n : Nat} {z : Int} :
    Representable n true z ↔ -(256 ^ n : Int) ≤ 2 * z ∧ 2 * z < 256 ^ n := Iff.rfl

theorem representable_unsigned {n : Nat} {z : Int} : Representable n false z ↔ 0 ≤ z ∧ z < 256 ^ n := Iff.rfl

theorem intOf_representable (x : Bytes) (sg : Bool) : Representable x.length sg (intOf x sg) := by
  cases sg with
  | true => exact sval_range x
  | false =>
    have hx := uval_lt x
    zify at hx
    exact ⟨Int.natCast_nonneg _, hx⟩

/-- A `z` that `n` bytes hold is read back from `LE_n(z)`. -/
theorem intOf_leInt {n : Nat} {sg : Bool} {z : Int} (h : Representable n sg z) : intOf (leInt n z) sg = z := by
  cases sg with
  | true => exact sval_leInt h.1 h.2
  | false => exact uval_leInt_of_range h.1 h.2

theorem representable_iff {n : Nat} {sg : Bool} {z : Int} :
    Representable n sg z ↔ ∃ w : Bytes, w.length = n ∧ intOf w sg = z := by
  constructor
  · exact fun h => ⟨_, leInt_length n z, intOf_leInt h⟩
  · rintro ⟨w, rfl, rfl⟩
    exact intOf_representable w sg

theorem two_pow_eight_mul (n : Nat) : (2 : Int) ^ (8 * n) = 256 ^ n := by rw [pow_mul]; norm_num

/-- Half the range of a width that is not 0. -/
theorem two_mul_two_pow_eight_mul_sub_one {n : Nat} (hn : 0 < n) : 2 * (2 : Int) ^ (8 * n - 1) = 256 ^ n := by
  rw [← two_pow_eight_mul, ← pow_succ', Nat.sub_add_cancel (by omega)]

/-- The bounds of R204 are those of the width. -/
theorem bounds_iff_representable {n : Nat} (hn : 0 < n) {sg : Bool} {z lo hi : Int}
    (hlo : lo = if sg then -2 ^ (8 * n - 1) else 0)
    (hhi : hi = if sg then 2 ^ (8 * n - 1) - 1 else 2 ^ (8 * n) - 1) :
    lo ≤ z ∧ z ≤ hi ↔ Representable n sg z := by
  subst hlo hhi
  cases sg with
  | true =>
    have hhalf := two_mul_two_pow_eight_mul_sub_one hn
    simp only [representable_signed, if_true]
    omega
  | false =>
    have hfull := two_pow_eight_mul n
    simp only [representable_unsigned, Bool.false_eq_true, if_false]
    omega

theorem inRange_iff_representable {n : Nat} (hn : 0 < n) {sg : Bool} {z : Int} :
    inRange n sg z = true ↔ Representable n sg z := by
  rw [← bounds_iff_representable hn rfl rfl]
  cases sg <;> simp [inRange]

/-- The number whose bits R205 counts is below `2^k` when `z` is in the signed range of `k + 1` bits. -/
theorem magnitude_lt_iff {z : Int} {k : Nat} :
    (if 0 ≤ z then z.toNat else (-z - 1).toNat) < 2 ^ k ↔ -(2 ^ k : Int) ≤ z ∧ z < 2 ^ k := by
  have hpos : (0 : Int) < 2 ^ k := by positivity
  have hcast : ((2 ^ k : Nat) : Int) = 2 ^ k := by push_cast; rfl
  split <;> omega

/-- `apLength(z)` is the least length that holds `z`; a negative unsigned `z` has none (R205). -/
theorem representable_iff_apLength_le {n : Nat} {sg : Bool} {z : Int} :
    Representable n sg z ↔ (sg = false → 0 ≤ z) ∧ apLength z sg ≤ n := by
  by_cases hz : z = 0
  · subst hz
    have hpos : (0 : Int) < 256 ^ n := by positivity
    cases sg <;> simp [Representable, apLength, hpos, hpos.le]
  cases sg with
  | false =>
    have hlen : apLength z false ≤ n ↔ bitlen z.toNat ≤ 8 * n := by
      simp only [apLength, if_neg hz, Bool.false_eq_true, if_false]
      omega
    rw [hlen, bitlen_le_iff, representable_unsigned, ← two_pow_eight_mul, forall_prop_of_true rfl]
    refine and_congr_right fun hpos => ?_
    lift z to Nat using hpos
    exact mod_cast Iff.rfl
  | true =>
    rw [and_iff_right (nofun : true = false → 0 ≤ z), representable_signed]
    cases n with
    | zero =>
      have hlen : apLength z true ≠ 0 := by simp [apLength, hz]
      rw [pow_zero]
      omega
    | succ n =>
      have hhalf := two_mul_two_pow_eight_mul_sub_one (Nat.add_one_pos n)
      have hlen : apLength z true ≤ n + 1 ↔
          bitlen (if 0 ≤ z then z.toNat else (-z - 1).toNat) ≤ 8 * (n + 1) - 1 := by
        simp only [apLength, if_neg hz, if_true]
        omega
      rw [hlen, bitlen_le_iff, magnitude_lt_iff]
      omega

/-- Strings of at most `n` bytes hold what strings of `n` bytes hold. -/
theorem exists_reading_iff {n : Nat} {sg : Bool} {z : Int} :
    (∃ w : Bytes, w.length ≤ n ∧ intOf w sg = z) ↔ Representable n sg z := by
  constructor
  · rintro ⟨w, hw, rfl⟩
    obtain ⟨hsign, hlen⟩ := representable_iff_apLength_le.1 (intOf_representable w sg)
    exact representable_iff_apLength_le.2 ⟨hsign, hlen.trans hw⟩
  · intro h
    obtain ⟨w, hw, hz⟩ := representable_iff.1 h
    exact ⟨w, hw.le, hz⟩

theorem intOf_eq_zero {v : Bytes} (h : uval v = 0) (sg : Bool) : intOf v sg = 0 := by
  cases sg with
  | true => exact (sval_eq v).trans (by simp [h])
  | false => exact congrArg Nat.cast h

/-- A number smaller in magnitude than one that `n` bytes hold, as a remainder is than its divisor, is held as well,
unless its sign forbids it. -/
theorem representable_of_abs_lt {n : Nat} {sg : Bool} {r d : Int} (hd : Representable n sg d) (hlt : |r| < |d|)
    (hsign : sg = false → 0 ≤ r) : Representable n sg r := by
  rw [Int.abs_eq_natAbs, Int.abs_eq_natAbs] at hlt
  cases sg with
  | true =>
    rw [representable_signed] at hd ⊢
    omega
  | false =>
    have hr := hsign rfl
    rw [representable_unsigned] at hd ⊢
    omega

/-! ### Writing an exact result (R204, R205) -/

section Write

variable {n : Nat} {z : Int} {k : Kind} {sg : Bool} {b : ABank} {i : Fin 32} {s : State}

theorem writeResult_some {v : Bytes} {m : Mode} (h : putResult z m b = some v) :
    writeResult z m b i s = .next (s.setSlot b.toBank i (some v)) := by simp only [writeResult, h]

theorem writeResult_none {m : Mode} (h : putResult z m b = none) :
    writeResult z m b i s = .next (s.raise .arithmeticOverflow) := by simp only [writeResult, h, raised]

/-- A fixed-width result is stored in unchecked mode, and in range (R204). -/
theorem writeResult_fixed (hb : b.bytes = some n) (h : k = .wrapping ∨ Representable n sg z) :
    writeResult z ⟨k, sg⟩ b i s = .next (s.setSlot b.toBank i (some (leInt n z))) := by
  apply writeResult_some
  simp only [putResult, hb, putFixed]
  rw [if_neg]
  rintro ⟨rfl, hout⟩
  obtain hk | hz := h
  · cases hk
  · exact absurd ((inRange_iff_representable (ABank.bytes_pos hb)).2 hz) (by simp [hout])

theorem writeResult_fixed_overflow (hb : b.bytes = some n) (h : ¬ Representable n sg z) :
    writeResult z ⟨.checked, sg⟩ b i s = .next (s.raise .arithmeticOverflow) := by
  apply writeResult_none
  rw [← inRange_iff_representable (ABank.bytes_pos hb), Bool.not_eq_true] at h
  simp [putResult, hb, putFixed, h]

/-- What is stored on a fixed width: `z mod 2^N`, which reads as `z` in range. -/
theorem writeResult_fixed_spec (hb : b.bytes = some n) (h : k = .wrapping ∨ Representable n sg z) :
    ∃ t v, writeResult z ⟨k, sg⟩ b i s = .next t ∧ t.slot b.toBank i = some v ∧ v.length = n ∧
      (uval v : Int) = z % 2 ^ (8 * n) ∧ (Representable n sg z → intOf v sg = z) ∧ OnlySlots [(b.toBank, i)] s t :=
  ⟨_, _, writeResult_fixed hb h, State.slot_setSlot_self .., leInt_length .., two_pow_eight_mul n ▸ uval_leInt n z,
    intOf_leInt, onlySlots_setSlot ..⟩

theorem writeResult_fixed_raises (hb : b.bytes = some n) (hk : k = .checked) (h : ¬ Representable n sg z) :
    ∃ t, writeResult z ⟨k, sg⟩ b i s = .next t ∧ Raises .arithmeticOverflow s t := by
  subst hk
  exact ⟨_, writeResult_fixed_overflow hb h, raises_raise ..⟩

/-- An `ap` result is stored at its least length if a slot can hold it (R205). -/
theorem writeResult_ap (h : Representable Config.varMax sg z) :
    writeResult z ⟨k, sg⟩ .ap i s = .next (s.setSlot .ap i (some (leInt (apLength z sg) z))) := by
  obtain ⟨hsign, hlen⟩ := representable_iff_apLength_le.1 h
  apply writeResult_some
  change putAP z sg = _
  rw [putAP, if_neg (fun hneg => absurd (hsign hneg.1) (Int.not_le.2 hneg.2)), if_neg (Nat.not_lt.2 hlen)]

theorem writeResult_ap_overflow (h : ¬ Representable Config.varMax sg z) :
    writeResult z ⟨k, sg⟩ .ap i s = .next (s.raise .arithmeticOverflow) := by
  apply writeResult_none
  change putAP z sg = _
  unfold putAP
  split
  · rfl
  next hsign =>
    rw [if_pos]
    by_contra hlen
    exact h (representable_iff_apLength_le.2 ⟨fun hsg => Int.not_lt.1 fun hz => hsign ⟨hsg, hz⟩, Nat.not_lt.1 hlen⟩)

end Write

/-! ### The shared operations on set slots (R200, R214) -/

section Operations

variable {m : Mode} {b : ABank} {i1 i2 dst : Fin 32} {s : State} {v v1 v2 : Bytes}

theorem withMode_computes (hm : m.agrees b = true) (hf : m.kind ≠ .float) (r : Result) : withMode m b s r = r := by
  simp [withMode, hm, hf]

/-- A floating mode goes with every bank, so it gets past R202 and stops at R203. -/
theorem withMode_float (sg : Bool) (r : Result) :
    withMode ⟨.float, sg⟩ b s r = .next (s.raise .unimplementedStub) := by simp [withMode, Mode.agrees, raised]

theorem binaryOp_set (op : Int → Int → Int) (hm : m.agrees b = true) (hf : m.kind ≠ .float)
    (h1 : s.slot b.toBank i1 = some v1) (h2 : s.slot b.toBank i2 = some v2) :
    binaryOp op m b i1 i2 s = writeResult (op (intOf v1 m.sg) (intOf v2 m.sg)) m b i1 s :=
  (withMode_computes hm hf _).trans (withSlots_set h1 h2 _)

theorem unaryOp_set (op : Int → Int) (hm : m.agrees b = true) (hf : m.kind ≠ .float)
    (h : s.slot b.toBank i1 = some v) :
    unaryOp op m b i1 dst s = writeResult (op (intOf v m.sg)) m b dst s :=
  (withMode_computes hm hf _).trans (withSlot_set h _)

theorem exec_abs_set (hm : m.agrees b = true) (hf : m.kind ≠ .float) (h : s.slot b.toBank i1 = some v) :
    exec (.abs m b i1 dst) s = writeResult |intOf v m.sg| m b dst s :=
  Int.abs_eq_natAbs (intOf v m.sg) ▸ unaryOp_set (fun z => (z.natAbs : Int)) hm hf h

theorem divisionOp_set (op : Int → Int → Int) (hm : m.agrees b = true) (hf : m.kind ≠ .float)
    (h1 : s.slot b.toBank i1 = some v1) (h2 : s.slot b.toBank i2 = some v2) (hv : intOf v2 m.sg ≠ 0) :
    divisionOp op m b i1 i2 s = writeResult (op (intOf v1 m.sg) (intOf v2 m.sg)) m b i1 s :=
  (withMode_computes hm hf _).trans ((withSlots_set h1 h2 _).trans (if_neg hv))

theorem divisionOp_zero (op : Int → Int → Int) (hm : m.agrees b = true) (hf : m.kind ≠ .float)
    (h1 : s.slot b.toBank i1 = some v1) (h2 : s.slot b.toBank i2 = some v2) (hv : intOf v2 m.sg = 0) :
    divisionOp op m b i1 i2 s = .next (s.raise .divisionByZero) :=
  (withMode_computes hm hf _).trans ((withSlots_set h1 h2 _).trans (if_pos hv))

end Operations

/-! ### Quotient and remainder (R213) -/

/-- The quotient and the remainder of R213 are the only ones with a remainder under the divisor and of the dividend's
sign. -/
theorem tdiv_tmod_eq {a d q r : Int} (hd : d ≠ 0) (ha : a = d * q + r) (hlt : |r| < |d|) (hpos : 0 ≤ a → 0 ≤ r)
    (hneg : a ≤ 0 → r ≤ 0) : a.tdiv d = q ∧ a.tmod d = r := by
  have hsum : r + d * q = a := by omega
  rw [Int.abs_eq_natAbs, Int.abs_eq_natAbs] at hlt
  obtain h | h := Int.le_total 0 a
  · exact (Int.tdiv_tmod_unique h hd).2 ⟨hsum, hpos h, by omega⟩
  · exact (Int.tdiv_tmod_unique' h hd).2 ⟨hsum, by omega, hneg h⟩

end Sys2Proof.Machine

/-! ## The statements about arithmetic -/

namespace Sys2Proof.Proofs

open Sys2Proof.Machine

/-- Settles O50: each instruction writes its exact result, at the least length that holds it. -/
theorem arbitraryPrecisionIsExact : Obligations.ArbitraryPrecisionIsExact := by
  unfold Obligations.ArbitraryPrecisionIsExact
  intro i sg i1 i2 dst s v1 v2 z h1 h2 hi
  have hm : Mode.agrees ⟨.arbitrary, sg⟩ .ap = true := rfl
  have hf : Kind.arbitrary ≠ .float := by decide
  have hexec : exec i s = writeResult z ⟨.arbitrary, sg⟩ .ap dst s := by
    obtain ⟨rfl, rfl, rfl⟩ | ⟨rfl, rfl, rfl⟩ | ⟨rfl, rfl, rfl⟩ | ⟨rfl, rfl, hv, rfl⟩ | ⟨rfl, rfl, hv, rfl⟩ |
      ⟨rfl, rfl, rfl⟩ | ⟨rfl, rfl⟩ := hi
    · exact binaryOp_set _ hm hf h1 h2
    · exact binaryOp_set _ hm hf h1 h2
    · exact binaryOp_set _ hm hf h1 h2
    · exact divisionOp_set _ hm hf h1 h2 hv
    · exact divisionOp_set _ hm hf h1 h2 hv
    · exact unaryOp_set _ hm hf h1
    · exact exec_abs_set hm hf h1
  rw [hexec, exists_reading_iff]
  refine ⟨fun hz => ?_, fun hz => ⟨_, writeResult_ap_overflow hz, raises_raise ..⟩⟩
  obtain ⟨hsign, -⟩ := representable_iff_apLength_le.1 hz
  refine ⟨_, _, writeResult_ap hz, State.slot_setSlot_self .., ?_, fun w hw => ?_, onlySlots_setSlot ..⟩
  · exact intOf_leInt (representable_iff_apLength_le.2 ⟨hsign, le_rfl⟩)
  · subst hw
    rw [leInt_length]
    exact (representable_iff_apLength_le.1 (intOf_representable w sg)).2

/-- Settles O47: each instruction writes its exact result, and the bounds are those of the width. -/
theorem fixedWidthArithmetic : Obligations.FixedWidthArithmetic := by
  unfold Obligations.FixedWidthArithmetic
  intro i k sg b n i1 i2 dst s v1 v2 z lo hi hk hb h1 h2 hlo hhi hins
  have hm := Mode.agrees_of_bytes sg hk hb
  have hf := Kind.ne_float hk
  have hexec : exec i s = writeResult z ⟨k, sg⟩ b dst s := by
    obtain ⟨rfl, rfl, rfl⟩ | ⟨rfl, rfl, rfl⟩ | ⟨rfl, rfl, rfl⟩ | ⟨rfl, rfl, rfl⟩ | ⟨rfl, rfl⟩ := hins
    · exact binaryOp_set _ hm hf h1 h2
    · exact binaryOp_set _ hm hf h1 h2
    · exact binaryOp_set _ hm hf h1 h2
    · exact unaryOp_set _ hm hf h1
    · exact exec_abs_set hm hf h1
  have hrange := bounds_iff_representable (z := z) (ABank.bytes_pos hb) hlo hhi
  rw [hexec, hrange]
  refine ⟨writeResult_fixed_spec hb, fun hk hout => writeResult_fixed_raises hb hk ?_⟩
  rw [← hrange]
  omega

/-- Settles O48: the quotient is written as any result is, and the remainder, smaller than the divisor, is in range. -/
theorem fixedWidthDivision : Obligations.FixedWidthDivision := by
  unfold Obligations.FixedWidthDivision
  intro k sg b n i1 i2 s v1 v2 q r lo hi hk hb h1 h2 hl1 hl2 hv ha hlt hpos hneg hlo hhi
  have hm := Mode.agrees_of_bytes sg hk hb
  have hf := Kind.ne_float hk
  obtain ⟨hq, hr⟩ := tdiv_tmod_eq hv ha hlt hpos hneg
  have hdiv : exec (.div ⟨k, sg⟩ b i1 i2) s = writeResult q ⟨k, sg⟩ b i1 s :=
    hq ▸ divisionOp_set Int.tdiv hm hf h1 h2 hv
  have hmod : exec (.mod ⟨k, sg⟩ b i1 i2) s = writeResult r ⟨k, sg⟩ b i1 s :=
    hr ▸ divisionOp_set Int.tmod hm hf h1 h2 hv
  have hrange := bounds_iff_representable (z := q) (ABank.bytes_pos hb) hlo hhi
  have hrem : Representable n sg r := by
    refine representable_of_abs_lt (hl2 ▸ intOf_representable v2 sg) hlt fun hsg => hpos ?_
    subst hsg
    exact (intOf_representable v1 false).1
  rw [hdiv, hmod, hrange]
  refine ⟨writeResult_fixed_spec hb, fun hk hout => writeResult_fixed_raises hb hk ?_, ?_⟩
  · rw [← hrange]
    omega
  · obtain ⟨t, v, hnext, hslot, hlen, -, hread, hframe⟩ := writeResult_fixed_spec (i := i1) (s := s) hb (.inr hrem)
    exact ⟨t, v, hnext, hslot, hlen, hread hrem, hframe⟩

/-- Settles O49: a divisor of unsigned value 0 reads as 0 under both signednesses. -/
theorem divisionByZeroFaults : Obligations.DivisionByZeroFaults := by
  unfold Obligations.DivisionByZeroFaults
  intro m b i1 i2 s v1 v2 hm hf h1 h2 hv
  have hzero := intOf_eq_zero hv m.sg
  exact ⟨⟨_, divisionOp_zero Int.tdiv hm hf h1 h2 hzero, raises_raise ..⟩,
    ⟨_, divisionOp_zero Int.tmod hm hf h1 h2 hzero, raises_raise ..⟩⟩

/-- Settles O51: all seven check the mode before anything else. -/
theorem floatingStubsFault : Obligations.FloatingStubsFault := by
  unfold Obligations.FloatingStubsFault
  intro sg b i1 i2 s i hi
  have hexec : exec i s = .next (s.raise .unimplementedStub) := by
    simp only [List.mem_cons, List.not_mem_nil, or_false] at hi
    obtain rfl | rfl | rfl | rfl | rfl | rfl | rfl := hi <;>
      simp only [exec, execAdd, execSub, execMul, execDiv, execNeg, execMod, execAbs, binaryOp, divisionOp, unaryOp,
        withMode_float]
  exact ⟨_, hexec, raises_raise ..⟩

end Sys2Proof.Proofs

/-! ## Proofs: bitwise operations (spec/44_bitwise.md)

The shifts and the rotations as numbers: a shift is the plain product or quotient for every amount, and both rotations
exchange a high and a low part of the bits. What is written and what stays unchanged is the same for all of them. From
these the statements about the bitwise instructions. -/

namespace Sys2Proof.Machine

/-- A value of `n` bytes is below `2^(8n)`, the width in bits as R231 counts it. -/
theorem uval_lt_two_pow {v : Bytes} {n : Nat} (h : v.length = n) : uval v < 2 ^ (8 * n) := by
  rw [Nat.pow_mul, ← h]
  exact uval_lt v

/-! ### The shifts (R236, R237) -/

theorem shiftLeft_eq (n x k : Nat) : shiftLeft n x k = x * 2 ^ k % 2 ^ n := by
  unfold shiftLeft
  split
  next h => exact (Nat.mod_eq_zero_of_dvd ((Nat.pow_dvd_pow 2 h).mul_left x)).symm
  · rfl

theorem shiftRight_eq {n x : Nat} (hx : x < 2 ^ n) (k : Nat) : shiftRight n x k = x / 2 ^ k := by
  unfold shiftRight
  split
  next h => exact (Nat.div_eq_of_lt (hx.trans_le (Nat.pow_le_pow_right (by decide) h))).symm
  · rfl

/-! ### The rotations (R238, R239) -/

/-- The low `m` bits of `x` and the `h` bits above them, the one in the place of the other. -/
def exchangeParts (m h x : Nat) : Nat := 2 ^ h * (x % 2 ^ m) + x / 2 ^ m

section Exchange

variable {n m h x : Nat} (hsum : m + h = n) (hx : x < 2 ^ n)
include hsum hx

theorem high_part_lt : x / 2 ^ m < 2 ^ h :=
  Nat.div_lt_of_lt_mul (by rwa [← pow_add, hsum])

theorem exchangeParts_lt : exchangeParts m h x < 2 ^ n := by
  have hhigh := high_part_lt hsum hx
  calc 2 ^ h * (x % 2 ^ m) + x / 2 ^ m
    _ < 2 ^ h * (x % 2 ^ m) + 2 ^ h := Nat.add_lt_add_left hhigh _
    _ = 2 ^ h * (x % 2 ^ m + 1) := by ring
    _ ≤ 2 ^ h * 2 ^ m := Nat.mul_le_mul_left _ (Nat.mod_lt _ (by positivity))
    _ = 2 ^ n := by rw [← pow_add, Nat.add_comm, hsum]

/-- To exchange the parts moves every bit by `m` places, around the end. -/
theorem testBit_exchangeParts {p : Nat} (hp : p < n) :
    (exchangeParts m h x).testBit p = x.testBit ((p + m) % n) := by
  rw [exchangeParts, Nat.testBit_two_pow_mul_add _ (high_part_lt hsum hx)]
  split
  next hlow => rw [Nat.testBit_div_two_pow, Nat.mod_eq_of_lt (by omega)]
  next hhigh =>
    have hsrc : (p + m) % n = p - h := by
      rw [show p + m = p - h + n by omega, Nat.add_mod_right, Nat.mod_eq_of_lt (by omega)]
    have hlt : p - h < m := by omega
    simp [hsrc, Nat.testBit_mod_two_pow, hlt]

end Exchange

section Rotate

variable {n x p : Nat} (k : Nat)

theorem rotateLeft_eq_exchangeParts (hn : 0 < n) :
    rotateLeft n x k = exchangeParts (n - k % n) (k % n) x := by
  have hk : k % n ≤ n := (Nat.mod_lt k hn).le
  have hhigh : x * 2 ^ (k % n) % 2 ^ n = 2 ^ (k % n) * (x % 2 ^ (n - k % n)) := by
    rw [← Nat.mul_mod_mul_left, ← pow_add, Nat.add_sub_cancel' hk, Nat.mul_comm]
  rw [rotateLeft, exchangeParts, hhigh]

theorem rotateRight_eq_exchangeParts : rotateRight n x k = exchangeParts (k % n) (n - k % n) x := by
  unfold rotateRight exchangeParts
  split
  next h => simp [h, Nat.mod_one]
  · ring

theorem rotateLeft_lt (hn : 0 < n) (hx : x < 2 ^ n) : rotateLeft n x k < 2 ^ n :=
  rotateLeft_eq_exchangeParts k hn ▸ exchangeParts_lt (Nat.sub_add_cancel (Nat.mod_lt k hn).le) hx

theorem rotateRight_lt (hn : 0 < n) (hx : x < 2 ^ n) : rotateRight n x k < 2 ^ n :=
  rotateRight_eq_exchangeParts (x := x) k ▸ exchangeParts_lt (Nat.add_sub_cancel' (Nat.mod_lt k hn).le) hx

theorem testBit_rotateLeft (hn : 0 < n) (hx : x < 2 ^ n) (hp : p < n) :
    (rotateLeft n x k).testBit ((p + k) % n) = x.testBit p := by
  have hk : k % n ≤ n := (Nat.mod_lt k hn).le
  have hback : ((p + k) % n + (n - k % n)) % n = p := by
    have hkn := Nat.mod_add_div k n
    rw [Nat.mod_add_mod, show p + k + (n - k % n) = p + n * (k / n) + n by omega, Nat.add_mod_right,
      Nat.add_mul_mod_self_left, Nat.mod_eq_of_lt hp]
  rw [rotateLeft_eq_exchangeParts k hn,
    testBit_exchangeParts (Nat.sub_add_cancel hk) hx (Nat.mod_lt _ hn), hback]

theorem testBit_rotateRight (hn : 0 < n) (hx : x < 2 ^ n) (hp : p < n) :
    (rotateRight n x k).testBit p = x.testBit ((p + k) % n) := by
  rw [rotateRight_eq_exchangeParts, testBit_exchangeParts (Nat.add_sub_cancel' (Nat.mod_lt k hn).le) hx hp,
    Nat.add_mod_mod]

end Rotate

/-! ### The shared operation on set slots (R230, R231) -/

section Operations

variable {b : ABank} {n : Nat} {i1 i2 j : Fin 32} {d : Fin 8} {s : State} {v1 v2 : Bytes}

theorem withWidth_fixed (hb : b.bytes = some n) (k : Nat → Result) : withWidth b s k = k (8 * n) := by
  simp only [withWidth, hb]

/-- A result below `2^N` is stored exactly, at the length of the bank, and nothing else changes. -/
theorem writeBits_spec {z : Nat} (hz : z < 2 ^ (8 * n)) :
    ∃ t v, writeBits (8 * n) z b j s = .next t ∧ t.slot b.toBank j = some v ∧ v.length = n ∧ uval v = z ∧
      OnlySlots [(b.toBank, j)] s t := by
  have hlen : 8 * n / 8 = n := Nat.mul_div_cancel_left n (by decide)
  have hval : z % 256 ^ (8 * n / 8) = z := by
    rw [hlen]
    exact Nat.mod_eq_of_lt (Nat.pow_mul 2 8 n ▸ hz)
  exact ⟨_, _, rfl, State.slot_setSlot_self .., (leNat_length ..).trans hlen, (uval_leNat ..).trans hval,
    onlySlots_setSlot ..⟩

theorem bitwiseOp_spec (f : Nat → Nat → Nat → Nat) (hb : b.bytes = some n) (h1 : s.slot b.toBank i1 = some v1)
    (h2 : s.slot b.toBank i2 = some v2) (hj : j.val = d.val) (hf : f (8 * n) (uval v1) (uval v2) < 2 ^ (8 * n)) :
    ∃ t v, bitwiseOp f b i1 i2 d s = .next t ∧ t.slot b.toBank j = some v ∧ v.length = n ∧
      uval v = f (8 * n) (uval v1) (uval v2) ∧ OnlySlots [(b.toBank, j)] s t := by
  obtain rfl : j = destSlot d := Fin.ext hj
  rw [bitwiseOp, withWidth_fixed hb, withSlots_set h1 h2]
  exact writeBits_spec hf

theorem execNot_set (hb : b.bytes = some n) (h : s.slot b.toBank i1 = some v1) :
    execNot b i1 s = writeBits (8 * n) (2 ^ (8 * n) - 1 - uval v1) b i1 s :=
  (withWidth_fixed hb _).trans (withSlot_set h _)

end Operations

end Sys2Proof.Machine

/-! ## The statements about bitwise operations -/

namespace Sys2Proof.Proofs

open Sys2Proof.Machine

/-- Settles O55: every bit goes to, or comes from, the place the amount away, and no bit leaves the width. -/
theorem rotatesMoveEveryBit : Obligations.RotatesMoveEveryBit := by
  unfold Obligations.RotatesMoveEveryBit
  intro b n i1 i2 j d s v1 v2 hb h1 h2 hl1 _ hj
  have hn : 0 < 8 * n := Nat.mul_pos (by decide) (ABank.bytes_pos hb)
  have hv := uval_lt_two_pow hl1
  constructor
  · obtain ⟨t, v, hnext, hslot, hlen, hval, hframe⟩ := bitwiseOp_spec rotateLeft hb h1 h2 hj (rotateLeft_lt _ hn hv)
    exact ⟨t, v, hnext, hslot, hlen, fun k hk => hval ▸ testBit_rotateLeft _ hn hv hk, hframe⟩
  · obtain ⟨t, v, hnext, hslot, hlen, hval, hframe⟩ := bitwiseOp_spec rotateRight hb h1 h2 hj (rotateRight_lt _ hn hv)
    exact ⟨t, v, hnext, hslot, hlen, fun k hk => hval ▸ testBit_rotateRight _ hn hv hk, hframe⟩

/-- Settles O54: neither the product modulo `2^N` nor the quotient leaves the width. -/
theorem shiftsAreLogical : Obligations.ShiftsAreLogical := by
  unfold Obligations.ShiftsAreLogical
  intro b n i1 i2 j d s v1 v2 hb h1 h2 hl1 _ hj
  have hv := uval_lt_two_pow hl1
  rw [← shiftLeft_eq, ← shiftRight_eq hv]
  refine ⟨bitwiseOp_spec shiftLeft hb h1 h2 hj ?_, bitwiseOp_spec shiftRight hb h1 h2 hj ?_⟩
  · rw [shiftLeft_eq]
    exact Nat.mod_lt _ (by positivity)
  · rw [shiftRight_eq hv]
    exact (Nat.div_le_self ..).trans_lt hv

/-- Settles O52: bit `k` of each result is made of the two bits `k`, and no result is wider than its operands. -/
theorem bitwiseCombinesBits : Obligations.BitwiseCombinesBits := by
  unfold Obligations.BitwiseCombinesBits
  intro i f b n i1 i2 j d s v1 v2 hb h1 h2 hl1 hl2 hj hi
  have hv1 := uval_lt_two_pow hl1
  have hv2 := uval_lt_two_pow hl2
  obtain ⟨g, hexec, hlt, hbit⟩ : ∃ g : Nat → Nat → Nat, exec i s = bitwiseOp (fun _ => g) b i1 i2 d s ∧
      g (uval v1) (uval v2) < 2 ^ (8 * n) ∧
      ∀ k, (g (uval v1) (uval v2)).testBit k = f ((uval v1).testBit k) ((uval v2).testBit k) := by
    obtain ⟨rfl, rfl⟩ | ⟨rfl, rfl⟩ | ⟨rfl, rfl⟩ := hi
    · exact ⟨(· &&& ·), rfl, Nat.and_lt_two_pow _ hv2, Nat.testBit_and _ _⟩
    · exact ⟨(· ||| ·), rfl, Nat.or_lt_two_pow hv1 hv2, Nat.testBit_or _ _⟩
    · exact ⟨(· ^^^ ·), rfl, Nat.xor_lt_two_pow hv1 hv2, Nat.testBit_xor _ _⟩
  obtain ⟨t, v, hnext, hslot, hlen, hval, hframe⟩ := bitwiseOp_spec (fun _ => g) hb h1 h2 hj hlt
  exact ⟨t, v, hexec.trans hnext, hslot, hlen, fun k _ => hval ▸ hbit k, hframe⟩

/-- Settles O53: what is written is the distance to the greatest value of the width. -/
theorem notComplementsInPlace : Obligations.NotComplementsInPlace := by
  unfold Obligations.NotComplementsInPlace
  intro b n i1 s v1 hb h hl
  have hv := uval_lt_two_pow hl
  obtain ⟨t, v, hnext, hslot, hlen, hval, hframe⟩ :=
    writeBits_spec (b := b) (j := i1) (s := s) (by omega : 2 ^ (8 * n) - 1 - uval v1 < 2 ^ (8 * n))
  exact ⟨t, v, (execNot_set hb h).trans hnext, hslot, hlen, by omega, hframe⟩

end Sys2Proof.Proofs

/-! ## Proofs: the digest instruction (spec/45_digest.md)

One equation per outcome of `dgst` with its digest defined and its source set, and the fact that the destination, in an
`R` bank, is never the source string it may clear; from these the statement about the digest instruction. -/

namespace Sys2Proof.Machine

/-! ### `clearSource` -/

@[simp] theorem clearSource_false (i : Fin 32) (s : State) : clearSource false i s = s := rfl
@[simp] theorem clearSource_true (i : Fin 32) (s : State) : clearSource true i s = s.setSlot .s i none := rfl

/-- Clearing the source string leaves every raw-byte register as it was. -/
theorem clearSource_slot_raw (clr : Bool) (i j : Fin 32) (b : RBank) (s : State) :
    (clearSource clr i s).slot b.toBank j = s.slot b.toBank j := by
  cases clr with
  | false => rw [clearSource_false]
  | true =>
    have hbank : ¬ (Bank.s = b.toBank ∧ i = j) := fun ⟨hs, _⟩ => by cases b <;> cases hs
    rw [clearSource_true, State.slot_setSlot, if_neg hbank]

/-! ### `dgst` outcome by outcome (R252) -/

section Dgst

variable {alg src : Fin 32} {off : Offset} {b : RBank} {dst : Fin 32} {clr : Bool} {s : State} {x : Bytes}

theorem exec_dgst_hashed (hd : s.digest[alg] = some b) (hx : s.slot .s src = some x) (h : off.toNat ≤ x.length) :
    exec (.dgst alg src off b dst clr) s = .next (clearSource clr src
      (s.setSlot b.toBank dst (some (Config.digest alg b.bytes (x.drop off.toNat)).toList))) := by
  simp only [exec, execDgst, if_pos hd, withSlot_set hx, if_neg h.not_gt]

theorem exec_dgst_failed (hd : s.digest[alg] = some b) (hx : s.slot .s src = some x) (h : x.length < off.toNat) :
    exec (.dgst alg src off b dst clr) s = .next s.operandFail := by
  simp only [exec, execDgst, if_pos hd, withSlot_set hx, if_pos h, operandFailed]

end Dgst

end Sys2Proof.Machine

/-! ## The statement about the digest instruction -/

namespace Sys2Proof.Proofs

open Sys2Proof.Machine

/-- Settles O56: the digest is written before the source is cleared, and the offset is checked before either write. -/
theorem digestHashesTheSuffix : Obligations.DigestHashesTheSuffix := by
  unfold Obligations.DigestHashesTheSuffix
  intro alg src off b dst clr s x hd hx
  refine ⟨fun hoff => ?_, fun hoff => ?_⟩
  · refine ⟨_, exec_dgst_hashed hd hx hoff, ?_, ?_, ?_⟩
    · rw [clearSource_slot_raw, State.slot_setSlot_self]
    · rintro rfl
      rw [clearSource_false]
      exact onlySlots_setSlot ..
    · rintro rfl
      rw [clearSource_true]
      exact ⟨State.slot_setSlot_self .., onlySlots_setSlot_setSlot ..⟩
  · exact ⟨_, exec_dgst_failed hd hx hoff, failsOperand_operandFail s⟩

end Sys2Proof.Proofs

/-! ## Proofs: Secp256k1 (spec/46_secp256k1.md)

What a curve instruction does with its capability's answer once its operands are read; both curve families end in this
operation. From it, one operand read per instruction gives the statement about Secp256k1. -/

namespace Sys2Proof.Machine

/-- The answer is written as a point or fails the operation (R255). -/
theorem writePoint_spec (q : Option (Vector Byte 64)) (d : Fin 8) (s : State) :
    ∃ t, writePoint q d s = .next t ∧ PointOrFailure q d s t := by
  cases q with
  | none => exact ⟨_, rfl, failsOperand_operandFail s⟩
  | some p =>
    refine ⟨_, rfl, fun j hj => ?_⟩
    obtain rfl : j = destSlot d := Fin.ext hj
    exact ⟨State.slot_setSlot_self .., onlySlots_setSlot ..⟩

/-! ### The instructions on set operands (R256 to R259) -/

section Secp

variable {i1 i2 : Fin 32} {d : Fin 8} {ovf : Bool} {s : State} {k p q : Bytes}

theorem exec_secpgen_set (hk : s.slot .r256 i1 = some k) :
    exec (.secpgen i1 d) s = writePoint (Config.secpGen k) d s := withSlot_set hk _

theorem exec_secpmul_set (hk : s.slot .r256 i1 = some k) (hq : s.slot .r512 i2 = some q) :
    exec (.secpmul i1 i2 d) s = writePoint (Config.secpMul k q) d s := withSlots_set hk hq _

theorem exec_secpadd_set (hp : s.slot .r512 i1 = some p) (hq : s.slot .r512 i2 = some q) :
    exec (.secpadd i1 i2 d ovf) s = writePoint (Config.secpAdd p q ovf) d s := withSlots_set hp hq _

theorem exec_secpneg_set (hp : s.slot .r512 i1 = some p) :
    exec (.secpneg i1 d) s = writePoint (Config.secpNeg p) d s := withSlot_set hp _

end Secp

end Sys2Proof.Machine

/-! ## The statement about Secp256k1 -/

namespace Sys2Proof.Proofs

open Sys2Proof.Machine

/-- Settles O57: with its operands set, each instruction is `writePoint` of its capability's answer. -/
theorem secpInvokesTheCapability : Obligations.SecpInvokesTheCapability := by
  unfold Obligations.SecpInvokesTheCapability
  intro i1 i2 d ovf s
  refine ⟨fun k hk => ?gen, fun k q hk hq => ?mul, fun p q hp hq => ?add, fun p hp => ?neg⟩
  case gen => exact exec_secpgen_set hk ▸ writePoint_spec ..
  case mul => exact exec_secpmul_set hk hq ▸ writePoint_spec ..
  case add => exact exec_secpadd_set hp hq ▸ writePoint_spec ..
  case neg => exact exec_secpneg_set hp ▸ writePoint_spec ..

end Sys2Proof.Proofs

/-! ## Proofs: Ed25519 (spec/47_ed25519.md)

The operand reads of the four instructions; what becomes of the point they ask for (R265) is `writePoint_spec`, as for
Secp256k1. -/

namespace Sys2Proof.Machine

/-! ### The instructions on set operands (R266 to R269) -/

section Ed

variable {i1 i2 : Fin 32} {d : Fin 8} {ovf : Bool} {s : State} {k p q : Bytes}

theorem exec_edgen_set (hk : s.slot .r256 i1 = some k) :
    exec (.edgen i1 d) s = writePoint (Config.edGen k) d s := withSlot_set hk _

theorem exec_edmul_set (hk : s.slot .r256 i1 = some k) (hq : s.slot .r512 i2 = some q) :
    exec (.edmul i1 i2 d) s = writePoint (Config.edMul k q) d s := withSlots_set hk hq _

theorem exec_edadd_set (hp : s.slot .r512 i1 = some p) (hq : s.slot .r512 i2 = some q) :
    exec (.edadd i1 i2 d ovf) s = writePoint (Config.edAdd p q ovf) d s := withSlots_set hp hq _

theorem exec_edneg_set (hp : s.slot .r512 i1 = some p) :
    exec (.edneg i1 d) s = writePoint (Config.edNeg p) d s := withSlot_set hp _

end Ed

end Sys2Proof.Machine

/-! ## The statement about Ed25519 -/

namespace Sys2Proof.Proofs

open Sys2Proof.Machine

/-- Settles O58: with its operands set, each instruction is `writePoint` of its capability's answer. -/
theorem edInvokesTheCapability : Obligations.EdInvokesTheCapability := by
  unfold Obligations.EdInvokesTheCapability
  intro i1 i2 d ovf s
  refine ⟨fun k hk => ?gen, fun k q hk hq => ?mul, fun p q hp hq => ?add, fun p hp => ?neg⟩
  case gen => exact exec_edgen_set hk ▸ writePoint_spec ..
  case mul => exact exec_edmul_set hk hq ▸ writePoint_spec ..
  case add => exact exec_edadd_set hp hq ▸ writePoint_spec ..
  case neg => exact exec_edneg_set hp ▸ writePoint_spec ..

end Sys2Proof.Proofs

/-! ## Proofs: the step, its faults and the run (spec/48_execution_engine.md, spec/60_exceptions.md)

Where a stopped decode leaves the cursor and why it stopped, what a step that faults has done, how a step can end, and
the budget that a run without `exec` uses up; from these the statements about a step, and about a run. -/

namespace Sys2Proof.Machine

/-! ### Why a decode stops (R65, R290) -/

/-- The errors a read of the decoder can stop with on a byte boundary. The position an access past the offset range
attempts is at most that of the longest slice at the last offset it can begin at (R290). -/
inductive ReadError : Stop → Prop
  | endOfBuffer : ReadError (.fail .endOfBuffer)
  | outOfBoundaries (p : Nat) (hlo : 65536 ≤ p) (hhi : p ≤ 131070) : ReadError (.fail (.outOfBoundaries p))

theorem readError_of_checkBytes {c : Cursor} {n : Nat} {why : Stop} (hb : c.bit = 0) (hn : n ≤ 32)
    (h : c.checkBytes n = some why) : ReadError why := by
  have hpos := c.pos.isLt
  simp only [Cursor.checkBytes, Config.posMax, hb, ne_eq, not_true_eq_false, if_false] at h
  split at h
  · cases h; exact .endOfBuffer
  split at h
  · cases h
  split at h
  next hp => cases h; exact .outOfBoundaries _ (by omega) (by omega)
  split at h
  · cases h; exact .endOfBuffer
  · cases h

/-- `CurSlice()` stops at its length, or at its payload once the length has been read (R71). -/
theorem readError_of_curSlice {c c' : Cursor} {why : Stop} (hb : c.bit = 0) (h : curSlice c = .stop why c') :
    ReadError why := by
  unfold curSlice at h
  split at h
  next hs => cases h; exact readError_of_checkBytes hb (by decide) hs
  next hs =>
    have hlen := (le16 c.buf c.pos.toNat).isLt
    obtain ⟨-, -, hroom, -⟩ := (Cursor.checkBytes_eq_none (by decide)).1 hs
    have hroom := hroom le_rfl
    simp only [failAt, Config.posMax] at h hroom
    split at h
    next hp => cases h; exact .outOfBoundaries _ (by omega) (by omega)
    split at h
    · cases h; exact .endOfBuffer
    · cases h

/-- On a byte boundary a decode rejects what it has read, or stops with the error of one of its reads. -/
theorem DecodeStop.readError {why : Stop} {c : Cursor} (h : DecodeStop why c) (hb : c.bit = 0) :
    why = .fail .unknownOpcode ∨ ReadError why := by
  cases h with
  | unknownOpcode => exact .inl rfl
  | u8 h => exact .inr (readError_of_checkBytes hb (by decide) (curU8_eq_stop.1 h).1)
  | u16 h => exact .inr (readError_of_checkBytes hb (by decide) (curU16_eq_stop.1 h).1)
  | block32 h => exact .inr (readError_of_checkBytes hb (by decide) (curBlock32_eq_stop.1 h).1)
  | slice h => exact .inr (readError_of_curSlice hb h)

/-! ### Where a decode leaves the cursor -/

/-- The bytes up to offset 65536, and one more while the sentinel is clear: what an advance uses up (R64). -/
def bytesLeft (pos : Offset) (eof : Bool) : Nat := Config.codeMax - pos.toNat + if eof then 0 else 1

/-- No cursor has more ahead of it than a fresh one. -/
theorem bytesLeft_le (pos : Offset) (eof : Bool) : bytesLeft pos eof ≤ 65537 := by
  simp only [bytesLeft, Config.codeMax]
  split <;> omega

/-- An advance does not move back, and uses up some of the bytes left unless it is empty: a byte, or at offset 65535 the
sentinel. -/
theorem Cursor.advance_progress {c : Cursor} {n : Nat} (he : c.eof = false)
    (hp : 2 ≤ n → c.pos.toNat + n ≤ Config.posMax) :
    c.pos.toNat ≤ (c.advance n).pos.toNat ∧
      bytesLeft (c.advance n).pos (c.advance n).eof + n ≤ bytesLeft c.pos c.eof := by
  have hpos := c.pos.isLt
  by_cases hin : c.pos.toNat + n ≤ Config.posMax
  · have heof : (c.advance n).eof = false := by rw [Cursor.advance_inside hin]; exact he
    rw [bytesLeft, bytesLeft, heof, he, Cursor.advance_pos_toNat hin]
    simp only [Config.posMax, Config.codeMax] at *
    omega
  · simp only [Config.posMax] at hp hin
    obtain rfl : n = 1 := by omega
    rw [Cursor.advance_sentinel (by simp only [Config.posMax]; omega)]
    simp [bytesLeft, he]

/-- The cursor `c'` is over the buffer of `c`, not before it, with no more bytes left. -/
structure Cursor.Onward (c c' : Cursor) : Prop where
  buf : c'.buf = c.buf
  pos : c.pos.toNat ≤ c'.pos.toNat
  left : bytesLeft c'.pos c'.eof ≤ bytesLeft c.pos c.eof

theorem Cursor.Onward.refl (c : Cursor) : c.Onward c := ⟨rfl, le_rfl, le_rfl⟩

theorem Cursor.Onward.advance {c c' : Cursor} {n : Nat} (h : c.Onward c') (he : c'.eof = false)
    (hp : 2 ≤ n → c'.pos.toNat + n ≤ Config.posMax) : c.Onward (c'.advance n) := by
  obtain ⟨hpos, hleft⟩ := Cursor.advance_progress he hp
  exact ⟨(Cursor.advance_buf c' n).trans h.buf, h.pos.trans hpos, by have := h.left; omega⟩

theorem readsKeep_onward (c : Cursor) : ReadsKeep c.Onward := readsKeep_of_advance fun _ _ h he hp => h.advance he hp

/-- A decode leaves the buffer alone and never moves back, however it ends (R62, R74). -/
theorem decode_onward (d : DigestTable) (c : Cursor) : (decode d c).Ends c.Onward :=
  decode_ends (readsKeep_onward c) d (.refl c)

/-- A decode that yields an instruction has used up at least the opcode byte. -/
theorem decode_uses_bytes {d : DigestTable} {c c' : Cursor} {i : Instr} (h : decode d c = .ok i c') :
    bytesLeft c'.pos c'.eof < bytesLeft c.pos c.eof := by
  simp only [decode, CurOut.bind_eq_ok] at h
  obtain ⟨op, c1, h1, h2⟩ := h
  obtain ⟨he, -, -, -, rfl⟩ := curU8_eq_ok.1 h1
  obtain ⟨-, hop⟩ := Cursor.advance_progress (c := c) (n := 1) he (by omega)
  cases hrow : opcodeRow d op with
  | none => simp [hrow, failAt] at h2
  | some row =>
    have hrest := readRow_ends (readsKeep_onward (c.advance 1)) d row (.refl _)
    simp only [hrow] at h2
    rw [h2] at hrest
    have := hrest.left
    omega

/-! ### What a step that faults has done -/

/-- An instruction of a running engine that leaves it faulted did nothing but raise (R292, R294). -/
theorem exec_faulted {s t : State} {i : Instr} {e : EngineError} (hr : s.run = .running) (h : exec i s = .next t)
    (ht : t.run = .faulted e) : t = s.raise e := by
  obtain ⟨hrun, -⟩ | ⟨e', rfl⟩ | ⟨b, rfl⟩ := exec_engine h
  · rw [hrun, hr] at ht; cases ht
  · cases ht; rfl
  · cases ht

/-- A step that faults moved the cursor over what its decode read, and raised; whether the decode or the instruction
raised makes no difference. -/
theorem step_faulted {s t : State} {e : EngineError} (h : step s = .next t) (ht : t.run = .faulted e) :
    ∃ m c, (s.cursorOn m).Onward c ∧ t = (s.fetched c).raise e := by
  obtain ⟨hr, m, -, ⟨i, c, hd, h⟩ | ⟨why, c, hd, rfl⟩⟩ := step_decoded h
  all_goals
    have hon := decode_onward s.digest (s.cursorOn m)
    rw [hd] at hon
  · exact ⟨m, c, hon, exec_faulted (s := s.fetched c) hr h ht⟩
  · cases why with
    | fail e' => cases ht; exact ⟨m, c, hon, rfl⟩
    | abort v => cases ht

/-! ### Every instruction answers a next state -/

theorem afterChecks_next (cs : List (Option EngineError)) (s s' : State) : ∃ t, afterChecks cs s s' = .next t := by
  induction cs with
  | nil => exact ⟨s', rfl⟩
  | cons check rest ih =>
    cases check with
    | some e => exact ⟨s.raise e, rfl⟩
    | none => exact ih

theorem compareSlots_next (b : Bank) (i1 i2 : Fin 32) (s : State) : ∃ t, compareSlots b i1 i2 s = .next t :=
  (compareSlots_cases b i1 i2 s).elim (⟨_, ·⟩) fun ⟨_, h⟩ => ⟨_, h⟩

theorem equateSlots_next (b : Bank) (i1 i2 : Fin 32) (s : State) : ∃ t, equateSlots b i1 i2 s = .next t :=
  (equateSlots_cases b i1 i2 s).elim (⟨_, ·⟩) fun ⟨_, h⟩ => ⟨_, h⟩

/-- No instruction is refused, and none ends in a fault of the model (R277, R279). -/
theorem exec_next (i : Instr) (s : State) : ∃ t, exec i s = .next t := by
  cases hi : isData i with
  | true =>
    obtain ⟨t, h, -⟩ := exec_data_meaning hi s
    exact ⟨t, h⟩
  | false =>
    cases i with
    | fail => exact ⟨_, rfl⟩
    | succ => exact ⟨_, rfl⟩
    | jmp off => exact exec_jmp off s ▸ afterChecks_next ..
    | jif off =>
      cases hst : s.st0 with
      | true => exact exec_jif_taken hst off ▸ exec_jmp off s ▸ afterChecks_next ..
      | false => exact ⟨s, exec_jif_not_taken hst off⟩
    | routine off => exact exec_routine off s ▸ afterChecks_next ..
    | call lib off => exact exec_call lib off s ▸ afterChecks_next ..
    | exec lib off => exact exec_exec lib off s ▸ afterChecks_next ..
    | ret =>
      cases hs : s.cs0 with
      | nil => exact ⟨_, exec_ret_empty hs⟩
      | cons e rest => exact exec_ret_top hs ▸ afterChecks_next ..
    | cmpa => exact compareSlots_next ..
    | cmpr => exact compareSlots_next ..
    | eqa => exact equateSlots_next ..
    | eqr => exact equateSlots_next ..
    | _ => cases hi

/-- An instruction that leaves a running engine halted is `succ` or `fail`, and `st0` says which (R142, R143). -/
theorem exec_halted {s t : State} {i : Instr} {b : Bool} (hr : s.run = .running) (h : exec i s = .next t)
    (ht : t.run = .halted b) : i = (if b then .succ else .fail) ∧ t.st0 = b := by
  have hne : s.run ≠ .halted b := by rw [hr]; exact nofun
  cases exec_kind h with
  | data _ e =>
    cases e with
    | raised => cases ht
    | _ => exact absurd ht hne
  | halt hi =>
    cases i with
    | fail => cases next_inj.1 h; cases ht; exact ⟨rfl, rfl⟩
    | succ => cases next_inj.1 h; cases ht; exact ⟨rfl, rfl⟩
    | _ => cases hi
  | compare _ e => obtain rfl | ⟨f, rfl⟩ := e <;> exact absurd ht hne
  | equate _ e => obtain rfl | ⟨f, rfl⟩ := e <;> exact absurd ht hne
  | transfer hi =>
    cases transfer_cases hi h with
    | raised => cases ht
    | _ => exact absurd ht hne

/-! ### A step, by what the decode came to (R276) -/

section Step

variable {s : State} {m : Memory} {c : Cursor}

theorem step_of_decode {i : Instr} (hr : s.run = .running) (hm : s.buffer s.curlib = some m)
    (hd : decode s.digest (s.cursorOn m) = .ok i c) : step s = exec i (s.fetched c) := by
  have hf := fetch_eq_instr.2 ⟨m, c, hm, hd, rfl⟩
  simp only [step, hr, hf]

/-- With a buffer to read, a running engine has a next state. -/
theorem step_next (hr : s.run = .running) (hm : s.buffer s.curlib = some m) : ∃ t, step s = .next t := by
  cases hd : decode s.digest (s.cursorOn m) with
  | ok i c => exact step_of_decode hr hm hd ▸ exec_next i (s.fetched c)
  | stop why c => exact ⟨_, step_of_decode_stop hr hm hd⟩

/-- Past the end of the buffer, or under the sentinel, not even the opcode byte can be read (R282). -/
theorem decode_past_end (d : DigestTable) (hb : c.bit = 0) (h : c.buf.len ≤ c.pos.toNat ∨ c.eof = true) :
    decode d c = .stop (.fail .endOfBuffer) c := by
  have hc : c.checkBytes 1 = some (.fail .endOfBuffer) := by
    cases he : c.eof with
    | true => exact Cursor.checkBytes_eof he 1
    | false =>
      have hl : c.buf.len < c.pos.toNat + 1 := by simpa [he, Nat.lt_succ_iff] using h
      simp [Cursor.checkBytes, he, hb, hl]
  rw [decode, curU8_eq_stop.2 ⟨hc, rfl⟩, CurOut.bind_stop]

end Step

/-- A step that halts ran `succ` or `fail`. -/
theorem step_halted {s t : State} {b : Bool} (h : step s = .next t) (ht : t.run = .halted b) :
    t.st0 = b ∧ ∃ s', fetch s = .instr (if b then .succ else .fail) s' := by
  obtain ⟨hr, m, hm, ⟨i, c, hd, h⟩ | ⟨why, c, hd, rfl⟩⟩ := step_decoded h
  · obtain ⟨rfl, hst⟩ := exec_halted (s := s.fetched c) hr h ht
    exact ⟨hst, _, fetch_eq_instr.2 ⟨m, c, hm, hd, rfl⟩⟩
  · cases why <;> cases ht

/-! ### The state a launch leads to -/

/-- The reset state over the launch parameters (R320). -/
def LaunchParams.state (p : LaunchParams) : State :=
  { State.reset with
    code := p.code, launchLib := p.launchLib, libs := p.libs, digest := p.digest, curlib := p.launchLib }

theorem launch_eq {p : LaunchParams} (h : p.ok = true) : launch p = .next p.state := if_pos h

/-- A launch that is not refused leads there. -/
theorem launch_eq_next {p : LaunchParams} {s : State} (h : launch p = .next s) : s = p.state := by
  unfold launch at h
  split at h
  · exact (next_inj.1 h).symm
  · cases h

/-- The conditions of R323 are what the invariant asks of the buffers; the rest of it holds as at reset. -/
theorem LaunchParams.state_inv {p : LaunchParams} (h : p.ok = true) : Inv p.state := by
  obtain ⟨hcode, hlibs, -⟩ := of_decide_eq_true h
  exact
    { aligned := rfl
      eofAtEnd := nofun
      current := by simp [LaunchParams.state, State.buffer]
      stacked := nofun
      depth := Nat.zero_le _
      libdepth := Nat.zero_le _
      slots := fun b i v hv => by cases (State.slot_reset b i).symm.trans hv
      code := hcode
      libs := hlibs
      fault := rfl }

/-! ### The budget of a run (R284) -/

/-- What the transfers and returns still possible without `exec` allow: each transfer counted may be returned from. -/
def State.transfersLeft (s : State) : Nat := 2 * (Config.cyMax - s.cy0.toNat) + s.cp0

theorem stepsLeft_eq (s : State) : stepsLeft s = s.transfersLeft * 65537 + bytesLeft s.pos s.eof := Nat.add_assoc ..

/-- After a launch the whole budget is left. -/
theorem LaunchParams.state_stepsLeft (p : LaunchParams) : stepsLeft p.state = 131071 * 65537 := by
  simp [stepsLeft, LaunchParams.state, State.reset, State.cp0, Config.cyMax, Config.codeMax]

theorem stepsLeft_pos (s : State) : 0 < stepsLeft s := by
  have hpos := s.pos.isLt
  simp only [stepsLeft, Config.codeMax]
  omega

theorem stepsLeft_lt_of_transfersLeft {s t : State} (h : t.transfersLeft < s.transfersLeft)
    (hs : 0 < bytesLeft s.pos s.eof) : stepsLeft t < stepsLeft s := by
  have ht := bytesLeft_le t.pos t.eof
  rw [stepsLeft_eq, stepsLeft_eq]
  omega

theorem stepsLeft_lt_of_bytesLeft {s t : State} (h : t.transfersLeft = s.transfersLeft)
    (hb : bytesLeft t.pos t.eof < bytesLeft s.pos s.eof) : stepsLeft t < stepsLeft s := by
  rw [stepsLeft_eq, stepsLeft_eq, h]
  exact Nat.add_lt_add_left hb _

/-- A count takes two from the budget, of which a push gives one back. -/
theorem transfersLeft_countTransfer {s : State} (hc : s.countCheck = none) :
    s.countTransfer.transfersLeft + 2 = s.transfersLeft := by
  have hcy := s.countTransfer.cy0.isLt
  have hnext := countTransfer_toNat hc
  simp only [State.transfersLeft, Config.cyMax, State.countTransfer_cp0]
  omega

/-- A transfer other than `exec` that does not raise uses up the transfers left, or is a `jif` not taken. -/
theorem TransferEffect.transfersLeft_lt {s t : State} {i : Instr} (e : TransferEffect s i t) (hr : t.run = .running)
    (hi : ∀ lib off, i ≠ .exec lib off) : t = s ∨ t.transfersLeft < s.transfersLeft := by
  have counted (hc : s.countCheck = none) (hle : t.transfersLeft ≤ s.countTransfer.transfersLeft + 1) :
      t.transfersLeft < s.transfersLeft := by
    have := transfersLeft_countTransfer hc
    omega
  cases e with
  | raised => cases hr
  | jifNot => exact .inl rfl
  | exec lib off => exact absurd rfl (hi lib off)
  | jmp off hc => exact .inr (counted hc (Nat.le_succ _))
  | jifTaken off _ hc => exact .inr (counted hc (Nat.le_succ _))
  | routine off hc => exact .inr (counted hc le_rfl)
  | call lib off hc => exact .inr (counted hc le_rfl)
  | ret e rest hs => exact .inr (by simp [State.transfersLeft, State.cp0, hs])

/-- An instruction other than `exec` that goes on uses up the transfers left, or leaves them and the cursor alone. -/
theorem exec_transfersLeft {s t : State} {i : Instr} (h : exec i s = .next t) (hr : t.run = .running)
    (hi : ∀ lib off, i ≠ .exec lib off) :
    (t.transfersLeft = s.transfersLeft ∧ t.pos = s.pos ∧ t.eof = s.eof) ∨ t.transfersLeft < s.transfersLeft := by
  cases htr : isTransfer i with
  | true =>
    obtain rfl | hlt := (transfer_cases htr h).transfersLeft_lt hr hi
    · exact .inl ⟨rfl, rfl, rfl⟩
    · exact .inr hlt
  | false =>
    obtain ⟨⟨hpos, -, heof, -⟩, hcy, hcs, -⟩ := exec_frame_of_not_transfer htr h
    exact .inl ⟨by simp [State.transfersLeft, State.cp0, hcy, hcs], hpos, heof⟩

/-- A step that goes on without `exec` uses up budget: bytes by its decode, and transfers if it transferred. -/
theorem step_stepsLeft_lt {s t : State} (h : step s = .next t) (hr : t.run = .running)
    (hx : ∀ lib off s', fetch s ≠ .instr (.exec lib off) s') : stepsLeft t < stepsLeft s := by
  obtain ⟨-, m, hm, ⟨i, c, hd, h⟩ | ⟨why, c, -, rfl⟩⟩ := step_decoded h
  · have hbytes : bytesLeft c.pos c.eof < bytesLeft s.pos s.eof := decode_uses_bytes hd
    have hi : ∀ lib off, i ≠ .exec lib off := fun lib off he =>
      hx lib off (s.fetched c) (fetch_eq_instr.2 ⟨m, c, hm, he ▸ hd, rfl⟩)
    obtain ⟨htl, hpos, heof⟩ | hlt := exec_transfersLeft h hr hi
    · exact stepsLeft_lt_of_bytesLeft htl (by rw [hpos, heof]; exact hbytes)
    · exact stepsLeft_lt_of_transfersLeft hlt (Nat.zero_lt_of_lt hbytes)
  · cases why <;> cases hr

/-! ### A run without `exec` -/

theorem runFor_step {s t : State} (hr : s.run = .running) (h : step s = .next t) (n : Nat) :
    runFor (n + 1) s = runFor n t := by simp only [runFor, hr, h, if_true]

/-- No running state of the run from `s` has an `exec` to fetch. -/
def NoExecAhead (s : State) : Prop :=
  ∀ n u, runFor n s = .next u → u.run = .running → ∀ lib off u', fetch u ≠ .instr (.exec lib off) u'

theorem NoExecAhead.step {s t : State} (hx : NoExecAhead s) (hr : s.run = .running) (h : step s = .next t) :
    NoExecAhead t := fun n u hn => hx (n + 1) u (by rw [runFor_step hr h, hn])

/-- By induction on the budget: each step that goes on makes it smaller. -/
theorem run_ends {s : State} (hs : Inv s) (hx : NoExecAhead s) :
    ∃ n t, n ≤ stepsLeft s ∧ runFor n s = .next t ∧ t.run ≠ .running := by
  induction hb : stepsLeft s using Nat.strong_induction_on generalizing s with
  | _ b ih =>
    subst hb
    by_cases hr : s.run = .running
    · obtain ⟨m, hm⟩ := Option.isSome_iff_exists.1 hs.current
      obtain ⟨t, h⟩ := step_next hr hm
      by_cases hrt : t.run = .running
      · have hlt := step_stepsLeft_lt h hrt (hx 0 s rfl hr)
        obtain ⟨n, u, hn, hrun, hu⟩ := ih _ hlt (step_inv hs h) (hx.step hr h) rfl
        exact ⟨n + 1, u, Nat.lt_of_le_of_lt hn hlt, by rw [runFor_step hr h, hrun], hu⟩
      · exact ⟨1, t, stepsLeft_pos s, runFor_step hr h 0, hrt⟩
    · exact ⟨0, s, Nat.zero_le _, rfl, hr⟩

end Sys2Proof.Machine

/-! ## The statements about a step and a run -/

namespace Sys2Proof.Proofs

open Sys2Proof.Machine

/-- Settles O20: the step moved the cursor to `npc` or to where the decode stopped, and the rest is `raise`. -/
theorem faultsArePrecise : Obligations.FaultsArePrecise := by
  unfold Obligations.FaultsArePrecise
  intro s t e hb h ht
  obtain ⟨hbit, -⟩ := step_aligned hb h
  obtain ⟨m, c, hon, rfl⟩ := step_faulted h ht
  obtain ⟨-, hflt, hslots, hflags, hctl, -, hmem⟩ := raises_raise (s.fetched c) e
  exact ⟨hslots, hflags, hctl, hmem, hbit, hon.pos, hflt⟩

/-- Settles O5: the reads stop with two of the errors, the legality checks with the third, and no read moves back. -/
theorem decodeStopsAreDecodeErrors : Obligations.DecodeStopsAreDecodeErrors := by
  unfold Obligations.DecodeStopsAreDecodeErrors
  intro d c c' why hb h
  have hbit := decode_bit d hb
  have hon := decode_onward d c
  rw [h] at hbit hon
  refine ⟨?_, hon.buf, hbit, hon.pos⟩
  obtain rfl | herr := (decodeStop_of_decode h).readError hbit
  · exact .inr (.inl rfl)
  · cases herr with
    | endOfBuffer => exact .inl rfl
    | outOfBoundaries p hlo hhi => exact .inr (.inr ⟨p, rfl, hlo, hhi⟩)

/-- Settles O22, by the kind of the instruction. -/
theorem everyInstructionHasANextState : Obligations.EveryInstructionHasANextState := by
  unfold Obligations.EveryInstructionHasANextState
  exact exec_next

/-- Settles O23: what each kind of instruction but the transfers leaves alone. -/
theorem onlyTransfersMoveTheCursor : Obligations.OnlyTransfersMoveTheCursor := by
  unfold Obligations.OnlyTransfersMoveTheCursor
  exact fun _ _ _ => exec_frame_of_not_transfer

/-- Settles O16: the invariant gives a buffer to read and a byte boundary, and each engine state the step can end in is
one that a step can reach in one way. -/
theorem stepOutcomesAreExhaustive : Obligations.StepOutcomesAreExhaustive := by
  unfold Obligations.StepOutcomesAreExhaustive
  intro s hs hr
  obtain ⟨m, hm⟩ := Option.isSome_iff_exists.1 hs.current
  obtain ⟨t, h⟩ := step_next hr hm
  refine ⟨t, h, ?_⟩
  cases ht : t.run with
  | running => exact .inl rfl
  | halted b =>
    obtain ⟨hst, hf⟩ := step_halted h ht
    cases b with
    | true => exact .inr (.inl ⟨rfl, hst, hf⟩)
    | false => exact .inr (.inr (.inl ⟨rfl, hst, hf⟩))
  | faulted e =>
    obtain ⟨_, c, -, rfl⟩ := step_faulted h ht
    exact .inr (.inr (.inr ⟨e, rfl, rfl⟩))
  | aborted v => exact absurd ht ((step_aligned hs.aligned h).2 v)

/-- Settles O11: the fetch moves the cursor and writes `ipc`. -/
theorem stepRunsTheDecodedInstruction : Obligations.StepRunsTheDecodedInstruction := by
  unfold Obligations.StepRunsTheDecodedInstruction
  exact fun _ _ _ _ => step_of_decode

/-- Settles O21: the decode stops at the opcode byte; an empty `CODE` has no offset 0. -/
theorem fetchPastTheEndFaults : Obligations.FetchPastTheEndFaults := by
  unfold Obligations.FetchPastTheEndFaults
  have pastEnd (s : State) (m : Memory) (hr : s.run = .running) (hb : s.bit = 0) (hm : s.buffer s.curlib = some m)
      (h : m.len ≤ s.pos.toNat ∨ s.eof = true) :=
    step_of_decode_stop hr hm (decode_past_end s.digest (c := s.cursorOn m) hb h)
  refine ⟨pastEnd, ?_⟩
  rintro s rfl
  exact pastEnd _ (Memory.ofBytes []) rfl rfl rfl (.inl le_rfl)

/-- Settles O14: the launch refuses nothing else, and its conditions are those of the invariant on the buffers. -/
theorem launchMeetsTheInvariant : Obligations.LaunchMeetsTheInvariant := by
  unfold Obligations.LaunchMeetsTheInvariant
  rintro p s hp rfl
  exact ⟨launch_eq hp, LaunchParams.state_inv hp⟩

/-- Settles O27: the decode uses up bytes, a transfer the transfers left, which weigh more than all bytes. -/
theorem stepsWithoutExecUseTheBudget : Obligations.StepsWithoutExecUseTheBudget := by
  unfold Obligations.StepsWithoutExecUseTheBudget
  exact fun _ _ _ => step_stepsLeft_lt

/-- Settles O28: the budget bounds the steps that go on, and at a launch it is whole. -/
theorem runsWithoutExecEnd : Obligations.RunsWithoutExecEnd := by
  unfold Obligations.RunsWithoutExecEnd
  refine ⟨fun s => run_ends, fun p s h => ?_⟩
  obtain rfl := launch_eq_next h
  exact p.state_stepsLeft

end Sys2Proof.Proofs

/-! ## Proofs: unset operands (spec/60_exceptions.md R296) -/

namespace Sys2Proof.Machine

section Unset

variable {s : State} {b : ABank} {i1 i2 : Fin 32}

/-- Some slot of the list is unset. -/
def State.SomeUnset (s : State) (w : List (Bank × Fin 32)) : Prop := ∃ p ∈ w, s.slot p.1 p.2 = none

theorem State.someUnset_one {b : Bank} {i : Fin 32} : s.SomeUnset [(b, i)] ↔ s.slot b i = none := by
  simp [State.SomeUnset]

theorem State.someUnset_two {b1 b2 : Bank} {i1 i2 : Fin 32} :
    s.SomeUnset [(b1, i1), (b2, i2)] ↔ s.slot b1 i1 = none ∨ s.slot b2 i2 = none := by
  simp [State.SomeUnset]

theorem withSlot_someUnset {b : Bank} {i : Fin 32} (h : s.SomeUnset [(b, i)]) (k : Bytes → Result) :
    s.withSlot b i k = .next s.operandFail := withSlot_unset (State.someUnset_one.1 h) k

theorem withSlots_someUnset {b1 b2 : Bank} {i1 i2 : Fin 32} (h : s.SomeUnset [(b1, i1), (b2, i2)])
    (k : Bytes → Bytes → Result) : s.withSlots b1 i1 b2 i2 k = .next s.operandFail :=
  withSlots_unset (State.someUnset_two.1 h) k

theorem binaryOp_unset (op : Int → Int → Int) {m : Mode} (hm : m.agrees b = true) (hf : m.kind ≠ .float)
    (h : s.SomeUnset [(b.toBank, i1), (b.toBank, i2)]) : binaryOp op m b i1 i2 s = .next s.operandFail :=
  (withMode_computes hm hf _).trans (withSlots_someUnset h _)

/-- A division reads both operands before it looks at the divisor (R214). -/
theorem divisionOp_unset (op : Int → Int → Int) {m : Mode} (hm : m.agrees b = true) (hf : m.kind ≠ .float)
    (h : s.SomeUnset [(b.toBank, i1), (b.toBank, i2)]) : divisionOp op m b i1 i2 s = .next s.operandFail :=
  (withMode_computes hm hf _).trans (withSlots_someUnset h _)

theorem unaryOp_unset (op : Int → Int) {m : Mode} (hm : m.agrees b = true) (hf : m.kind ≠ .float) {dst : Fin 32}
    (h : s.SomeUnset [(b.toBank, i1)]) : unaryOp op m b i1 dst s = .next s.operandFail :=
  (withMode_computes hm hf _).trans (withSlot_someUnset h _)

/-- Every arithmetic bank but `ap` has a width (R12). -/
theorem withWidth_of_ne_ap (hb : (b != .ap) = true) : ∃ n, ∀ k : Nat → Result, withWidth b s k = k n := by
  cases b with
  | ap => cases hb
  | _ => exact ⟨_, fun _ => rfl⟩

theorem bitwiseOp_unset (f : Nat → Nat → Nat → Nat) {d : Fin 8} (hb : (b != .ap) = true)
    (h : s.SomeUnset [(b.toBank, i1), (b.toBank, i2)]) : bitwiseOp f b i1 i2 d s = .next s.operandFail := by
  obtain ⟨n, hn⟩ := withWidth_of_ne_ap (s := s) hb
  exact (hn _).trans (withSlots_someUnset h _)

theorem execNot_unset (hb : (b != .ap) = true) (h : s.SomeUnset [(b.toBank, i1)]) :
    execNot b i1 s = .next s.operandFail := by
  obtain ⟨n, hn⟩ := withWidth_of_ne_ap (s := s) hb
  exact (hn _).trans (withSlot_someUnset h _)

theorem execDgst_unset {alg src : Fin 32} {off : Offset} {b : RBank} {dst : Fin 32} {clr : Bool}
    (hd : s.digest[alg] = some b) (h : s.SomeUnset [(.s, src)]) :
    execDgst alg src off b dst clr s = .next s.operandFail := by
  rw [execDgst, if_pos hd, withSlot_someUnset h]

end Unset

/-- A legal instruction gets to its operand slots before it does anything else: a mode that is not floating and a width
raise nothing, and the slots are read before the value of any is used. -/
theorem exec_unset {i : Instr} {s : State} (hw : i.wf = true) (hs : i.supported s.digest = true)
    (hm : ∀ m, modeOf i = some m → m.kind ≠ .float) (h : s.SomeUnset (operandSlots i)) :
    exec i s = .next s.operandFail := by
  cases i with
  | swp => exact withSlots_someUnset h _
  | mov => exact withSlot_someUnset h _
  | cmpa => exact withSlots_someUnset h _
  | cmpr => exact withSlots_someUnset h _
  | eqa => exact withSlots_someUnset h _
  | eqr => exact withSlots_someUnset h _
  | lena => exact withSlot_someUnset h _
  | lenr => exact withSlot_someUnset h _
  | cnta => exact withSlot_someUnset h _
  | cntr => exact withSlot_someUnset h _
  | add m => exact binaryOp_unset (· + ·) hw (hm m rfl) h
  | sub m => exact binaryOp_unset (· - ·) hw (hm m rfl) h
  | mul m => exact binaryOp_unset (· * ·) hw (hm m rfl) h
  | div m => exact divisionOp_unset Int.tdiv hw (hm m rfl) h
  | mod m => exact divisionOp_unset Int.tmod hw (hm m rfl) h
  | neg m => exact unaryOp_unset (fun z => -z) hw (hm m rfl) h
  | abs m => exact unaryOp_unset (fun z => (z.natAbs : Int)) hw (hm m rfl) h
  | and => exact bitwiseOp_unset (fun _ x y => x &&& y) hw h
  | or => exact bitwiseOp_unset (fun _ x y => x ||| y) hw h
  | xor => exact bitwiseOp_unset (fun _ x y => x ^^^ y) hw h
  | not => exact execNot_unset hw h
  | shl => exact bitwiseOp_unset shiftLeft hw h
  | shr => exact bitwiseOp_unset shiftRight hw h
  | scl => exact bitwiseOp_unset rotateLeft hw h
  | scr => exact bitwiseOp_unset rotateRight hw h
  | dgst => exact execDgst_unset (eq_of_beq hs) h
  | secpgen => exact withSlot_someUnset h _
  | secpmul => exact withSlots_someUnset h _
  | secpadd => exact withSlots_someUnset h _
  | secpneg => exact withSlot_someUnset h _
  | edgen => exact withSlot_someUnset h _
  | edmul => exact withSlots_someUnset h _
  | edadd => exact withSlots_someUnset h _
  | edneg => exact withSlot_someUnset h _
  | _ =>
    obtain ⟨p, hp, -⟩ := h
    cases hp

end Sys2Proof.Machine

/-! ## The statement about unset operands -/

namespace Sys2Proof.Proofs

open Sys2Proof.Machine

/-- Settles O29, by the shape of the operand read each instruction begins with. -/
theorem unsetOperandsFailTheOperation : Obligations.UnsetOperandsFailTheOperation := by
  unfold Obligations.UnsetOperandsFailTheOperation
  exact fun i s hw hs hm h => ⟨_, exec_unset hw hs hm h, failsOperand_operandFail s⟩

end Sys2Proof.Proofs
